-- ==== Sys2Proof/Syntax.lean ====
section
/-! DEFINITION. The five commands of the PTC (30_encoding.md R113), one constructor per row of the opcode table. The
operands are the fields of the command word (R110, R111), each at the width the encoding gives it; the operand
REGISTERS a command reads are no part of its word. -/

namespace Sys2Proof

/-- A command of the PTC. -/
inductive Instr where
  /-- NOP (40_commands.md R150). -/
  | nop
  /-- CELL_CONFIG (R152). -/
  | cellConfig
  /-- PROC_CONFIG, with its PROC field (R154). -/
  | procConfig (proc : BitVec 4)
  /-- PROC_FLUSH, with its PROC field (R156). -/
  | procFlush (proc : BitVec 4)
  /-- PUSCH_TX (R158): PROC, RV, NDI, MOD, SF, DUMP_GRID, DUMP_BITS, DUMP_HARQ. -/
  | puschTx (proc : BitVec 4) (rv : BitVec 2) (ndi : Bool) (mod : BitVec 2) (sf : BitVec 4)
      (dumpGrid dumpBits dumpHarq : Bool)
  deriving DecidableEq, Repr

end Sys2Proof
end

