-- ==== Sys2Proof/Word.lean ====
section
/-! DEFINITION. The word types of the PTC and their plainest reading: 32-bit register words (00_scope.md R14), bytes,
and the three-valued coded bit of the rate matcher (42_rate_matcher.md R242). -/

namespace Sys2Proof

/-- A register word, a command word or a bus datum: 32 bits, bit 0 least significant (00_scope.md R14). -/
abbrev Word := BitVec 32

/-- One byte of a data memory. -/
abbrev Byte := BitVec 8

/-- An element of a coded vector over 0, 1 and NULL (42_rate_matcher.md R242): `none` is NULL, a filler or dummy bit
that is never transmitted. -/
abbrev Trit := Option Bool

/-- A constellation point before normalisation: its I and Q levels, integers (45_modulation.md R341 to R343). -/
abbrev Point := Int × Int

end Sys2Proof
end

