-- ==== Sys2Proof/Decode.lean ====
section
/-! DEFINITION. The decoder of command words, total on every 32-bit word and rejecting by name, and the encoder
(30_encoding.md R110 to R115, spec/opcode_table.json). The decoder does steps 1 and 2 of R115 (the opcode, the reserved
and unused bits); the value ranges of step 3 and the operand checks of step 4 belong to the commands' meanings. -/

namespace Sys2Proof

/-- Why a command word is no command. Both complete with InvalidConfiguration (30_encoding.md R112, R114). -/
inductive DecodeError where
  /-- An OPCODE outside 30_encoding.md R113. -/
  | reservedOpcode
  /-- A reserved bit or a field the command does not use is nonzero (R112). -/
  | nonzeroUnused
  deriving DecidableEq, Repr

/-- OPCODE, bits [31:24] (30_encoding.md R110). -/
def opcodeField (w : Word) : BitVec 8 := w.extractLsb' 24 8
/-- PROC, bits [23:20]. -/
def procField (w : Word) : BitVec 4 := w.extractLsb' 20 4
/-- RV, bits [19:18]. -/
def rvField (w : Word) : BitVec 2 := w.extractLsb' 18 2
/-- NDI, bit [17]. -/
def ndiField (w : Word) : Bool := w.getLsbD 17
/-- MOD, bits [15:14]. -/
def modField (w : Word) : BitVec 2 := w.extractLsb' 14 2
/-- SF, bits [13:10]. -/
def sfField (w : Word) : BitVec 4 := w.extractLsb' 10 4
/-- DUMP_GRID, bit [9]. -/
def dumpGridField (w : Word) : Bool := w.getLsbD 9
/-- DUMP_BITS, bit [8]. -/
def dumpBitsField (w : Word) : Bool := w.getLsbD 8
/-- DUMP_HARQ, bit [7]. -/
def dumpHarqField (w : Word) : Bool := w.getLsbD 7

/-- The opcodes of 30_encoding.md R113. -/
def opcodeNop : BitVec 8 := 0x00
/-- CELL_CONFIG's opcode. -/
def opcodeCellConfig : BitVec 8 := 0x01
/-- PROC_CONFIG's opcode. -/
def opcodeProcConfig : BitVec 8 := 0x02
/-- PROC_FLUSH's opcode. -/
def opcodeProcFlush : BitVec 8 := 0x03
/-- PUSCH_TX's opcode. -/
def opcodePuschTx : BitVec 8 := 0x10

/-- The bits a word with this opcode may use; every other bit must be 0 (30_encoding.md R112, the complement of the
opcode table's mask together with the opcode). -/
def unusedMaskProc : Word := 0x000FFFFF
/-- The bits that NOP and CELL_CONFIG leave unused: all but OPCODE. -/
def unusedMaskNone : Word := 0x00FFFFFF
/-- The reserved bits of PUSCH_TX: [16] and [6:0]. -/
def unusedMaskPusch : Word := 0x0001007F

/-- Steps 1 and 2 of 30_encoding.md R115: OPCODE against R113, then reserved bits and unused fields against R112. -/
def decode (w : Word) : Except DecodeError Instr :=
  if opcodeField w = opcodeNop then
    if w &&& unusedMaskNone = 0 then .ok .nop else .error .nonzeroUnused
  else if opcodeField w = opcodeCellConfig then
    if w &&& unusedMaskNone = 0 then .ok .cellConfig else .error .nonzeroUnused
  else if opcodeField w = opcodeProcConfig then
    if w &&& unusedMaskProc = 0 then .ok (.procConfig (procField w)) else .error .nonzeroUnused
  else if opcodeField w = opcodeProcFlush then
    if w &&& unusedMaskProc = 0 then .ok (.procFlush (procField w)) else .error .nonzeroUnused
  else if opcodeField w = opcodePuschTx then
    if w &&& unusedMaskPusch = 0 then
      .ok (.puschTx (procField w) (rvField w) (ndiField w) (modField w) (sfField w)
        (dumpGridField w) (dumpBitsField w) (dumpHarqField w))
    else .error .nonzeroUnused
  else .error .reservedOpcode

/-- The OPCODE of a command (30_encoding.md R113): what STATUS.LAST_OP records. -/
def Instr.opcode : Instr → BitVec 8
  | .nop => opcodeNop
  | .cellConfig => opcodeCellConfig
  | .procConfig _ => opcodeProcConfig
  | .procFlush _ => opcodeProcFlush
  | .puschTx .. => opcodePuschTx

/-- The PROC field of a command, 0 where the command does not use it (R112): what STATUS.LAST_PROC records. -/
def Instr.procBits : Instr → BitVec 4
  | .nop => 0
  | .cellConfig => 0
  | .procConfig proc => proc
  | .procFlush proc => proc
  | .puschTx proc .. => proc

/-- The low 20 bits of a command's word: RV, NDI, 0, MOD, SF, the dump flags, seven 0s (R110). -/
def Instr.lowBits : Instr → BitVec 20
  | .nop => 0
  | .cellConfig => 0
  | .procConfig _ => 0
  | .procFlush _ => 0
  | .puschTx _ rv ndi mod sf dg db dh =>
    rv ++ BitVec.ofBool ndi ++ (0 : BitVec 1) ++ mod ++ sf ++ BitVec.ofBool dg ++ BitVec.ofBool db ++
      BitVec.ofBool dh ++ (0 : BitVec 7)

/-- The command word of a command (30_encoding.md R110, R113, R130). -/
def encode (i : Instr) : Word := i.opcode ++ i.procBits ++ i.lowBits

/-- The instruction the decoder reads from the low `nbits` bits of `w`, every higher bit 0: one 32-bit word, numbered as
the opcode table numbers it (its bit 0 the word's bit 0). -/
def decodeTableWord (nbits w : Nat) : Option Instr :=
  match decode (BitVec.ofNat 32 (w % 2 ^ nbits)) with
  | .ok i => some i
  | .error _ => none

end Sys2Proof
end

