-- ==== Sys2Proof/Machine/Exact.lean ====
section
/-! DEFINITION. The exact values of grid elements and waveform samples (00_scope.md R16, 20_memory.md R88), as plain data
with their meaning in the complex numbers, and the reading of a stored binary32 word.

The step never computes a complex number: it carries WHICH exact value a sample has (`SampleValue`), and the numbers
themselves are the meanings `GridValue.value` (46_grid_mapper.md R361) and `WaveValue.value` (47_waveform.md R381). -/

namespace Sys2Proof.Machine

/-- The exact value of one grid element: 0, or output `k` of the transform precoder over one block of constellation
points, each divided by the square root of `norm` (46_grid_mapper.md R361, R364; 45_modulation.md R341 to R343). -/
inductive GridValue where
  /-- An element the mapper leaves at 0 (46_grid_mapper.md R367). -/
  | empty
  /-- Element `k` of the DFT of `block`. -/
  | dft (norm : Nat) (block : List Point) (k : Nat)
  deriving DecidableEq, Repr

/-- The exact value of one waveform sample: the grid column of its symbol (subcarrier 0 first), the transform size and
the sample's time n − N_CP,l relative to the symbol body's start (47_waveform.md R381). -/
structure WaveValue where
  column : List GridValue
  nfft : Nat
  time : Int
  deriving DecidableEq, Repr

/-- The exact value behind an entry of GRID_MEM or WAVE_MEM. -/
inductive SampleValue where
  | grid (g : GridValue)
  | wave (v : WaveValue)
  deriving DecidableEq, Repr

/-- The two components of a stored complex sample (20_memory.md R82). -/
inductive Part where
  | re
  | im
  deriving DecidableEq, Repr

/-- A constellation point's levels as a complex number, before the division by √norm. -/
noncomputable def pointValue (p : Point) : ℂ := (p.1 : ℂ) + (p.2 : ℂ) * Complex.I

/-- 46_grid_mapper.md R361: z[k] = (1/√M) · Σ_i d[i] · exp(−j2π·i·k/M), with d[i] = (I + jQ)/√norm. -/
noncomputable def GridValue.value : GridValue → ℂ
  | .empty => 0
  | .dft norm block k =>
    (1 / (Real.sqrt block.length : ℂ)) * ∑ i ∈ Finset.range block.length,
      pointValue (block.getD i (0, 0)) / (Real.sqrt norm : ℂ) *
        Complex.exp (((-2 * Real.pi * i * k / block.length : ℝ) : ℂ) * Complex.I)

/-- 47_waveform.md R381, with TX_SCALE given per transform size:
TX_SCALE · Σ_k grid[k] · exp(j2π·(k − N_sc/2 + 1/2)·(n − N_CP)/N), the sum over the column's grid subcarriers. -/
noncomputable def WaveValue.value (scale : Nat → ℝ) (x : WaveValue) : ℂ :=
  (scale x.nfft : ℂ) * ∑ k ∈ Finset.range x.column.length,
    (x.column.getD k .empty).value *
      Complex.exp (((2 * Real.pi * (k - x.column.length / 2 + 1 / 2) * x.time / x.nfft : ℝ) : ℂ) * Complex.I)

/-- The exact complex value of a sample. -/
noncomputable def SampleValue.value (scale : Nat → ℝ) : SampleValue → ℂ
  | .grid g => g.value
  | .wave v => v.value scale

/-- The real or the imaginary part. -/
noncomputable def Part.of : Part → ℂ → ℝ
  | .re, z => z.re
  | .im, z => z.im

/-- An IEEE 754 binary32 word is finite: its exponent is not all ones (PRESUMED, log 18: the format is named by 20_memory.md
R82 and not spelled out there). -/
def binary32Finite (b : Word) : Bool := b.extractLsb' 23 8 ≠ 0xFF

/-- The rational value of a finite IEEE 754 binary32 word. -/
def binary32Value (b : Word) : ℚ :=
  let sign : ℚ := if b.getLsbD 31 then -1 else 1
  let exponent := (b.extractLsb' 23 8).toNat
  let fraction := (b.extractLsb' 0 23).toNat
  if exponent = 0 then sign * fraction / 2 ^ 149
  else sign * (2 ^ 23 + fraction) * 2 ^ exponent / 2 ^ 150

end Sys2Proof.Machine
end

