-- ==== Sys2Proof/Config.lean ====
section
/-! DEFINITION. What an implementation fixes (00_scope.md R10) and the values the spec leaves open. The bodiless
constants of this file are the OPEN parameters and the free values: nothing in Lean evaluates them. -/

namespace Sys2Proof.Config

/-- N_HARQ, the number of HARQ process slots (00_scope.md R10). -/
abbrev nHarq : Nat := 8
/-- MAX_TB_SIZE (00_scope.md R10). -/
abbrev maxTbSize : Nat := 75400
/-- MAX_CQI_BITS (00_scope.md R10). -/
abbrev maxCqiBits : Nat := 1023
/-- MAX_RI_BITS (00_scope.md R10). -/
abbrev maxRiBits : Nat := 11
/-- MAX_ACK_BITS (00_scope.md R10). -/
abbrev maxAckBits : Nat := 11
/-- N_SRS (00_scope.md R10). -/
abbrev nSrs : Nat := 0

/-- PTC_ID, the OPEN value of the ID register (00_scope.md R4, R10; log 9). -/
opaque ptcId : Word

/-- PTC_BASE, the OPEN base address of the PTC space (20_memory.md R80; log 9). -/
opaque ptcBase : Word

/-- Free 32-bit values: the choice between old and new value of a raced field or bit, and the value of a read that
20_memory.md R93 leaves unspecified. The argument counts the values drawn (log 7). -/
opaque freeWord : Nat → Word

/-- How the PTC stores exact values as binary32 words (20_memory.md R88; log 8): the OPEN parameters EPS_SAMPLE and
TX_SCALE, and the stored word for a component of an exact value, which may differ from draw to draw. Every stored word is
finite, and within EPS_SAMPLE of its component wherever `stored` says that the PTC stores that value: nothing else bounds
EPS_SAMPLE. -/
structure SampleFormat (stored : Machine.SampleValue → Prop) where
  /-- EPS_SAMPLE. -/
  eps : ℝ
  /-- TX_SCALE, for each transform size. -/
  txScale : Nat → ℝ
  /-- The stored binary32 word. -/
  store : Machine.SampleValue → Machine.Part → Nat → Word
  finite : ∀ x part draw, Machine.binary32Finite (store x part draw) = true
  close : ∀ x part draw, stored x →
    |(Machine.binary32Value (store x part draw) : ℝ) - part.of (x.value txScale)| ≤ eps

/-- The OPEN sample format: any one that meets R88 of the stored values. The bracketed argument only lets Lean see that
the type has a member; the constant has no body. -/
opaque anySampleFormat (stored : Machine.SampleValue → Prop) [Inhabited (SampleFormat stored)] : SampleFormat stored

end Sys2Proof.Config
end

