-- ==== Sys2Proof/Machine/State.lean ====
section
/-! DEFINITION. The state of the PTC as plain data (10_state.md R30): argument registers, STATUS and length registers, the
cell configuration, the HARQ process table, the data memories with their written marks, the pending command, and the
model's own fields (the schedule of turns, the racing inputs, the count of free values drawn, the last host read). -/

namespace Sys2Proof.Machine

/-- The cyclic-prefix mode (10_state.md R38, R50). -/
inductive CyclicPrefix where
  | normal
  | extended
  deriving DecidableEq, Repr

/-- The port count of the cell, stored and read by no rule (10_state.md R50; 40_commands.md R153). -/
inductive PortCount where
  | one
  | two
  | four
  deriving DecidableEq, Repr

/-- NRB_SET, the legal cell bandwidths in resource blocks (00_scope.md R10). -/
inductive Bandwidth where
  | rb6
  | rb15
  | rb25
  | rb50
  | rb75
  | rb100
  deriving DecidableEq, Repr

/-- The three modulations (00_scope.md R12). -/
inductive Modulation where
  | qpsk
  | qam16
  | qam64
  deriving DecidableEq, Repr

/-- The result codes of 60_exceptions.md R401. Codes 7 to 15 are never produced. -/
inductive ErrCode where
  | ok
  | invalidConfiguration
  | processNotInitialized
  | allocationTooSmall
  | allocationMismatch
  | controlOverflow
  | invalidBitLength
  deriving DecidableEq, Repr

/-- The argument registers (10_state.md R32, R38 to R44). Their reserved bits are 0: the register write masks them. -/
structure ArgRegs where
  cellCfg : Word
  tbSize : Word
  tbLen : Word
  alloc : Word
  rnti : Word
  uciLen : Word
  betaAck : Word
  betaRi : Word
  betaCqi : Word
  deriving DecidableEq, Repr

/-- The stored fields of STATUS (10_state.md R35). BUSY and CELL_CONFIGURED are views of PENDING and CELL. -/
structure Status where
  cmdDropped : Bool
  err : ErrCode
  lastOp : BitVec 8
  lastProc : BitVec 4
  deriving DecidableEq, Repr

/-- WAVE_LEN, BITS_LEN, HARQ_LEN, GRID_LEN (10_state.md R45 to R48). -/
structure LenRegs where
  wave : Word
  bits : Word
  harq : Word
  grid : Word
  deriving DecidableEq, Repr

/-- CELL (10_state.md R50). -/
structure CellConfig where
  configured : Bool
  cellId : BitVec 9
  cp : CyclicPrefix
  nPorts : PortCount
  nRb : Bandwidth
  deriving DecidableEq, Repr

/-- The segmentation record seg = (C, C+, C−, K+, K−, F, L) (41_tb_coder.md R205). -/
structure Segmentation where
  c : Nat
  cPlus : Nat
  cMinus : Nat
  kPlus : Nat
  kMinus : Nat
  f : Nat
  l : Nat
  deriving DecidableEq, Repr

/-- One HARQ process slot (10_state.md R53). -/
structure HarqSlot where
  init : Bool
  rv : BitVec 2
  mcs : BitVec 5
  mod : Modulation
  b : Nat
  rbStart : BitVec 7
  nprbDecl : BitVec 7
  seg : Segmentation
  w : List (List Trit)
  mscInit : Nat
  nsymbInit : Nat
  sumK : Nat
  deriving DecidableEq, Repr

/-- The data memories (10_state.md R59) over the whole address space, in two planes of (offset, byte) cells: the values,
and the written marks, one mark bit per value bit (70_reset_and_hazards.md R444). An offset listed in neither plane was
never written. Canonical form: offsets strictly rising, no cell holding byte 0, value bits only where marked. -/
structure Memory where
  value : List Host.Cell
  mark : List Host.Cell
  deriving DecidableEq, Repr

/-- What a command reads from the host's side: the argument registers and the input memories. -/
structure CmdInputs where
  regs : ArgRegs
  mem : Memory
  deriving DecidableEq, Repr

/-- The five bit memories (20_memory.md R81). -/
inductive BitMem where
  | tb
  | cqi
  | ri
  | ack
  | bits
  deriving DecidableEq, Repr

/-- The widths of a host access (20_memory.md R86). -/
inductive Width where
  | w8
  | w16
  | w32
  deriving DecidableEq, Repr

/-- A host access (20_memory.md R85 to R87), at an offset from PTC_BASE, and the host's bit-string write `wbits`
(30_encoding.md R131). -/
inductive HostAccess where
  | read (width : Width) (offset : Word)
  | write (width : Width) (offset : Word) (data : Word)
  | writeBits (mem : BitMem) (bits : List Bool)
  deriving DecidableEq, Repr

/-- What happens next: an access of a host agent, the PTC's transition (20_memory.md R90), or the platform's hardware
reset (70_reset_and_hazards.md R440). -/
inductive Turn where
  | host (access : HostAccess)
  | ptc
  | hardwareReset
  deriving DecidableEq, Repr

/-- What a host read returned: the value, zero-extended, and which of its bits hold a written value (70_reset_and_hazards.md
R444: a bit of `written` that is 0 is the fault marker of that bit). -/
structure ReadData where
  width : Width
  value : Word
  written : Word
  deriving DecidableEq, Repr

/-- The state of the machine. -/
structure State where
  /-- The argument registers. -/
  regs : ArgRegs
  /-- The stored fields of STATUS. -/
  status : Status
  /-- The length registers. -/
  lens : LenRegs
  /-- CELL. -/
  cell : CellConfig
  /-- PROC[0..7]. -/
  procs : Vector HarqSlot 8
  /-- The eight data memories. -/
  mem : Memory
  /-- PENDING: `none` is EMPTY (10_state.md R60). -/
  pending : Option Word
  /-- The model's own: what the pending command will read, once a host write has raced with it (20_memory.md R93). -/
  raced : Option CmdInputs
  /-- The model's own: how many free values were drawn. -/
  draws : Nat
  /-- The model's own: the turns still to come; when none is left the PTC moves. -/
  turns : List Turn
  /-- The model's own: what the last host read returned. -/
  readData : Option ReadData
  deriving DecidableEq, Repr

/-- Why the model stops. Each stop is one the spec asks for, and each is safe: nothing is claimed of what follows. -/
inductive Fault where
  /-- Raised by PUSCH_TX: an input bit it needs was never written since reset (20_memory.md R99, 70_reset_and_hazards.md
  R444). Safe: the model chooses no value. -/
  | neverWrittenInput
  /-- Raised by a host read of a byte of which no bit was ever written (70_reset_and_hazards.md R444). Safe. -/
  | neverWrittenRead
  /-- Raised by a misaligned or wrongly sized host access: a fault of the host agent (20_memory.md R86). Safe. -/
  | hostAccess
  deriving DecidableEq, Repr

/-- Why an instruction has no meaning. -/
inductive Refusal where
  /-- Raised by exec for an instruction not modelled; safe. No arm raises it. -/
  | notModelled (mnemonic : String)
  deriving DecidableEq, Repr

/-- The argument registers at reset: every RW register is 0 (10_state.md R62). -/
def ArgRegs.reset : ArgRegs where
  cellCfg := 0
  tbSize := 0
  tbLen := 0
  alloc := 0
  rnti := 0
  uciLen := 0
  betaAck := 0
  betaRi := 0
  betaCqi := 0

/-- STATUS at reset: 0 (10_state.md R62). -/
def Status.reset : Status where
  cmdDropped := false
  err := .ok
  lastOp := 0
  lastProc := 0

/-- The length registers at reset: 0 (10_state.md R62). -/
def LenRegs.reset : LenRegs where
  wave := 0
  bits := 0
  harq := 0
  grid := 0

/-- CELL at reset: not configured (10_state.md R62). DESIGN CHOICE, log 4: the other fields, which the spec calls
unspecified and unobservable. -/
def CellConfig.reset : CellConfig where
  configured := false
  cellId := 0
  cp := .normal
  nPorts := .one
  nRb := .rb6

/-- A slot at reset: init = 0 (10_state.md R62). DESIGN CHOICE, log 5: the other fields, which R56 calls unspecified and
unobservable. -/
def HarqSlot.reset : HarqSlot where
  init := false
  rv := 0
  mcs := 0
  mod := .qpsk
  b := 0
  rbStart := 0
  nprbDecl := 0
  seg := { c := 0, cPlus := 0, cMinus := 0, kPlus := 0, kMinus := 0, f := 0, l := 0 }
  w := []
  mscInit := 0
  nsymbInit := 0
  sumK := 0

/-- The data memories after a hardware reset: nothing written (10_state.md R62, 70_reset_and_hazards.md R440). -/
def Memory.reset : Memory where
  value := []
  mark := []

/-- The machine right after a hardware reset (10_state.md R62, 70_reset_and_hazards.md R440). DESIGN CHOICE, log 6: the
model's own fields. -/
def State.reset : State where
  regs := .reset
  status := .reset
  lens := .reset
  cell := .reset
  procs := Vector.replicate 8 .reset
  mem := .reset
  pending := none
  raced := none
  draws := 0
  turns := []
  readData := none

end Sys2Proof.Machine
end

