-- ==== Sys2Proof/Machine/Ops.lean ====
section
/-! DEFINITION. The named operations over memory, slots and the result of a command: sparse byte planes, BitRead and
BitWrite packing (20_memory.md R81), the HARQ byte layout (R83), the process-slot access, and the ONE
operation by which a command ends, with OK or by raising an error (40_commands.md R149; 60_exceptions.md R405). The PTC
has no trap to take and none to return from (60_exceptions.md R411, R412). -/

namespace Sys2Proof.Machine

/-! ## Sparse byte planes -/

/-- The byte of a plane at an offset; an unlisted offset reads 0. -/
def cellAt : List Host.Cell → Nat → Byte
  | [], _ => 0
  | (k, v) :: rest, a => if k = a then v else cellAt rest a

/-- The cells of a run of bytes from `base` on, bytes 0 left out. -/
def cellsOf : Nat → List Byte → List Host.Cell
  | _, [] => []
  | base, b :: bs => if b = 0 then cellsOf (base + 1) bs else (base, b) :: cellsOf (base + 1) bs

/-- A plane with the run of bytes `bs` stored from `base` on, in canonical form again. -/
def putCells (m : List Host.Cell) (base : Nat) (bs : List Byte) : List Host.Cell :=
  let stop := base + bs.length
  m.filter (fun c => decide (c.1 < base)) ++ cellsOf base bs ++ m.filter (fun c => decide (stop ≤ c.1))

/-- A plane in canonical form: offsets strictly rising, no byte 0 listed. -/
abbrev planeWf (m : List Host.Cell) : Prop :=
  (m.map Prod.fst).Pairwise (· < ·) ∧ ∀ c ∈ m, c.2 ≠ 0

/-! ## The data memories -/

/-- The value of a byte; its unwritten bits read 0 here, and `markAt` says which they are. -/
def Memory.byteAt (m : Memory) (a : Nat) : Byte := cellAt m.value a

/-- The written marks of a byte (70_reset_and_hazards.md R444). -/
def Memory.markAt (m : Memory) (a : Nat) : Byte := cellAt m.mark a

/-- The memory's canonical form: both planes canonical, and a value bit only where its mark is set. -/
abbrev Memory.wf (m : Memory) : Prop :=
  planeWf m.value ∧ planeWf m.mark ∧ ∀ c ∈ m.value, c.2 &&& ~~~ m.markAt c.1 = 0

/-- A write of whole bytes from `base` on: it sets every mark of what it writes (70_reset_and_hazards.md R444). -/
def Memory.writeBytes (m : Memory) (base : Nat) (bs : List Byte) : Memory where
  value := putCells m.value base bs
  mark := putCells m.mark base (bs.map fun _ => 0xFF)

/-- The values after a write of masked bytes (value, mask) from `a` on. -/
def mergedValues (m : Memory) : Nat → List (Byte × Byte) → List Byte
  | _, [] => []
  | a, (v, k) :: rest => ((m.byteAt a &&& ~~~ k) ||| (v &&& k)) :: mergedValues m (a + 1) rest

/-- The marks after a write of masked bytes from `a` on. -/
def mergedMarks (m : Memory) : Nat → List (Byte × Byte) → List Byte
  | _, [] => []
  | a, (_, k) :: rest => (m.markAt a ||| k) :: mergedMarks m (a + 1) rest

/-- A write of the masked bits of a run of bytes from `base` on. -/
def Memory.writeMasked (m : Memory) (base : Nat) (vks : List (Byte × Byte)) : Memory where
  value := putCells m.value base (mergedValues m base vks)
  mark := putCells m.mark base (mergedMarks m base vks)

/-! ## The memory map (20_memory.md R80) -/

/-- Where a bit memory begins. -/
def BitMem.base : BitMem → Nat
  | .tb => 0x10000
  | .cqi => 0x20000
  | .ri => 0x20100
  | .ack => 0x20200
  | .bits => 0x40000

/-- The used size of a bit memory, in bytes. -/
def BitMem.size : BitMem → Nat
  | .tb => 9422
  | .cqi => 128
  | .ri => 2
  | .ack => 2
  | .bits => 10800

/-- Where HARQ_MEM begins. -/
def harqBase : Nat := 0x80000
/-- The size of HARQ_MEM in bytes. -/
def harqSize : Nat := 262144
/-- Where GRID_MEM begins. -/
def gridBase : Nat := 0x100000
/-- The used size of GRID_MEM in bytes. -/
def gridSize : Nat := 134400
/-- Where WAVE_MEM begins. -/
def waveBase : Nat := 0x200000
/-- The used size of WAVE_MEM in bytes. -/
def waveSize : Nat := 245760

/-! ## Bits (00_scope.md R17, 20_memory.md R81) -/

/-- BitRead: bit i is bit 7 − (i mod 8) of byte floor(i/8); `none` where it was never written. -/
def Memory.bitAt (m : Memory) (base i : Nat) : Option Bool :=
  let a := base + i / 8
  let j := 7 - i % 8
  if (m.markAt a).getLsbD j then some ((m.byteAt a).getLsbD j) else none

/-- Bits i .. i+n−1 of a bit memory; `none` if any of them was never written. -/
def Memory.bitsFrom (m : Memory) (base : Nat) : Nat → Nat → Option (List Bool)
  | _, 0 => some []
  | i, n + 1 =>
    match m.bitAt base i, m.bitsFrom base (i + 1) n with
    | some b, some bs => some (b :: bs)
    | _, _ => none

/-- Bits 0 .. n−1 of a bit memory (20_memory.md R99). -/
def Memory.readBits (m : Memory) (mem : BitMem) (n : Nat) : Option (List Bool) := m.bitsFrom mem.base 0 n

/-- The first eight bits of a vector as a byte, the first bit most significant; missing bits are 0. -/
def packByte (bits : List Bool) : Byte :=
  BitVec.ofNat 8 ((List.range 8).foldl (fun acc i => 2 * acc + (bits.getD i false).toNat) 0)

/-- The next `n` bytes of a bit vector. -/
def packBytes : Nat → List Bool → List Byte
  | 0, _ => []
  | n + 1, bits => packByte bits :: packBytes n (bits.drop 8)

/-- A bit vector packed into bytes, the unused bits of the last byte 0 (20_memory.md R81). -/
def packBits (bits : List Bool) : List Byte := packBytes ((bits.length + 7) / 8) bits

/-! ## Words and HARQ entries -/

/-- The bytes of a word, least significant first (20_memory.md R85). -/
def wordBytes (w : Word) : List Byte :=
  [w.extractLsb' 0 8, w.extractLsb' 8 8, w.extractLsb' 16 8, w.extractLsb' 24 8]

/-- The byte of one HARQ_MEM entry (20_memory.md R83). -/
def tritByte : Trit → Byte
  | some false => 0x00
  | some true => 0x01
  | none => 0xFF

/-! ## Process slots -/

/-- The slot a PROC field names, if there is one (30_encoding.md R114). -/
def procIndex (proc : BitVec 4) : Option (Fin 8) :=
  if h : proc.toNat < 8 then some ⟨proc.toNat, h⟩ else none

/-- The slot p (10_state.md R52). -/
def State.slot (s : State) (p : Fin 8) : HarqSlot := s.procs[p]

/-- The state with slot p replaced and nothing else changed (10_state.md R52). -/
def State.setSlot (s : State) (p : Fin 8) (slot : HarqSlot) : State :=
  { s with procs := s.procs.set p slot }

/-! ## What a command reads, and how it ends -/

/-- The argument registers and input memories a command reads: those of the state, unless a host write raced with the
pending command (20_memory.md R92, R93; log 7). -/
def State.inputs (s : State) : CmdInputs := s.raced.getD { regs := s.regs, mem := s.mem }

/-- The epilogue of every command (40_commands.md R149): the result code, the opcode and the PROC field are recorded,
PENDING becomes EMPTY, and BUSY with it. -/
def State.complete (s : State) (op : BitVec 8) (proc : BitVec 4) (code : ErrCode) : State :=
  { s with
    status := { s.status with err := code, lastOp := op, lastProc := proc }
    pending := none
    raced := none }

/-- `raise Err(code)` (00_scope.md R17, 60_exceptions.md R405): the command writes nothing, and its epilogue records the
code. -/
def State.raiseErr (s : State) (op : BitVec 8) (proc : BitVec 4) (code : ErrCode) :
    Host.Outcome State Fault Refusal :=
  .next (s.complete op proc code)

/-- A command that ends with OK. -/
def State.finish (s : State) (op : BitVec 8) (proc : BitVec 4) : Host.Outcome State Fault Refusal :=
  .next (s.complete op proc .ok)

end Sys2Proof.Machine
end

