-- ==== Sys2Proof/Machine/Operands.lean ====
section
/-! DEFINITION. The operand decodings of 30_encoding.md R111 and R120 to R125, and the argument registers' fields
(10_state.md R38 to R44). -/

namespace Sys2Proof.Machine

/-! ## Command-word operands -/

/-- MOD (30_encoding.md R111): 11 is reserved. -/
def modulationOf (mod : BitVec 2) : Option Modulation :=
  if mod = 0 then some .qpsk else if mod = 1 then some .qam16 else if mod = 2 then some .qam64 else none

/-- Q_m, the bits per symbol (00_scope.md R12). -/
def Modulation.order : Modulation → Nat
  | .qpsk => 2
  | .qam16 => 4
  | .qam64 => 6

/-! ## CELL_CFG (R120) -/

/-- cell_id. -/
def cellIdOf (cfg : Word) : BitVec 9 := cfg.extractLsb' 0 9
/-- cp. -/
def cpOf (cfg : Word) : CyclicPrefix := if cfg.getLsbD 9 then .extended else .normal
/-- n_ports: the code 11 is illegal. -/
def portsOf (cfg : Word) : Option PortCount :=
  let code := cfg.extractLsb' 10 2
  if code = 0 then some .one else if code = 1 then some .two else if code = 2 then some .four else none
/-- n_rb: a value of NRB_SET (00_scope.md R10), or illegal. -/
def bandwidthOf (cfg : Word) : Option Bandwidth :=
  let n := (cfg.extractLsb' 16 7).toNat
  if n = 6 then some .rb6 else if n = 15 then some .rb15 else if n = 25 then some .rb25
  else if n = 50 then some .rb50 else if n = 75 then some .rb75 else if n = 100 then some .rb100 else none

/-- N_RB^UL as a number. -/
def Bandwidth.nRb : Bandwidth → Nat
  | .rb6 => 6
  | .rb15 => 15
  | .rb25 => 25
  | .rb50 => 50
  | .rb75 => 75
  | .rb100 => 100

/-- The configuration CELL_CFG describes, if every field is legal (R120, R152). -/
def cellOf (cfg : Word) : Option CellConfig :=
  if (cellIdOf cfg).toNat ≤ 503 then
    match portsOf cfg, bandwidthOf cfg with
    | some ports, some nRb =>
      some { configured := true, cellId := cellIdOf cfg, cp := cpOf cfg, nPorts := ports, nRb := nRb }
    | _, _ => none
  else none

/-- N_symb^UL (00_scope.md R11, 10_state.md R51). -/
def CyclicPrefix.nSymb : CyclicPrefix → Nat
  | .normal => 7
  | .extended => 6

/-- N_symb^PUSCH = 2·(N_symb^UL − 1) − N_SRS (44_multiplexer.md R320; 40_commands.md R162). -/
def CyclicPrefix.nSymbPusch (cp : CyclicPrefix) : Nat := 2 * (cp.nSymb - 1) - Config.nSrs

/-- N_sc^UL = 12·n_rb (10_state.md R51). -/
def Bandwidth.nSc (b : Bandwidth) : Nat := 12 * b.nRb

/-- NFFT(n_rb) (00_scope.md R10, 47_waveform.md R380). -/
def Bandwidth.nfft : Bandwidth → Nat
  | .rb6 => 128
  | .rb15 => 256
  | .rb25 => 512
  | .rb50 => 1024
  | .rb75 => 1536
  | .rb100 => 2048

/-! ## ALLOC (R121) -/

/-- RB_START. -/
def rbStartOf (alloc : Word) : BitVec 7 := alloc.extractLsb' 0 7
/-- N_PRB. -/
def nPrbOf (alloc : Word) : BitVec 7 := alloc.extractLsb' 8 7

/-- `n` with factors `p` divided out, at most `fuel` of them. -/
def stripFactor (p : Nat) : Nat → Nat → Nat
  | 0, n => n
  | fuel + 1, n => if n % p = 0 then stripFactor p fuel (n / p) else n

/-- n = 2^a2·3^a3·5^a5, for the 7-bit n ≥ 1 of ALLOC (30_encoding.md R121, 46_grid_mapper.md R360). -/
def isSmooth (n : Nat) : Bool := stripFactor 5 7 (stripFactor 3 7 (stripFactor 2 7 n)) = 1

/-- legal_alloc: the three conditions of R121. -/
def legalAlloc (alloc : Word) (cell : CellConfig) : Bool :=
  let n := (nPrbOf alloc).toNat
  1 ≤ n && (rbStartOf alloc).toNat + n ≤ cell.nRb.nRb && isSmooth n

/-! ## TB_SIZE, TB_LEN, UCI_LEN, BETA, RNTI (R122 to R125) -/

/-- B. -/
def tbSizeOf (tbSize : Word) : Nat := (tbSize.extractLsb' 0 17).toNat
/-- The MCS tag. -/
def mcsOf (tbSize : Word) : BitVec 5 := tbSize.extractLsb' 24 5
/-- A. -/
def tbLenOf (tbLen : Word) : Nat := (tbLen.extractLsb' 0 17).toNat
/-- O_CQI. -/
def oCqiOf (uciLen : Word) : Nat := (uciLen.extractLsb' 0 10).toNat
/-- O_RI. -/
def oRiOf (uciLen : Word) : Nat := (uciLen.extractLsb' 16 4).toNat
/-- O_ACK. -/
def oAckOf (uciLen : Word) : Nat := (uciLen.extractLsb' 24 4).toNat

/-- 25 ≤ B ≤ MAX_TB_SIZE and A = B − 24 (R122). -/
def legalTbSize (tbSize tbLen : Word) : Bool :=
  25 ≤ tbSizeOf tbSize && tbSizeOf tbSize ≤ Config.maxTbSize && tbLenOf tbLen == tbSizeOf tbSize - 24

/-- The ranges of the three field lengths (R123). -/
def legalUciLen (uciLen : Word) : Bool :=
  oCqiOf uciLen ≤ Config.maxCqiBits && oRiOf uciLen ≤ Config.maxRiBits && oAckOf uciLen ≤ Config.maxAckBits

/-- beta_x8 = 8·β: 16 where the override is absent (R124, 10_state.md R44). -/
def betaX8 (reg : Word) : Nat :=
  let bx8 := (reg.extractLsb' 0 16).toNat
  if bx8 = 0 then 16 else bx8

/-- n_RNTI (R125). -/
def rntiOf (rnti : Word) : Nat := (rnti.extractLsb' 0 16).toNat

/-! ## The argument registers by name -/

/-- The RW registers of 10_state.md R32. -/
inductive ArgReg where
  | cellCfg
  | tbSize
  | tbLen
  | alloc
  | rnti
  | uciLen
  | betaAck
  | betaRi
  | betaCqi
  deriving DecidableEq, Repr

/-- The fields of a register, (lowest bit, width); every other bit is reserved (10_state.md R38 to R44). -/
def ArgReg.fields : ArgReg → List (Nat × Nat)
  | .cellCfg => [(0, 9), (9, 1), (10, 2), (16, 7)]
  | .tbSize => [(0, 17), (24, 5)]
  | .tbLen => [(0, 17)]
  | .alloc => [(0, 7), (8, 7)]
  | .rnti => [(0, 16)]
  | .uciLen => [(0, 10), (16, 4), (24, 4)]
  | .betaAck => [(0, 16)]
  | .betaRi => [(0, 16)]
  | .betaCqi => [(0, 16)]

/-- The bits of one field. -/
def fieldMask (field : Nat × Nat) : Word := BitVec.ofNat 32 ((2 ^ field.2 - 1) * 2 ^ field.1)

/-- The bits of some fields. -/
def fieldsMask : List (Nat × Nat) → Word
  | [] => 0
  | field :: rest => fieldMask field ||| fieldsMask rest

/-- The bits of a register that are no reserved bits. -/
def ArgReg.mask (r : ArgReg) : Word := fieldsMask r.fields

/-- A register's value. -/
def ArgRegs.get (regs : ArgRegs) : ArgReg → Word
  | .cellCfg => regs.cellCfg
  | .tbSize => regs.tbSize
  | .tbLen => regs.tbLen
  | .alloc => regs.alloc
  | .rnti => regs.rnti
  | .uciLen => regs.uciLen
  | .betaAck => regs.betaAck
  | .betaRi => regs.betaRi
  | .betaCqi => regs.betaCqi

/-- The registers with one of them replaced. -/
def ArgRegs.put (regs : ArgRegs) (r : ArgReg) (w : Word) : ArgRegs :=
  match r with
  | .cellCfg => { regs with cellCfg := w }
  | .tbSize => { regs with tbSize := w }
  | .tbLen => { regs with tbLen := w }
  | .alloc => { regs with alloc := w }
  | .rnti => { regs with rnti := w }
  | .uciLen => { regs with uciLen := w }
  | .betaAck => { regs with betaAck := w }
  | .betaRi => { regs with betaRi := w }
  | .betaCqi => { regs with betaCqi := w }

/-- A host write of a register: reserved bits stay 0 (10_state.md R32). -/
def ArgRegs.write (regs : ArgRegs) (r : ArgReg) (w : Word) : ArgRegs := regs.put r (w &&& r.mask)

end Sys2Proof.Machine
end

