-- ==== Sys2Proof/Machine/Flags.lean ====
section
/-! DEFINITION. The STATUS register (10_state.md R35), the only flags of the PTC (10_state.md R61), and the codes of
60_exceptions.md R401. -/

namespace Sys2Proof.Machine

/-- The 4-bit code of STATUS.ERR (60_exceptions.md R401). -/
def ErrCode.code : ErrCode → BitVec 4
  | .ok => 0
  | .invalidConfiguration => 1
  | .processNotInitialized => 2
  | .allocationTooSmall => 3
  | .allocationMismatch => 4
  | .controlOverflow => 5
  | .invalidBitLength => 6

/-- STATUS.BUSY: 1 exactly when PENDING is not EMPTY (10_state.md R60). -/
def State.busy (s : State) : Bool := s.pending.isSome

/-- The STATUS word as the host reads it (10_state.md R35): reserved [31:20], LAST_PROC, LAST_OP, ERR, reserved [3],
CMD_DROPPED, CELL_CONFIGURED, BUSY. -/
def State.statusWord (s : State) : Word :=
  (0 : BitVec 12) ++ s.status.lastProc ++ s.status.lastOp ++ s.status.err.code ++ (0 : BitVec 1) ++
    BitVec.ofBool s.status.cmdDropped ++ BitVec.ofBool s.cell.configured ++ BitVec.ofBool s.busy

end Sys2Proof.Machine
end

