-- ==== Sys2Proof/Machine/Management.lean ====
section
/-! DEFINITION. The meanings of the management commands NOP, CELL_CONFIG, PROC_CONFIG and PROC_FLUSH
(40_commands.md R150 to R156). Every one ends with the shared epilogue of R149. -/

namespace Sys2Proof.Machine

/-- NOP (40_commands.md R150): completes with OK and changes nothing else. -/
def execNop (s : State) : Host.Outcome State Fault Refusal := s.finish opcodeNop 0

/-- CELL_CONFIG (40_commands.md R152): set once per reset, from legal fields only; CELL_CONFIGURED mirrors CELL. -/
def execCellConfig (s : State) : Host.Outcome State Fault Refusal :=
  if s.cell.configured then s.raiseErr opcodeCellConfig 0 .invalidConfiguration
  else
    match cellOf s.inputs.regs.cellCfg with
    | none => s.raiseErr opcodeCellConfig 0 .invalidConfiguration
    | some cell => { s with cell := cell }.finish opcodeCellConfig 0

/-- PROC_CONFIG (40_commands.md R154): re-declares the allocation width of slot p, and nothing else of it. -/
def execProcConfig (proc : BitVec 4) (s : State) : Host.Outcome State Fault Refusal :=
  match procIndex proc with
  | none => s.raiseErr opcodeProcConfig proc .invalidConfiguration
  | some p =>
    if s.cell.configured && legalAlloc s.inputs.regs.alloc s.cell then
      (s.setSlot p { s.slot p with nprbDecl := nPrbOf s.inputs.regs.alloc }).finish opcodeProcConfig proc
    else s.raiseErr opcodeProcConfig proc .invalidConfiguration

/-- PROC_FLUSH (40_commands.md R156): init of slot p becomes 0. The slot's other fields, which become unspecified and
unobservable (10_state.md R56), keep their values (log 5). -/
def execProcFlush (proc : BitVec 4) (s : State) : Host.Outcome State Fault Refusal :=
  match procIndex proc with
  | none => s.raiseErr opcodeProcFlush proc .invalidConfiguration
  | some p => (s.setSlot p { s.slot p with init := false }).finish opcodeProcFlush proc

end Sys2Proof.Machine
end

