-- ==== Sys2Proof/Machine/TbCoder.lean ====
section
/-! DEFINITION. Stage 1, TransportBlockCoder: CRC attachment, code-block segmentation and turbo encoding
(41_tb_coder.md R200 to R218). Pure functions; they read and write no state. -/

namespace Sys2Proof.Machine

/-! ## CRC (R201 to R203) -/

/-- One shift of the CRC register (R201): shift the bit in, and XOR with `g` when a bit shifts out of position `l`. -/
def crcStep (g l reg : Nat) (bit : Bool) : Nat :=
  let shifted := 2 * reg + bit.toNat
  if shifted.testBit l then shifted ^^^ g else shifted

/-- The register after the message bits followed by `l` zero bits (R201). -/
def crcRegister (g l : Nat) (bits : List Bool) : Nat :=
  (bits ++ List.replicate l false).foldl (crcStep g l) 0

/-- The parity bits p[0..l−1], most significant end of the register first (R201). -/
def crcParity (g l : Nat) (bits : List Bool) : List Bool :=
  let reg := crcRegister g l bits
  (List.range l).map fun i => reg.testBit (l - 1 - i)

/-- CrcAttach24A (R202). -/
def crcAttach24A (a : List Bool) : List Bool := a ++ crcParity gCrc24A 24 a

/-! ## Segmentation (R205 to R208) -/

/-- ceil(a / b). -/
def ceilDiv (a b : Nat) : Nat := (a + b - 1) / b

/-- Z, the largest turbo code-block size (00_scope.md R11). -/
def maxBlock : Nat := 6144

/-- min of the K in the table with c·K ≥ b' (R205). -/
def kPlusFor (c b' : Nat) : Nat := (kTable.find? (fun k => decide (b' ≤ c * k))).getD 0

/-- max of the K in the table below K+ (R205). -/
def kMinusFor (kPlus : Nat) : Nat := ((kTable.filter (fun k => decide (k < kPlus))).getLast?).getD 0

/-- The segmentation parameters of a transport block of B bits (R205). -/
def segmentation (b : Nat) : Segmentation :=
  let l := if b ≤ maxBlock then 0 else 24
  let c := if b ≤ maxBlock then 1 else ceilDiv b (maxBlock - l)
  let b' := b + c * l
  let kPlus := kPlusFor c b'
  if c = 1 then
    { c := 1, cPlus := 1, cMinus := 0, kPlus := kPlus, kMinus := 0, f := kPlus - b', l := l }
  else
    let kMinus := kMinusFor kPlus
    let cMinus := (c * kPlus - b') / (kPlus - kMinus)
    let cPlus := c - cMinus
    { c := c, cPlus := cPlus, cMinus := cMinus, kPlus := kPlus, kMinus := kMinus,
      f := cPlus * kPlus + cMinus * kMinus - b', l := l }

/-- K_r (R205): the blocks of size K− come first. -/
def Segmentation.blockSize (seg : Segmentation) (r : Nat) : Nat :=
  if r < seg.cMinus then seg.kMinus else seg.kPlus

/-- F_r: the filler bits of block r, all in block 0 (R207, 40_commands.md R167). -/
def Segmentation.filler (seg : Segmentation) (r : Nat) : Nat := if r = 0 then seg.f else 0

/-- K_0 .. K_{C−1}. -/
def Segmentation.blockSizes (seg : Segmentation) : List Nat := (List.range seg.c).map seg.blockSize

/-- Σ_r K_r. -/
def Segmentation.sumK (seg : Segmentation) : Nat := seg.blockSizes.sum

/-- A NULL taken as 0 (R207, R214). -/
def bitOfTrit (t : Trit) : Bool := t.getD false

/-- One code block from its data bits: `filler` NULLs, the data, and the block's CRC24B when there are several blocks
(R207). -/
def codeBlock (seg : Segmentation) (r : Nat) (data : List Bool) : List Trit :=
  let body : List Trit := List.replicate (seg.filler r) none ++ data.map some
  if seg.c > 1 then body ++ (crcParity gCrc24B 24 (body.map bitOfTrit)).map some else body

/-- The data bits of block r: K_r − L − F_r of them (R207). -/
def Segmentation.dataBits (seg : Segmentation) (r : Nat) : Nat := seg.blockSize r - seg.l - seg.filler r

/-- The code blocks from block r on, `n` of them, filled from `bits` in order (R207). -/
def codeBlocksFrom (seg : Segmentation) : Nat → Nat → List Bool → List (List Trit)
  | 0, _, _ => []
  | n + 1, r, bits =>
    codeBlock seg r (bits.take (seg.dataBits r)) :: codeBlocksFrom seg n (r + 1) (bits.drop (seg.dataBits r))

/-- Block construction (R207). -/
def codeBlocks (seg : Segmentation) (b : List Bool) : List (List Trit) := codeBlocksFrom seg seg.c 0 b

/-! ## Turbo encoding (R210 to R215) -/

/-- The three last feedback values, s1 the most recent (R211). -/
structure RscState where
  s1 : Bool
  s2 : Bool
  s3 : Bool
  deriving DecidableEq, Repr

/-- The encoder's initial state (R211). -/
def RscState.zero : RscState := ⟨false, false, false⟩

/-- fb = u xor s2 xor s3 (R211). -/
def RscState.feedback (s : RscState) (u : Bool) : Bool := u ^^ s.s2 ^^ s.s3

/-- par = fb xor s1 xor s3 (R211). -/
def RscState.parity (s : RscState) (u : Bool) : Bool := s.feedback u ^^ s.s1 ^^ s.s3

/-- The state after input u (R211). -/
def RscState.step (s : RscState) (u : Bool) : RscState := ⟨s.feedback u, s.s1, s.s2⟩

/-- The parities of an input sequence, and the state after it (R211). -/
def rscRun : RscState → List Bool → List Bool × RscState
  | s, [] => ([], s)
  | s, u :: us => let rest := rscRun (s.step u) us; (s.parity u :: rest.1, rest.2)

/-- The tail of an encoder: in each of `n` steps the input is the feedback value s2 xor s3, so that fb = 0; each step
gives that input and its parity (R213). -/
def rscTail : Nat → RscState → List (Bool × Bool)
  | 0, _ => []
  | n + 1, s => let u := s.s2 ^^ s.s3; (u, s.parity u) :: rscTail n (s.step u)

/-- Π(i) = (f1·i + f2·i²) mod K (R212). -/
def qppIndex (k i : Nat) : Nat := ((qppFor k).1 * i + (qppFor k).2 * i * i) % k

/-- c'_i = c_{Π(i)} (R212). -/
def qppInterleave (c : List Bool) : List Bool :=
  let k := c.length
  let f := qppFor k
  (List.range k).map fun i => c.getD ((f.1 * i + f.2 * i * i) % k) false

/-- The three output streams d0, d1, d2 of one block (R210). -/
structure TurboStreams where
  d0 : List Trit
  d1 : List Trit
  d2 : List Trit
  deriving DecidableEq, Repr

/-- Element i of a tail: (input, parity). -/
def tailAt (t : List (Bool × Bool)) (i : Nat) : Bool × Bool := t.getD i (false, false)

/-- TurboEncode (R210 to R214): NULL inputs are encoded as 0 and put NULL again into d0 and d1. -/
def turboEncode (c : List Trit) : TurboStreams :=
  let x := c.map bitOfTrit
  let run := rscRun .zero x
  let run' := rscRun .zero (qppInterleave x)
  let t := rscTail 3 run.2
  let t' := rscTail 3 run'.2
  let hide (t : Trit) (b : Bool) : Trit := t.map fun _ => b
  { d0 := List.zipWith hide c x ++
      [some (tailAt t 0).1, some (tailAt t 1).2, some (tailAt t' 0).1, some (tailAt t' 1).2]
    d1 := List.zipWith hide c run.1 ++
      [some (tailAt t 0).2, some (tailAt t 2).1, some (tailAt t' 0).2, some (tailAt t' 2).1]
    d2 := run'.1.map some ++
      [some (tailAt t 1).1, some (tailAt t 2).2, some (tailAt t' 1).1, some (tailAt t' 2).2] }

/-- The whole stage (R200): the coded triples of a payload, in block order (R217). -/
def tbEncode (seg : Segmentation) (a : List Bool) : List TurboStreams :=
  (codeBlocks seg (crcAttach24A a)).map turboEncode

end Sys2Proof.Machine
end

