-- ==== Sys2Proof/Machine/RateMatcher.lean ====
section
/-! DEFINITION. Stage 2, HarqRateMatcher: sub-block interleaver, circular buffer, output sizes and bit selection
(42_rate_matcher.md R240 to R259). -/

namespace Sys2Proof.Machine

/-! ## Sub-block interleaver and circular buffer (R241 to R245) -/

/-- R_subblock = ceil(D / 32) (R241). -/
def subblockRows (d : Nat) : Nat := ceilDiv d 32

/-- K_Π of a code block of K bits: D = K + 4 (R241). -/
def kPi (k : Nat) : Nat := 32 * subblockRows (k + 4)

/-- The padded input y: N_D NULLs in front (R241). -/
def padFront (d : List Trit) : List Trit :=
  List.replicate (32 * subblockRows d.length - d.length) none ++ d

/-- The position read at k: P[k div R] + 32·(k mod R) (R243; 43_uci_encoder.md R281). -/
def columnIndex (pattern : List Nat) (rows k : Nat) : Nat := pattern.getD (k / rows) 0 + 32 * (k % rows)

/-- The interleaved stream, read `shift` positions on (R243: 0 for v0 and v1, 1 for v2). -/
def subblockInterleave (pattern : List Nat) (shift : Nat) (d : List Trit) : List Trit :=
  let rows := subblockRows d.length
  let y := padFront d
  (List.range (32 * rows)).map fun k => y.getD ((columnIndex pattern rows k + shift) % (32 * rows)) none

/-- Two streams element by element in turn (R244). -/
def interlace : List Trit → List Trit → List Trit
  | a :: as, b :: bs => a :: b :: interlace as bs
  | _, _ => []

/-- CircularBuffer (R245): v0, then v1 and v2 interlaced (R244). -/
def circularBuffer (d : TurboStreams) : List Trit :=
  subblockInterleave pTurbo 0 d.d0 ++
    interlace (subblockInterleave pTurbo 0 d.d1) (subblockInterleave pTurbo 1 d.d2)

/-! ## Output sizes and read-out (R249 to R252) -/

/-- BlockLengths (R249). -/
def blockLengths (g qm c : Nat) : List Nat :=
  let g' := g / qm
  let gamma := g' % c
  (List.range c).map fun r => if r + gamma + 1 ≤ c then qm * (g' / c) else qm * ceilDiv g' c

/-- k0(rv) for a buffer of N_cb = 96·R entries (R250). -/
def startOffset (rows rv : Nat) : Nat := rows * (2 * ceilDiv (96 * rows) (8 * rows) * rv + 2)

/-- The first `n` elements of a list repeated without end, from `cur` on. -/
def cycleTake {α : Type} (whole : List α) : List α → Nat → List α
  | _, 0 => []
  | a :: rest, n + 1 => a :: cycleTake whole rest n
  | [], n + 1 =>
    match whole with
    | [] => []
    | a :: rest => a :: cycleTake whole rest n

/-- Select (R251): a circular read from k0 that skips NULL and gives `e` bits. Reading on past the NULLs is reading the
non-NULL bits in circular order. -/
def selectBits (w : List Trit) (e k0 : Nat) : List Bool :=
  let start := k0 % w.length
  let bits := (w.drop start ++ w.take start).filterMap id
  cycleTake bits bits e

/-- R_subblock of a stored buffer of 96·R entries. -/
def bufferRows (w : List Trit) : Nat := w.length / 96

/-- The rate-matched output of all blocks, in block order (R252, R253). -/
def rateMatch : List (List Trit) → List Nat → Nat → List Bool
  | w :: ws, e :: es, rv => selectBits w e (startOffset (bufferRows w) rv) ++ rateMatch ws es rv
  | _, _, _ => []

end Sys2Proof.Machine
end

