-- ==== Sys2Proof/Machine/UciEncoder.lean ====
section
/-! DEFINITION. Stage 3, UciEncoder: resource budgets and channel coding of CQI, RI and ACK
(43_uci_encoder.md R270 to R291). -/

namespace Sys2Proof.Machine

/-! ## Budgets (R271 to R274) -/

/-- QprimeAckRi (R272). -/
def qPrimeAckRi (o mscInit nsymbInit betaX8 sumK msc : Nat) : Nat :=
  if o = 0 then 0 else min (ceilDiv (o * mscInit * nsymbInit * betaX8) (8 * sumK)) (4 * msc)

/-- The CRC length of a CQI field (R273, R284). -/
def cqiCrcLength (o : Nat) : Nat := if o ≤ 11 then 0 else 8

/-- QprimeCqi (R273). -/
def qPrimeCqi (o mscInit nsymbInit betaX8 sumK msc nsymb qRi : Nat) : Nat :=
  if o = 0 then 0
  else min (ceilDiv ((o + cqiCrcLength o) * mscInit * nsymbInit * betaX8) (8 * sumK)) (msc * nsymb - qRi)

/-! ## The block code (R282, R283) -/

/-- The sum modulo 2 of the products o[n]·M[i][n]. -/
def rmBit : List Bool → List Nat → Bool
  | o :: os, m :: ms => (o && m == 1) ^^ rmBit os ms
  | _, _ => false

/-- RM32 (R282). -/
def rm32 (o : List Bool) : List Bool := rm32Table.map (rmBit o)

/-! ## The tail-biting code (R285) -/

/-- c[k − j], indices modulo K. -/
def tapAt (c : List Bool) (k j : Nat) : Bool := c.getD ((k + c.length - j) % c.length) false

/-- One output stream: the sum modulo 2 of c[k − j] over the taps j. -/
def tbccStream (taps : List Nat) (c : List Bool) : List Bool :=
  (List.range c.length).map fun k => taps.foldl (fun acc j => acc ^^ tapAt c k j) false

/-- The taps of G0 = 133, G1 = 171, G2 = 165 octal (R285). -/
def tbccTaps : List (List Nat) := [[0, 2, 3, 5, 6], [0, 1, 2, 3, 6], [0, 1, 2, 4, 6]]

/-- TBCC (R285): d0, d1, d2. -/
def tbcc (c : List Bool) : List (List Bool) := tbccTaps.map fun taps => tbccStream taps c

/-- ConvRateMatch (R281): the three interleaved streams concatenated, read circularly from 0, NULL skipped. -/
def convRateMatch (d : List (List Bool)) (q : Nat) : List Bool :=
  selectBits ((d.map fun stream => subblockInterleave pConv 0 (stream.map some)).flatten) q 0

/-- EncodeCqi (R280). -/
def encodeCqi (o : List Bool) (q : Nat) : List Bool :=
  if o.length = 0 then []
  else if o.length ≤ 11 then cycleTake (rm32 o) (rm32 o) q
  else convRateMatch (tbcc (o ++ crcParity gCrc8 8 o)) q

/-! ## ACK and RI (R286, R287) -/

/-- An element of the interleaver's output: a bit, or one of the placeholders x and y (R286). -/
inductive CtlBit where
  | bit (b : Bool)
  /-- Forces the scrambled bit to 1. -/
  | x
  /-- Repeats the previous scrambled bit. -/
  | y
  deriving DecidableEq, Repr

/-- The basic coded block of an ACK or RI field (R287). -/
def ackRiBlock (o : List Bool) (qm : Nat) : List CtlBit :=
  let xs := List.replicate (qm - 2) CtlBit.x
  match o with
  | [] => []
  | [o0] => [.bit o0, .y] ++ xs
  | [o0, o1] =>
    let o2 := o0 ^^ o1
    [.bit o0, .bit o1] ++ xs ++ [.bit o2, .bit o0] ++ xs ++ [.bit o1, .bit o2] ++ xs
  | _ => (rm32 o).map .bit

/-- EncodeAckRi (R287): the block repeated circularly to q elements. -/
def encodeAckRi (o : List Bool) (qm q : Nat) : List CtlBit := cycleTake (ackRiBlock o qm) (ackRiBlock o qm) q

end Sys2Proof.Machine
end

