-- ==== Sys2Proof/Machine/Multiplexer.lean ====
section
/-! DEFINITION. Stage 4, DataControlMultiplexer: the vector sequence, the channel interleaver and the scrambler
(44_multiplexer.md R310 to R329). -/

namespace Sys2Proof.Machine

/-! ## Vectors (R288, R311) -/

/-- The first `count` vectors of `n` consecutive elements (43_uci_encoder.md R288). -/
def vectors {α : Type} (n : Nat) : Nat → List α → List (List α)
  | 0, _ => []
  | count + 1, l => l.take n :: vectors n count (l.drop n)

/-- One cell of the interleaver matrix: a Q_m-element vector. -/
abbrev CtlVector := List CtlBit

/-- The joined sequence g: CQI vectors first, then data vectors (R311). -/
def dataVectors (qm qpCqi : Nat) (qCqi f : List Bool) : List CtlVector :=
  vectors qm qpCqi (qCqi.map .bit) ++ vectors qm (f.length / qm) (f.map .bit)

/-! ## The interleaver matrix (R312 to R317) -/

/-- The RI columns c_RI[0..3] (R313). -/
def riColumns : CyclicPrefix → List Nat
  | .normal => [1, 4, 7, 10]
  | .extended => [0, 3, 5, 8]

/-- The ACK columns c_ACK[0..3] (R313). -/
def ackColumns : CyclicPrefix → List Nat
  | .normal => [2, 3, 8, 9]
  | .extended => [1, 2, 6, 7]

/-- The linear index of the cell that takes vector i of a field: row R'_mux − 1 − floor(i/4), column c[j] with
j = 3·i mod 4 (R312, R314, R316). -/
def controlCell (columns : List Nat) (cmux rmux i : Nat) : Nat :=
  (rmux - 1 - i / 4) * cmux + columns.getD (3 * i % 4) 0

/-- The placement loop of R314: vector i, i+1, … of RI into the empty matrix. -/
def placeRi (columns : List Nat) (cmux rmux : Nat) :
    Nat → List CtlVector → List (Option CtlVector) → List (Option CtlVector)
  | _, [], y => y
  | i, v :: vs, y => placeRi columns cmux rmux (i + 1) vs (y.set (controlCell columns cmux rmux i) (some v))

/-- The loop of R315: the vectors of g fill the cells RI left empty, in linear order. -/
def fillData : List (Option CtlVector) → List CtlVector → List CtlVector
  | [], _ => []
  | some v :: cells, g => v :: fillData cells g
  | none :: cells, v :: g => v :: fillData cells g
  | none :: cells, [] => [] :: fillData cells []

/-- The placement loop of R316: ACK overwrites what stands in its cells. -/
def placeAck (columns : List Nat) (cmux rmux : Nat) : Nat → List CtlVector → List CtlVector → List CtlVector
  | _, [], y => y
  | i, v :: vs, y => placeAck columns cmux rmux (i + 1) vs (y.set (controlCell columns cmux rmux i) v)

/-- The full matrix, by linear index (R312 to R316). -/
def interleaverMatrix (cp : CyclicPrefix) (msc : Nat) (g ri ack : List CtlVector) : List CtlVector :=
  let cmux := cp.nSymbPusch
  let empty := List.replicate (msc * cmux) (none : Option CtlVector)
  placeAck (ackColumns cp) cmux msc 0 ack (fillData (placeRi (riColumns cp) cmux msc 0 ri empty) g)

/-- The read-out, column by column (R317). -/
def readColumns (cmux rmux : Nat) (y : List CtlVector) : List CtlBit :=
  let rows := vectors cmux rmux y
  ((List.range cmux).map fun c => (rows.map fun row => row.getD c []).flatten).flatten

/-- ChannelInterleave (R310 to R318). -/
def channelInterleave (f qCqi : List Bool) (qRi qAck : List CtlBit) (qm qpCqi qpRi qpAck msc : Nat)
    (cp : CyclicPrefix) : List CtlBit :=
  readColumns cp.nSymbPusch msc
    (interleaverMatrix cp msc (dataVectors qm qpCqi qCqi f) (vectors qm qpRi qRi) (vectors qm qpAck qAck))

/-! ## Scrambling (R325 to R329) -/

/-- c_init (R327). -/
def scramblerInit (rnti sf cellId : Nat) : Nat := rnti * 16384 + sf * 512 + cellId

/-- One step of x1 as a 31-bit register whose bit 0 is the current element (R328). -/
def goldStep1 (x : Nat) : Nat := x / 2 + (x.testBit 3 ^^ x.testBit 0).toNat * 2 ^ 30

/-- One step of x2 (R328). -/
def goldStep2 (x : Nat) : Nat :=
  x / 2 + (x.testBit 3 ^^ x.testBit 2 ^^ x.testBit 1 ^^ x.testBit 0).toNat * 2 ^ 30

/-- `n` steps of a register. -/
def goldAdvance (step : Nat → Nat) : Nat → Nat → Nat
  | 0, x => x
  | n + 1, x => goldAdvance step n (step x)

/-- The next `n` elements of c from the two registers on (R328). -/
def goldOutput : Nat → Nat → Nat → List Bool
  | 0, _, _ => []
  | n + 1, x1, x2 => (x1.testBit 0 ^^ x2.testBit 0) :: goldOutput n (goldStep1 x1) (goldStep2 x2)

/-- c[0..n−1] (R328): N_C = 1600; x1 begins 1, 0, 0, …; x2 begins with the bits of c_init. -/
def goldSequence (cInit n : Nat) : List Bool :=
  goldOutput n (goldAdvance goldStep1 1600 1) (goldAdvance goldStep2 1600 (cInit % 2 ^ 31))

/-- The scrambled elements after a scrambled bit `prev` (R325). -/
def scrambleFrom : Bool → List CtlBit → List Bool → List Bool
  | prev, h :: hs, c :: cs =>
    let out := match h with
      | .x => true
      | .y => prev
      | .bit b => b ^^ c
    out :: scrambleFrom out hs cs
  | _, _, _ => []

/-- Scramble (R325, R326, R329): re-initialised by every command. -/
def scramble (h : List CtlBit) (rnti sf cellId : Nat) : List Bool :=
  scrambleFrom false h (goldSequence (scramblerInit rnti sf cellId) h.length)

end Sys2Proof.Machine
end

