-- ==== Sys2Proof/Machine/Modulation.lean ====
section
/-! DEFINITION. Stage 5, ModulationMapper (45_modulation.md R340 to R347): the constellation levels as exact integers,
each point divided by the square root of the scheme's norm. -/

namespace Sys2Proof.Machine

/-- 1 − 2b. -/
def signOf (b : Bool) : Int := if b then -1 else 1

/-- The square of the divisor of a scheme's levels: √2, √10, √42 (R341 to R343). -/
def Modulation.norm : Modulation → Nat
  | .qpsk => 2
  | .qam16 => 10
  | .qam64 => 42

/-- The 16-QAM level of an axis: (1 − 2b0)(1 + 2b2) (R342). -/
def level16 (b0 b2 : Bool) : Int := signOf b0 * (1 + 2 * (b2.toNat : Int))

/-- The 64-QAM level of an axis: (1 − 2b0)(4 − (1 − 2b2)(2 − (1 − 2b4))) (R343). -/
def level64 (b0 b2 b4 : Bool) : Int := signOf b0 * (4 - signOf b2 * (2 - signOf b4))

/-- Map_Qm (R341 to R343): the levels of the bits b[0..Qm−1], b[0] first. -/
def mapPoint (m : Modulation) (b : List Bool) : Point :=
  let bit i := b.getD i false
  match m with
  | .qpsk => (signOf (bit 0), signOf (bit 1))
  | .qam16 => (level16 (bit 0) (bit 2), level16 (bit 1) (bit 3))
  | .qam64 => (level64 (bit 0) (bit 2) (bit 4), level64 (bit 1) (bit 3) (bit 5))

/-- The first `n` symbols of a bit sequence. -/
def mapSymbols (m : Modulation) : Nat → List Bool → List Point
  | 0, _ => []
  | n + 1, bits => mapPoint m (bits.take m.order) :: mapSymbols m n (bits.drop m.order)

/-- Modulate (R340): InvalidBitLength when the length is no multiple of Q_m (R345). -/
def modulate (m : Modulation) (bits : List Bool) : Except ErrCode (List Point) :=
  if bits.length % m.order = 0 then .ok (mapSymbols m (bits.length / m.order) bits)
  else .error .invalidBitLength

end Sys2Proof.Machine
end

