-- ==== Sys2Proof/Machine/GridMapper.lean ====
section
/-! DEFINITION. Stage 6, ResourceGridMapper: transform precoding and resource-element mapping
(46_grid_mapper.md R360 to R370). -/

namespace Sys2Proof.Machine

/-- The SC-FDMA symbols that carry data, in order (R363). -/
def dataSymbols : CyclicPrefix → List Nat
  | .normal => [0, 1, 2, 4, 5, 6, 7, 8, 9, 11, 12, 13]
  | .extended => [0, 1, 3, 4, 5, 6, 7, 9, 10, 11]

/-- TransformPrecode of one block (R361): element k is the k-th DFT output of the block. -/
def precodeBlock (norm : Nat) (block : List Point) : List GridValue :=
  (List.range block.length).map fun k => .dft norm block k

/-- The blocks of `m` points, `count` of them: block c goes to the c-th data symbol (R361, R363). -/
def pointBlocks (m : Nat) : Nat → List Point → List (List Point)
  | 0, _ => []
  | count + 1, points => points.take m :: pointBlocks m count (points.drop m)

/-- One column of the grid with a precoded block at its place, every other element 0 (R364, R367). -/
def dataColumn (nSc rbStart : Nat) (z : List GridValue) : List GridValue :=
  List.replicate (12 * rbStart) .empty ++ z ++ List.replicate (nSc - 12 * rbStart - z.length) .empty

/-- A column with no data (R367). -/
def emptyColumn (nSc : Nat) : List GridValue := List.replicate nSc .empty

/-- MapToGrid (R364): the columns l = 0 .. 2·N_symb − 1, each of N_sc elements, subcarrier 0 first (R365). -/
def mapToGrid (norm : Nat) (points : List Point) (rbStart nPrb : Nat) (cell : CellConfig) : List (List GridValue) :=
  let blocks := pointBlocks (12 * nPrb) cell.cp.nSymbPusch points
  (List.range (2 * cell.cp.nSymb)).map fun l =>
    match (dataSymbols cell.cp).idxOf? l with
    | some c => dataColumn cell.nRb.nSc rbStart (precodeBlock norm (blocks.getD c []))
    | none => emptyColumn cell.nRb.nSc

end Sys2Proof.Machine
end

