-- ==== Sys2Proof/Machine/Waveform.lean ====
section
/-! DEFINITION. Stage 7, WaveformSynthesizer: which exact value each sample of the subframe has
(47_waveform.md R380 to R389). The value itself is `WaveValue.value` (R381). -/

namespace Sys2Proof.Machine

/-- N_CP,l in samples (R382). -/
def cpLength (cp : CyclicPrefix) (nfft l : Nat) : Nat :=
  match cp with
  | .normal => if l % 7 = 0 then 160 * nfft / 2048 else 144 * nfft / 2048
  | .extended => 512 * nfft / 2048

/-- The samples of symbol l: n = 0 .. N_CP,l + N − 1 at the times n − N_CP,l (R381). -/
def symbolSamples (cp : CyclicPrefix) (nfft l : Nat) (column : List GridValue) : List WaveValue :=
  let ncp := cpLength cp nfft l
  (List.range (ncp + nfft)).map fun n => { column := column, nfft := nfft, time := (n : Int) - (ncp : Int) }

/-- The samples of the columns from symbol l on, concatenated in time order (R385). -/
def synthesizeFrom (cp : CyclicPrefix) (nfft : Nat) : Nat → List (List GridValue) → List WaveValue
  | _, [] => []
  | l, column :: rest => symbolSamples cp nfft l column ++ synthesizeFrom cp nfft (l + 1) rest

/-- Synthesize (R381, R385). -/
def synthesize (grid : List (List GridValue)) (cell : CellConfig) : List WaveValue :=
  synthesizeFrom cell.cp cell.nRb.nfft 0 grid

end Sys2Proof.Machine
end

