-- ==== Sys2Proof/Machine/TxStages.lean ====
section
/-! DEFINITION. PUSCH_TX up to its commit (40_commands.md R158 to R168): validation and the process check, the sizing step,
the input bits, and the seven stages. -/

namespace Sys2Proof.Machine

/-- The operands of the command word (30_encoding.md R111). -/
structure TxCommand where
  proc : BitVec 4
  rv : BitVec 2
  ndi : Bool
  mod : BitVec 2
  sf : BitVec 4
  dumpGrid : Bool
  dumpBits : Bool
  dumpHarq : Bool
  deriving DecidableEq, Repr

/-- What validation resolves: the slot and the modulation. -/
structure TxTarget where
  p : Fin 8
  m : Modulation
  deriving DecidableEq, Repr

/-- Validation (40_commands.md R159): `none` is InvalidConfiguration. -/
def puschTarget (cmd : TxCommand) (regs : ArgRegs) (cell : CellConfig) : Option TxTarget :=
  match procIndex cmd.proc, modulationOf cmd.mod with
  | some p, some m =>
    if cmd.sf.toNat < 10 && cell.configured && legalAlloc regs.alloc cell && legalUciLen regs.uciLen &&
        (!cmd.ndi || legalTbSize regs.tbSize regs.tbLen) then
      some { p := p, m := m }
    else none
  | _, _ => none

/-- The values of the initial transmission the sizing step uses (40_commands.md R160 and R170; 43_uci_encoder.md R271). -/
structure TxSource where
  seg : Segmentation
  sumK : Nat
  mscInit : Nat
  nsymbInit : Nat
  deriving DecidableEq, Repr

/-- For an initial transmission the current values, for a retransmission the slot's. -/
def txSource (ndi : Bool) (regs : ArgRegs) (cell : CellConfig) (slot : HarqSlot) : TxSource :=
  if ndi then
    let seg := segmentation (tbSizeOf regs.tbSize)
    { seg := seg, sumK := seg.sumK, mscInit := 12 * (nPrbOf regs.alloc).toNat, nsymbInit := cell.cp.nSymbPusch }
  else { seg := slot.seg, sumK := slot.sumK, mscInit := slot.mscInit, nsymbInit := slot.nsymbInit }

/-- The result of the sizing step (40_commands.md R160). -/
structure TxSizes where
  msc : Nat
  nsymb : Nat
  qpRi : Nat
  qpAck : Nat
  qpCqi : Nat
  g : Nat
  e : List Nat
  deriving DecidableEq, Repr

/-- The sizing step (40_commands.md R160, R161; 43_uci_encoder.md R271 to R274; 42_rate_matcher.md R249). -/
def txSizes (src : TxSource) (regs : ArgRegs) (cell : CellConfig) (m : Modulation) : TxSizes :=
  let msc := 12 * (nPrbOf regs.alloc).toNat
  let nsymb := cell.cp.nSymbPusch
  let qpRi := qPrimeAckRi (oRiOf regs.uciLen) src.mscInit src.nsymbInit (betaX8 regs.betaRi) src.sumK msc
  let qpAck := qPrimeAckRi (oAckOf regs.uciLen) src.mscInit src.nsymbInit (betaX8 regs.betaAck) src.sumK msc
  let qpCqi :=
    qPrimeCqi (oCqiOf regs.uciLen) src.mscInit src.nsymbInit (betaX8 regs.betaCqi) src.sumK msc nsymb qpRi
  let g := m.order * (msc * nsymb - qpCqi - qpRi)
  { msc := msc, nsymb := nsymb, qpRi := qpRi, qpAck := qpAck, qpCqi := qpCqi, g := g,
    e := blockLengths g m.order src.seg.c }

/-- Some block gets fewer bits than it has non-filler systematic bits (40_commands.md R167). -/
def tooSmall (seg : Segmentation) (e : List Nat) : Bool :=
  (List.range seg.c).any fun r => decide (e.getD r 0 < seg.blockSize r - seg.filler r)

/-- A validated command with its sizes. -/
structure TxPlan where
  target : TxTarget
  src : TxSource
  sizes : TxSizes
  deriving DecidableEq, Repr

/-- The checks before stage 1 (40_commands.md R160): validation (R159), ProcessNotInitialized (R163), AllocationMismatch
(R164), in the priority of 60_exceptions.md R402. -/
def puschAdmit (cmd : TxCommand) (s : State) : Except ErrCode TxTarget :=
  match puschTarget cmd s.inputs.regs s.cell with
  | none => .error .invalidConfiguration
  | some target =>
    let slot := s.slot target.p
    if !cmd.ndi && !slot.init then .error .processNotInitialized
    else if !cmd.ndi && decide (nPrbOf s.inputs.regs.alloc ≠ slot.nprbDecl) then .error .allocationMismatch
    else .ok target

/-- The sizing step and its checks, after stage 1 (40_commands.md R160, 90_conflicts.md C5): ControlOverflow (R166), then
AllocationTooSmall (R167). -/
def puschSizing (cmd : TxCommand) (s : State) (target : TxTarget) : Except ErrCode TxPlan :=
  let src := txSource cmd.ndi s.inputs.regs s.cell (s.slot target.p)
  let sizes := txSizes src s.inputs.regs s.cell target.m
  if sizes.qpCqi + sizes.qpRi + sizes.qpAck > sizes.msc * sizes.nsymb then .error .controlOverflow
  else if tooSmall src.seg sizes.e then .error .allocationTooSmall
  else .ok { target := target, src := src, sizes := sizes }

/-- Every check of PUSCH_TX, in the priority of 60_exceptions.md R402. -/
def puschPlan (cmd : TxCommand) (s : State) : Except ErrCode TxPlan :=
  match puschAdmit cmd s with
  | .error code => .error code
  | .ok target => puschSizing cmd s target

/-- The payload bits a[0..A−1] that stage 1 reads, when ndi = 1 (20_memory.md R99, 40_commands.md R160); `none` if one of
them was never written. -/
def readPayload (ndi : Bool) (inp : CmdInputs) : Option (List Bool) :=
  inp.mem.readBits .tb (if ndi then tbLenOf inp.regs.tbLen else 0)

/-- The input bits of a command (20_memory.md R99). -/
structure TxBits where
  tb : List Bool
  cqi : List Bool
  ri : List Bool
  ack : List Bool
  deriving DecidableEq, Repr

/-- The payload with the UCI bits that stage 3 reads (20_memory.md R99); `none` if one of these was never written. -/
def readUci (tb : List Bool) (inp : CmdInputs) : Option TxBits :=
  match inp.mem.readBits .cqi (oCqiOf inp.regs.uciLen), inp.mem.readBits .ri (oRiOf inp.regs.uciLen),
    inp.mem.readBits .ack (oAckOf inp.regs.uciLen) with
  | some cqi, some ri, some ack => some { tb := tb, cqi := cqi, ri := ri, ack := ack }
  | _, _, _ => none

/-- Every bit a PUSCH_TX reads (20_memory.md R99). -/
def readTxBits (ndi : Bool) (inp : CmdInputs) : Option TxBits :=
  match readPayload ndi inp with
  | some tb => readUci tb inp
  | none => none

/-- The circular buffers a transmission reads: built anew from the payload (R171), or the slot's, unchanged (R170). -/
def txBuffers (ndi : Bool) (seg : Segmentation) (tb : List Bool) (slot : HarqSlot) : List (List Trit) :=
  if ndi then (tbEncode seg tb).map circularBuffer else slot.w

/-- What the stages produce. -/
structure TxResult where
  w : List (List Trit)
  f : List Bool
  grid : List (List GridValue)
  wave : List WaveValue
  deriving DecidableEq, Repr

/-- The scrambled bits of stages 3 and 4 (40_commands.md R160), from the rate-matched bits f. -/
def txScrambled (sf : BitVec 4) (regs : ArgRegs) (cell : CellConfig) (plan : TxPlan) (bits : TxBits)
    (f : List Bool) : List Bool :=
  let qm := plan.target.m.order
  let qCqi := encodeCqi bits.cqi (qm * plan.sizes.qpCqi)
  let qRi := encodeAckRi bits.ri qm (qm * plan.sizes.qpRi)
  let qAck := encodeAckRi bits.ack qm (qm * plan.sizes.qpAck)
  let h := channelInterleave f qCqi qRi qAck qm plan.sizes.qpCqi plan.sizes.qpRi plan.sizes.qpAck plan.sizes.msc cell.cp
  scramble h (rntiOf regs.rnti) sf.toNat cell.cellId.toNat

/-- Stages 2 to 7 (40_commands.md R160), from the circular buffers and the UCI bits. An InvalidBitLength of stage 5 would
end the command with that code; by R168 it does not occur. -/
def txPipeline (cmd : TxCommand) (regs : ArgRegs) (cell : CellConfig) (plan : TxPlan) (bits : TxBits)
    (w : List (List Trit)) : Except ErrCode TxResult :=
  let f := rateMatch w plan.sizes.e cmd.rv.toNat
  match modulate plan.target.m (txScrambled cmd.sf regs cell plan bits f) with
  | .error code => .error code
  | .ok points =>
    let grid := mapToGrid plan.target.m.norm points (rbStartOf regs.alloc).toNat (nPrbOf regs.alloc).toNat cell
    .ok { w := w, f := f, grid := grid, wave := synthesize grid cell }

/-- The entries of WAVE_MEM, in order. -/
def TxResult.waveEntries (out : TxResult) : List SampleValue := out.wave.map .wave

/-- The entries of GRID_MEM: entry l·N_sc + k is element (k, l) (20_memory.md R82). -/
def TxResult.gridEntries (out : TxResult) : List SampleValue := out.grid.flatten.map .grid

end Sys2Proof.Machine
end

