-- ==== Sys2Proof/Machine/Samples.lean ====
section
/-! DEFINITION. The samples the PTC stores (20_memory.md R82, R88): which exact values they are, the OPEN sample format that
meets R88 of exactly these values, and the stored bytes. -/

namespace Sys2Proof.Machine

/-! ## Which exact values the PTC stores -/

/-- The slot is empty, or it holds what some initial transmission of this cell leaves in it (10_state.md R53; 40_commands.md
R160, R171): its sizes and the circular buffers of its payload. -/
def HarqSlot.filled (slot : HarqSlot) (cell : CellConfig) : Prop :=
  slot.init = true →
    ∃ (s : State) (cmd : TxCommand) (plan : TxPlan) (bits : TxBits),
      s.cell = cell ∧ cmd.ndi = true ∧ puschPlan cmd s = .ok plan ∧ readTxBits cmd.ndi s.inputs = some bits ∧
        slot.b = tbSizeOf s.inputs.regs.tbSize ∧ txSource false s.inputs.regs cell slot = plan.src ∧
        slot.w = txBuffers true plan.src.seg bits.tb slot

/-- Every slot is empty or filled by an initial transmission of the cell. -/
def State.slotsFilled (s : State) : Prop := ∀ p : Fin 8, (s.slot p).filled s.cell

/-- Some PUSCH_TX stores this exact value in WAVE_MEM or GRID_MEM (20_memory.md R88, R100): its cell has a legal identity
(10_state.md R50) and its slots hold what transmissions left. -/
def SampleValue.stored (x : SampleValue) : Prop :=
  ∃ (s : State) (cmd : TxCommand) (plan : TxPlan) (bits : TxBits) (out : TxResult),
    s.cell.cellId.toNat ≤ 503 ∧ s.slotsFilled ∧ puschPlan cmd s = .ok plan ∧
      readTxBits cmd.ndi s.inputs = some bits ∧
      txPipeline cmd s.inputs.regs s.cell plan bits
        (txBuffers cmd.ndi plan.src.seg bits.tb (s.slot plan.target.p)) = .ok out ∧
      (x ∈ out.waveEntries ∨ x ∈ out.gridEntries)

/-! ## The stored values are bounded

These lemmas only show that some sample format exists. -/

/-- A precoded block of at most 12·127 points of the three constellations. -/
def GridValue.bounded : GridValue → Prop
  | .empty => True
  | .dft _ block _ => block.length ≤ 1524 ∧ ∀ p ∈ block, |p.1| ≤ 7 ∧ |p.2| ≤ 7

theorem mapPoint_levels (m : Modulation) (b : List Bool) : |(mapPoint m b).1| ≤ 7 ∧ |(mapPoint m b).2| ≤ 7 := by
  have h1 : ∀ a, |signOf a| ≤ 7 := by decide
  have h2 : ∀ a c, |level16 a c| ≤ 7 := by decide
  have h3 : ∀ a c d, |level64 a c d| ≤ 7 := by decide
  cases m
  · exact ⟨h1 _, h1 _⟩
  · exact ⟨h2 _ _, h2 _ _⟩
  · exact ⟨h3 _ _ _, h3 _ _ _⟩

theorem mapSymbols_levels {m : Modulation} {n : Nat} {bits : List Bool} {p : Point} (h : p ∈ mapSymbols m n bits) :
    |p.1| ≤ 7 ∧ |p.2| ≤ 7 := by
  induction n generalizing bits with
  | zero => simp [mapSymbols] at h
  | succ n ih =>
    rcases List.mem_cons.1 h with rfl | h
    · exact mapPoint_levels _ _
    · exact ih h

theorem mem_pointBlocks {m n : Nat} {points block : List Point} (h : block ∈ pointBlocks m n points) :
    block.length ≤ m ∧ ∀ p ∈ block, p ∈ points := by
  induction n generalizing points with
  | zero => simp [pointBlocks] at h
  | succ n ih =>
    rcases List.mem_cons.1 h with rfl | h
    · exact ⟨List.length_take_le _ _, fun p hp => List.mem_of_mem_take hp⟩
    · exact ⟨(ih h).1, fun p hp => List.mem_of_mem_drop ((ih h).2 p hp)⟩

theorem mapToGrid_bounded {norm : Nat} {points : List Point} {rbStart nPrb : Nat} {cell : CellConfig}
    (hn : nPrb ≤ 127) (hp : ∀ p ∈ points, |p.1| ≤ 7 ∧ |p.2| ≤ 7) :
    ∀ g ∈ (mapToGrid norm points rbStart nPrb cell).flatten, g.bounded := by
  intro g hg
  obtain ⟨column, hc, hg⟩ := List.mem_flatten.1 hg
  obtain ⟨l, -, rfl⟩ := List.mem_map.1 hc
  cases hl : (dataSymbols cell.cp).idxOf? l with
  | none =>
    simp only [hl, emptyColumn, List.mem_replicate] at hg
    rw [hg.2]; trivial
  | some c =>
    simp only [hl, dataColumn, List.mem_append, List.mem_replicate, precodeBlock, List.mem_map] at hg
    rcases hg with (⟨-, rfl⟩ | ⟨k, -, rfl⟩) | ⟨-, rfl⟩
    · trivial
    · rcases lt_or_ge c (pointBlocks (12 * nPrb) cell.cp.nSymbPusch points).length with hc | hc
      · rw [List.getD_eq_getElem _ _ hc]
        have hb := mem_pointBlocks (List.getElem_mem hc)
        exact ⟨by omega, fun p h => hp p (hb.2 p h)⟩
      · rw [List.getD_eq_default _ _ hc]
        exact ⟨by simp, by simp⟩
    · trivial

theorem stored_grid_bounded {g : GridValue} (h : (SampleValue.grid g).stored) : g.bounded := by
  obtain ⟨s, cmd, plan, bits, out, -, -, -, -, hout, hx⟩ := h
  unfold txPipeline at hout
  simp only at hout
  split at hout
  · cases hout
  · rename_i points hpoints
    have hlev : ∀ p ∈ points, |p.1| ≤ 7 ∧ |p.2| ≤ 7 := by
      unfold modulate at hpoints
      split at hpoints <;> cases hpoints
      exact fun p => mapSymbols_levels
    cases hout
    rcases hx with hx | hx
    · simp [TxResult.waveEntries] at hx
    · obtain ⟨g', hg, e⟩ := List.mem_map.1 hx
      cases e
      exact mapToGrid_bounded (Nat.le_of_lt_succ (nPrbOf _).isLt) hlev g hg

theorem norm_pointValue_le (p : Point) (h : |p.1| ≤ 7 ∧ |p.2| ≤ 7) : ‖pointValue p‖ ≤ 14 := by
  have h1 : (|p.1| : ℝ) ≤ 7 := by exact_mod_cast h.1
  have h2 : (|p.2| : ℝ) ≤ 7 := by exact_mod_cast h.2
  calc ‖pointValue p‖ ≤ ‖(p.1 : ℂ)‖ + ‖(p.2 : ℂ) * Complex.I‖ := norm_add_le _ _
    _ = |(p.1 : ℝ)| + |(p.2 : ℝ)| := by simp [Complex.norm_intCast]
    _ ≤ 14 := by linarith

theorem norm_one_div_sqrt_le (n : Nat) : ‖(1 / (Real.sqrt n : ℂ))‖ ≤ 1 := by
  rw [norm_div, norm_one, Complex.norm_real, Real.norm_of_nonneg (Real.sqrt_nonneg _)]
  rcases Nat.eq_zero_or_pos n with rfl | h
  · simp
  · have : (1 : ℝ) ≤ Real.sqrt n := by rw [Real.one_le_sqrt]; exact_mod_cast h
    exact div_le_one_of_le₀ this (by linarith)

theorem norm_gridValue_le (g : GridValue) (h : g.bounded) : ‖g.value‖ ≤ 21336 := by
  cases g with
  | empty => simp [GridValue.value]
  | dft norm block k =>
    obtain ⟨hlen, hlev⟩ := h
    have hterm : ∀ i ∈ Finset.range block.length,
        ‖pointValue (block.getD i (0, 0)) / (Real.sqrt norm : ℂ) *
          Complex.exp (((-2 * Real.pi * i * k / block.length : ℝ) : ℂ) * Complex.I)‖ ≤ 14 := by
      intro i hi
      have hp : ‖pointValue (block.getD i (0, 0))‖ ≤ 14 := by
        apply norm_pointValue_le
        rw [List.getD_eq_getElem _ _ (Finset.mem_range.1 hi)]
        exact hlev _ (List.getElem_mem _)
      rw [norm_mul, Complex.norm_exp_ofReal_mul_I, mul_one, div_eq_mul_one_div, norm_mul]
      nlinarith [norm_one_div_sqrt_le norm, norm_nonneg (pointValue (block.getD i (0, 0))),
        norm_nonneg (1 / (Real.sqrt norm : ℂ))]
    have hsum := norm_sum_le_of_le _ hterm
    simp only [Finset.sum_const, Finset.card_range, nsmul_eq_mul] at hsum
    have hl : (block.length : ℝ) ≤ 1524 := by exact_mod_cast hlen
    rw [GridValue.value, norm_mul]
    nlinarith [norm_one_div_sqrt_le block.length, norm_nonneg (1 / (Real.sqrt block.length : ℂ)),
      norm_nonneg (∑ i ∈ Finset.range block.length, pointValue (block.getD i (0, 0)) / (Real.sqrt norm : ℂ) *
          Complex.exp (((-2 * Real.pi * i * k / block.length : ℝ) : ℂ) * Complex.I))]

theorem norm_stored_le (x : SampleValue) (h : x.stored) : ‖x.value fun _ => 0‖ ≤ 21336 := by
  cases x with
  | grid g => exact norm_gridValue_le g (stored_grid_bounded h)
  | wave v => simp [SampleValue.value, WaveValue.value]

/-- Some sample format exists (one with TX_SCALE 0 and a very large EPS_SAMPLE): it shows that the constraints of R88 do
not contradict each other, and nothing else rests on it. -/
def coarseFormat : Config.SampleFormat SampleValue.stored where
  eps := 21336
  txScale := fun _ => 0
  store := fun _ _ _ => 0
  finite := by intros; decide
  close := by
    intro x part draw h
    have hx := norm_stored_le x h
    have h0 : binary32Value (0 : Word) = 0 := by simp [binary32Value]
    rw [h0]
    cases part
    · simpa [Part.of] using (Complex.abs_re_le_norm _).trans hx
    · simpa [Part.of] using (Complex.abs_im_le_norm _).trans hx

/-! ## The stored bytes -/

/-- The PTC's sample format: EPS_SAMPLE, TX_SCALE and the stored words, all open (log 8). -/
def sampleFormat : Config.SampleFormat SampleValue.stored :=
  @Config.anySampleFormat SampleValue.stored ⟨coarseFormat⟩

/-- The stored bytes of one complex sample: the binary32 real part, then the imaginary part (20_memory.md R82), each a
free value within EPS_SAMPLE of the exact one (R88; log 8). -/
def sampleBytes (x : SampleValue) (draw : Nat) : List Byte :=
  wordBytes (sampleFormat.store x .re draw) ++ wordBytes (sampleFormat.store x .im draw)

/-- The stored bytes of samples in order, one free value drawn for each. -/
def samplesBytes : List SampleValue → Nat → List Byte
  | [], _ => []
  | x :: xs, draw => sampleBytes x draw ++ samplesBytes xs (draw + 1)

end Sys2Proof.Machine
end

