-- ==== Sys2Proof/Machine/PuschTx.lean ====
section
/-! DEFINITION. The meaning of PUSCH_TX (40_commands.md R158 to R178): the order of its checks, reads and stages, and the
commit. -/

namespace Sys2Proof.Machine

/-- The slot after a successful transmission (40_commands.md R170 to R172, R175). -/
def committedSlot (cmd : TxCommand) (regs : ArgRegs) (plan : TxPlan) (w : List (List Trit)) (old : HarqSlot) :
    HarqSlot :=
  if cmd.ndi then
    { init := true, rv := cmd.rv, mcs := mcsOf regs.tbSize, mod := plan.target.m, b := tbSizeOf regs.tbSize,
      rbStart := rbStartOf regs.alloc, nprbDecl := nPrbOf regs.alloc, seg := plan.src.seg, w := w,
      mscInit := plan.src.mscInit, nsymbInit := plan.src.nsymbInit, sumK := plan.src.sumK }
  else { old with rv := cmd.rv, mod := plan.target.m, rbStart := rbStartOf regs.alloc }

/-- The bytes of HARQ_MEM: the circular buffers in block order (20_memory.md R83). -/
def TxResult.harqBytes (out : TxResult) : List Byte := out.w.flatten.map tritByte

/-- The data memories after the commit (40_commands.md R175, 20_memory.md R100): WAVE_MEM always, the dumps on their
flags. -/
def committedMem (cmd : TxCommand) (draw : Nat) (out : TxResult) (mem : Memory) : Memory :=
  let m1 := mem.writeBytes waveBase (samplesBytes out.waveEntries draw)
  let m2 := if cmd.dumpBits then m1.writeBytes BitMem.bits.base (packBits out.f) else m1
  let m3 := if cmd.dumpHarq then m2.writeBytes harqBase out.harqBytes else m2
  if cmd.dumpGrid then m3.writeBytes gridBase (samplesBytes out.gridEntries (draw + out.wave.length)) else m3

/-- The length registers after the commit (40_commands.md R175; 10_state.md R45 to R48). -/
def committedLens (cmd : TxCommand) (cell : CellConfig) (plan : TxPlan) (out : TxResult) (lens : LenRegs) : LenRegs where
  wave := BitVec.ofNat 32 (15 * cell.nRb.nfft)
  bits := if cmd.dumpBits then BitVec.ofNat 32 plan.sizes.g else lens.bits
  harq := if cmd.dumpHarq then BitVec.ofNat 32 out.harqBytes.length else lens.harq
  grid := if cmd.dumpGrid then BitVec.ofNat 32 (cell.nRb.nSc * (2 * cell.cp.nSymb)) else lens.grid

/-- The commit of a successful PUSCH_TX (40_commands.md R175). -/
def commitTx (cmd : TxCommand) (plan : TxPlan) (out : TxResult) (s : State) : State :=
  let slot := committedSlot cmd s.inputs.regs plan out.w (s.slot plan.target.p)
  { s.setSlot plan.target.p slot with
    mem := committedMem cmd s.draws out s.mem
    lens := committedLens cmd s.cell plan out s.lens
    draws := s.draws + out.wave.length + (if cmd.dumpGrid then out.gridEntries.length else 0) }

/-- PUSCH_TX of the operands `cmd` (40_commands.md R158 to R178), in the order of R160: the payload is read in stage 1,
before the sizing step, and the UCI bits in stage 3, after it (log 10). -/
def runPuschTx (cmd : TxCommand) (s : State) : Host.Outcome State Fault Refusal :=
  match puschAdmit cmd s with
  | .error code => s.raiseErr opcodePuschTx cmd.proc code
  | .ok target =>
    match readPayload cmd.ndi s.inputs with
    | none => .fault .neverWrittenInput
    | some tb =>
      match puschSizing cmd s target with
      | .error code => s.raiseErr opcodePuschTx cmd.proc code
      | .ok plan =>
        match readUci tb s.inputs with
        | none => .fault .neverWrittenInput
        | some bits =>
          let w := txBuffers cmd.ndi plan.src.seg bits.tb (s.slot plan.target.p)
          match txPipeline cmd s.inputs.regs s.cell plan bits w with
          | .error code => s.raiseErr opcodePuschTx cmd.proc code
          | .ok out => (commitTx cmd plan out s).finish opcodePuschTx cmd.proc

/-- PUSCH_TX (40_commands.md R158 to R178). -/
def execPuschTx (proc : BitVec 4) (rv : BitVec 2) (ndi : Bool) (mod : BitVec 2) (sf : BitVec 4)
    (dumpGrid dumpBits dumpHarq : Bool) (s : State) : Host.Outcome State Fault Refusal :=
  runPuschTx
    { proc := proc, rv := rv, ndi := ndi, mod := mod, sf := sf,
      dumpGrid := dumpGrid, dumpBits := dumpBits, dumpHarq := dumpHarq } s

end Sys2Proof.Machine
end

