-- ==== Sys2Proof/Machine/Dispatch.lean ====
section
/-! DEFINITION. The dispatch of a decoded command to its meaning. -/

namespace Sys2Proof.Machine

def exec (i : Instr) (s : State) : Host.Outcome State Fault Refusal :=
  match i with
  | .nop => Sys2Proof.Machine.execNop s
  | .cellConfig => Sys2Proof.Machine.execCellConfig s
  | .procConfig proc => Sys2Proof.Machine.execProcConfig proc s
  | .procFlush proc => Sys2Proof.Machine.execProcFlush proc s
  | .puschTx proc rv ndi mod sf dg db dh => Sys2Proof.Machine.execPuschTx proc rv ndi mod sf dg db dh s

end Sys2Proof.Machine
end

