-- ==== Sys2Proof/Machine/HostAccess.lean ====
section
/-! DEFINITION. The host side of the PTC: register and memory accesses (20_memory.md R80 to R93), the CMD latch, the soft
reset and the hardware reset (70_reset_and_hazards.md R440 to R444). -/

namespace Sys2Proof.Machine

/-! ## Widths, alignment, regions -/

/-- How many bytes an access moves. -/
def Width.bytes : Width → Nat
  | .w8 => 1
  | .w16 => 2
  | .w32 => 4

/-- The offset of a bus address from PTC_BASE (20_memory.md R80). -/
def offsetOfBus (address : Word) : Word := address - Config.ptcBase

/-- What stands at a byte offset (20_memory.md R80, R84, R89): the register file, a host-writable input memory, a
PTC-written output memory, or nothing. -/
inductive Region where
  | registers
  | input
  | output
  | unmapped
  deriving DecidableEq, Repr

/-- The offset `a` lies in `size` bytes from `base` on. -/
def within (base size a : Nat) : Bool := base ≤ a && a < base + size

/-- An offset lies in the used size of a bit memory. -/
def BitMem.holds (m : BitMem) (a : Nat) : Bool := within m.base m.size a

/-- The region of a byte offset; an offset past a region's used size is unmapped (20_memory.md R84). -/
def regionOf (a : Nat) : Region :=
  if a < 0x1000 then .registers
  else if BitMem.tb.holds a || BitMem.cqi.holds a || BitMem.ri.holds a || BitMem.ack.holds a then .input
  else if BitMem.bits.holds a || within harqBase harqSize a || within gridBase gridSize a ||
      within waveBase waveSize a then .output
  else .unmapped

/-- The accesses of 20_memory.md R86: registers by aligned words only, everything else naturally aligned. -/
def accessLegal (width : Width) (offset : Word) : Bool :=
  if offset.toNat < 0x1000 then width == .w32 && offset.toNat % 4 == 0 else offset.toNat % width.bytes == 0

/-! ## Registers -/

/-- The RW register at an offset (10_state.md R32). -/
def argRegAt (offset : Nat) : Option ArgReg :=
  if offset = 0x010 then some .cellCfg
  else if offset = 0x014 then some .tbSize
  else if offset = 0x018 then some .tbLen
  else if offset = 0x01C then some .alloc
  else if offset = 0x020 then some .rnti
  else if offset = 0x024 then some .uciLen
  else if offset = 0x028 then some .betaAck
  else if offset = 0x02C then some .betaRi
  else if offset = 0x030 then some .betaCqi
  else none

/-- The length register at an offset and the bits of its field (10_state.md R45 to R48). -/
def lenRegAt (lens : LenRegs) (offset : Nat) : Option (Word × Word) :=
  if offset = 0x034 then some (lens.wave, 0x3FFFF)
  else if offset = 0x038 then some (lens.bits, 0xFFFFF)
  else if offset = 0x03C then some (lens.harq, 0xFFFFF)
  else if offset = 0x040 then some (lens.grid, 0x3FFFF)
  else none

/-- A register read other than of a length register: ID is the constant PTC_ID, the write-only registers and every offset
not in the table read 0 (10_state.md R32 to R44). -/
def State.plainReg (s : State) (offset : Nat) : Word :=
  if offset = 0x000 then Config.ptcId
  else if offset = 0x008 then s.statusWord
  else match argRegAt offset with
    | some r => s.regs.get r
    | none => 0

/-- The state after a host read that returned these bits. -/
def State.withRead (s : State) (width : Width) (value written : Word) : State :=
  { s with readData := some { width := width, value := value, written := written } }

/-- A host read of a register (10_state.md R32). A length register read while BUSY gives a free value of its field
(20_memory.md R93; log 7). -/
def State.readReg (s : State) (offset : Nat) : State :=
  match lenRegAt s.lens offset with
  | some (len, mask) =>
    if s.busy then { s.withRead .w32 (Config.freeWord s.draws &&& mask) 0xFFFFFFFF with draws := s.draws + 1 }
    else s.withRead .w32 len 0xFFFFFFFF
  | none => s.withRead .w32 (s.plainReg offset) 0xFFFFFFFF

/-- Old or new value per field of a register, as the free bit at the field's lowest place chooses (20_memory.md R93). -/
def mixFields (choice : Word) (fields : List (Nat × Nat)) (old new : Word) : Word :=
  let mask := fieldsMask (fields.filter fun field => choice.getLsbD field.1)
  (old &&& ~~~ mask) ||| (new &&& mask)

/-- A host write of an argument register. While BUSY it also races with the pending command, which reads the old or the
new value of each field (20_memory.md R93; log 7). DESIGN CHOICE, log 22: that holds also within this one aligned access,
of which R87 says that a command sees all or none. -/
def State.writeArg (s : State) (r : ArgReg) (data : Word) : State :=
  let regs := s.regs.write r data
  if s.busy then
    let seen := s.inputs
    let mixed := mixFields (Config.freeWord s.draws) r.fields (seen.regs.get r) (regs.get r)
    { s with regs := regs, raced := some { seen with regs := seen.regs.put r mixed }, draws := s.draws + 1 }
  else { s with regs := regs }

/-- A host write of CMD: latched when PENDING is EMPTY (10_state.md R60), dropped otherwise (20_memory.md R91). -/
def State.writeCmd (s : State) (w : Word) : State :=
  if s.busy then { s with status := { s.status with cmdDropped := true } }
  else { s with pending := some w, raced := none }

/-- The soft reset (70_reset_and_hazards.md R442): a pending command is discarded, the registers take their reset values,
the cell and every slot become uninitialised; the data memories keep contents and marks. -/
def State.softReset (s : State) : State :=
  { s with
    regs := .reset
    status := .reset
    lens := .reset
    cell := { s.cell with configured := false }
    procs := s.procs.map fun slot => { slot with init := false }
    pending := none
    raced := none }

/-- The hardware reset (70_reset_and_hazards.md R440): the state of 10_state.md R62. The schedule, the count of drawn free
values and the last host read are the model's own and stand (log 6). -/
def State.hardwareReset (s : State) : State :=
  { State.reset with draws := s.draws, turns := s.turns, readData := s.readData }

/-- A host write of a register (10_state.md R32 to R44; 20_memory.md R87): CTRL.SRESET, STATUS.CMD_DROPPED (write 1 to
clear), CMD, an argument register; every other write is ignored. -/
def State.writeReg (s : State) (offset : Nat) (data : Word) : State :=
  if offset = 0x004 then (if data.getLsbD 0 then s.softReset else s)
  else if offset = 0x008 then
    (if data.getLsbD 2 then { s with status := { s.status with cmdDropped := false } } else s)
  else if offset = 0x00C then s.writeCmd data
  else match argRegAt offset with
    | some r => s.writeArg r data
    | none => s

/-! ## Data memories -/

/-- A word from its bytes, least significant first (20_memory.md R85). -/
def wordOfBytes : List Byte → Word
  | [] => 0
  | b :: bs => (wordOfBytes bs <<< 8) ||| b.zeroExtend 32

/-- A byte as a host read finds it: its value and which of its bits were written. Nothing stands at an unmapped offset,
which reads 0 (20_memory.md R84); an output byte read while BUSY is a free value (R93; log 7). DESIGN CHOICE, log 21: that
holds also of an output byte never written, of which R93 gives a value and 10_state.md R62 and 70_reset_and_hazards.md R444
a fault. -/
def State.hostByte (s : State) (a i : Nat) : Byte × Byte :=
  match regionOf a with
  | .input => (s.mem.byteAt a, s.mem.markAt a)
  | .output =>
    if s.busy then ((Config.freeWord s.draws).extractLsb' (8 * i) 8, 0xFF) else (s.mem.byteAt a, s.mem.markAt a)
  | _ => (0, 0xFF)

/-- The `n` bytes from `a` on as a host read finds them. -/
def State.hostBytes (s : State) (a n : Nat) : List (Byte × Byte) :=
  (List.range n).map fun i => s.hostByte (a + i) i

/-- A host read of a data memory. A byte of which no bit was ever written is a model fault; a byte only partly written
gives its written bits (70_reset_and_hazards.md R444). -/
def State.readMem (s : State) (width : Width) (a : Nat) : Host.Outcome State Fault Refusal :=
  let bytes := s.hostBytes a width.bytes
  if bytes.any fun b => b.2 == 0 then .fault .neverWrittenRead
  else
    let t := s.withRead width (wordOfBytes (bytes.map Prod.fst)) (wordOfBytes (bytes.map Prod.snd))
    .next (if s.busy && regionOf a == .output then { t with draws := s.draws + 1 } else t)

/-- The masks of a masked write, cut to the host-writable bytes: writes of output memories (20_memory.md R89) and of
unmapped offsets (R84) are ignored. -/
def writableMasks : Nat → List (Byte × Byte) → List (Byte × Byte)
  | _, [] => []
  | a, (v, k) :: rest => (v, if regionOf a = .input then k else 0) :: writableMasks (a + 1) rest

/-- The masks of the bits that a racing command already sees: a free choice per bit (20_memory.md R93; log 7). -/
def racedMasks : Nat → List (Byte × Byte) → List (Byte × Byte)
  | _, [] => []
  | draw, (v, k) :: rest => (v, k &&& (Config.freeWord draw).extractLsb' 0 8) :: racedMasks (draw + 1) rest

/-- A host write of masked bytes from `a` on; one that reaches no host-writable bit is ignored (20_memory.md R84, R89).
While BUSY it also races with the pending command, which reads the old or the new value of each bit (R93). DESIGN CHOICE,
log 22: that holds also within one aligned access, of which R87 says that a command sees all or none. -/
def State.storeMasked (s : State) (a : Nat) (vks : List (Byte × Byte)) : State :=
  let ws := writableMasks a vks
  let mem := s.mem.writeMasked a ws
  if ws.all fun vk => vk.2 == 0 then s
  else if s.busy then
    let seen := s.inputs
    { s with
      mem := mem
      raced := some { seen with mem := seen.mem.writeMasked a (racedMasks s.draws ws) }
      draws := s.draws + ws.length }
  else { s with mem := mem }

/-- The bytes of an access's datum, whole (20_memory.md R85). -/
def dataBytes (width : Width) (data : Word) : List (Byte × Byte) :=
  ((wordBytes data).take width.bytes).map fun b => (b, 0xFF)

/-- The bytes of a bit string with the masks of the bits it holds, at most the memory's size (30_encoding.md R131; log 14). -/
def bitStringBytes (mem : BitMem) (bits : List Bool) : List (Byte × Byte) :=
  ((packBits bits).zip (packBits (List.replicate bits.length true))).take mem.size

/-! ## Accesses -/

/-- One host access, one atomic step (20_memory.md R87). An access outside R86 is a fault of the host agent. -/
def hostAccess (access : HostAccess) (s : State) : Host.Outcome State Fault Refusal :=
  match access with
  | .read width offset =>
    if accessLegal width offset then
      if offset.toNat < 0x1000 then .next (s.readReg offset.toNat) else s.readMem width offset.toNat
    else .fault .hostAccess
  | .write width offset data =>
    if accessLegal width offset then
      if offset.toNat < 0x1000 then .next (s.writeReg offset.toNat data)
      else .next (s.storeMasked offset.toNat (dataBytes width data))
    else .fault .hostAccess
  | .writeBits mem bits => .next (s.storeMasked mem.base (bitStringBytes mem bits))

end Sys2Proof.Machine
end

