-- ==== Sys2Proof/Machine/Agents.lean ====
section
/-! DEFINITION. What each agent does on its turn: the PTC executes the pending command (20_memory.md R90), the host makes
an access, the platform asserts the hardware reset. -/

namespace Sys2Proof.Machine

/-- The PTC's transition (20_memory.md R90): the pending word is decoded and executed. A word that is no command completes
with InvalidConfiguration, its opcode and PROC field recorded as written (30_encoding.md R112, R114; 60_exceptions.md R403).
With PENDING EMPTY the PTC is idle and all state persists (60_exceptions.md R434). -/
def ptcTurn (s : State) : Host.Outcome State Fault Refusal :=
  match s.pending with
  | none => .next s
  | some w =>
    match decode w with
    | .ok i => exec i s
    | .error _ => s.raiseErr (opcodeField w) (procField w) .invalidConfiguration

/-- One turn of the schedule. -/
def takeTurn (t : Turn) (s : State) : Host.Outcome State Fault Refusal :=
  match t with
  | .host access => hostAccess access s
  | .ptc => ptcTurn s
  | .hardwareReset => .next s.hardwareReset

end Sys2Proof.Machine
end

