-- ==== Sys2Proof/Machine/Step.lean ====
section
/-! DEFINITION. One step of the machine: the head of the schedule moves; with no turn left, the PTC (log 1). -/

namespace Sys2Proof.Machine

/-- One step: the next turn, each one atomic (20_memory.md R87, R90). -/
def step (s : State) : Host.Outcome State Fault Refusal :=
  match s.turns with
  | [] => ptcTurn s
  | t :: rest => takeTurn t { s with turns := rest }

/-- `s` with the command word of an opcode-table row latched in PENDING, where the PTC takes its next command
(10_state.md R60), no host write racing with it, and the PTC's turn next: the host's CMD write stands behind it (log 1). -/
def State.withFetchWord (s : State) (nbits w : Nat) : State :=
  { s with pending := some (BitVec.ofNat 32 (w % 2 ^ nbits)), raced := none, turns := [] }

end Sys2Proof.Machine
end

