-- ==== Sys2Proof/Machine/HostProgram.lean ====
section
/-! DEFINITION. The host-program syntax of 30_encoding.md R130 to R132 as turns of the schedule. It adds nothing to the
machine: every function gives a list of turns. `poll` is written for the schedule in which the PTC moves before the read
that ends the loop (log 16). -/

namespace Sys2Proof.Machine

/-- The offsets of the registers (10_state.md R32). -/
inductive RegName where
  | id | ctrl | status | cmd | cellCfg | tbSize | tbLen | alloc | rnti | uciLen | betaAck | betaRi | betaCqi
  | waveLen | bitsLen | harqLen | gridLen
  deriving DecidableEq, Repr

/-- A register's offset (10_state.md R32). -/
def RegName.offset : RegName → Word
  | .id => 0x000
  | .ctrl => 0x004
  | .status => 0x008
  | .cmd => 0x00C
  | .cellCfg => 0x010
  | .tbSize => 0x014
  | .tbLen => 0x018
  | .alloc => 0x01C
  | .rnti => 0x020
  | .uciLen => 0x024
  | .betaAck => 0x028
  | .betaRi => 0x02C
  | .betaCqi => 0x030
  | .waveLen => 0x034
  | .bitsLen => 0x038
  | .harqLen => 0x03C
  | .gridLen => 0x040

/-- `wr REG, value` (R131). -/
def hostWr (r : RegName) (value : Word) : Turn := .host (.write .w32 r.offset value)
/-- `rd REG` (R131). -/
def hostRd (r : RegName) : Turn := .host (.read .w32 r.offset)
/-- `wbits MEM, "..."` (R131). -/
def hostWbits (mem : BitMem) (bits : List Bool) : Turn := .host (.writeBits mem bits)
/-- `cmd c` (R131): the encoded word written to CMD. -/
def hostCmd (i : Instr) : Turn := hostWr .cmd (encode i)
/-- `poll` (R131): the command completes, and the read of STATUS that sees BUSY = 0. -/
def hostPoll : List Turn := [.ptc, hostRd .status]
/-- `run c` (R132). -/
def hostRun (i : Instr) : List Turn := hostCmd i :: hostPoll
/-- `cfg.cell id, cp, nrb` (R132). -/
def hostCfgCell (id cp nRb : Nat) : List Turn :=
  hostWr .cellCfg (BitVec.ofNat 32 (id + cp * 2 ^ 9 + nRb * 2 ^ 16)) :: hostRun .cellConfig

/-- The modulation names of the assembler (R130). -/
def asmMod : Modulation → BitVec 2
  | .qpsk => 0
  | .qam16 => 1
  | .qam64 => 2

/-- `pusch.new` (R132), without dumps. -/
def puschNew (p : BitVec 4) (rv : BitVec 2) (m : Modulation) (sf : BitVec 4) : Instr :=
  .puschTx p rv true (asmMod m) sf false false false
/-- `pusch.retx` (R132), without dumps. -/
def puschRetx (p : BitVec 4) (rv : BitVec 2) (m : Modulation) (sf : BitVec 4) : Instr :=
  .puschTx p rv false (asmMod m) sf false false false

/-- The state with a host program still to run. -/
def State.withProgram (s : State) (program : List Turn) : State := { s with turns := program }

end Sys2Proof.Machine
end

