-- ==== Sys2Proof/Safety.lean ====
section
/-! DEFINITION. The terms claims use: what makes a state of the PTC a legal one, the invariant of its steps, and the
demapper of 45_modulation.md R346, a verification aid that is no part of the PTC. -/

namespace Sys2Proof.Machine

/-- Every reserved bit of every argument register is 0 (10_state.md R32). -/
def ArgRegs.reservedZero (regs : ArgRegs) : Prop := ∀ r : ArgReg, regs.get r &&& ~~~ r.mask = 0

/-- A configured cell has a legal identity (10_state.md R50). -/
def CellConfig.legal (cell : CellConfig) : Prop := cell.configured = true → cell.cellId.toNat ≤ 503

/-- The reserved bits of the length registers are 0 (10_state.md R45 to R48). -/
def LenRegs.legal (lens : LenRegs) : Prop :=
  lens.wave.toNat < 2 ^ 18 ∧ lens.bits.toNat < 2 ^ 20 ∧ lens.harq.toNat < 2 ^ 20 ∧ lens.grid.toNat < 2 ^ 18

/-- The sizes an initialised slot records (10_state.md R53): a legal B, the segmentation and ΣK of that B, a legal
declared width, and the M_sc and N_symb of some transmission. -/
def HarqSlot.legal (slot : HarqSlot) : Prop :=
  slot.init = true →
    25 ≤ slot.b ∧ slot.b ≤ Config.maxTbSize ∧ slot.seg = segmentation slot.b ∧ slot.sumK = slot.seg.sumK ∧
    (1 ≤ slot.nprbDecl.toNat ∧ slot.nprbDecl.toNat ≤ 100) ∧
    (∃ n, 1 ≤ n ∧ n ≤ 100 ∧ slot.mscInit = 12 * n) ∧ (slot.nsymbInit = 12 ∨ slot.nsymbInit = 10)

/-- The circular buffers of an initialised slot: one per code block, of 3·K_Π,r entries (10_state.md R53,
42_rate_matcher.md R244), each holding some bit that is not NULL (R251). -/
def HarqSlot.buffersFit (slot : HarqSlot) : Prop :=
  slot.init = true →
    slot.w.map List.length = (slot.seg.blockSizes.map fun k => 3 * kPi k) ∧ ∀ w ∈ slot.w, ∃ b, some b ∈ w

/-- What a raced command will read is itself in form, and it is held only while a command is pending (20_memory.md R93). -/
def State.racedLegal (s : State) : Prop :=
  ∀ inp, s.raced = some inp → s.pending.isSome = true ∧ inp.regs.reservedZero ∧ inp.mem.wf

/-- The form of registers, cell and memory that every step keeps. -/
structure State.Inv (s : State) : Prop where
  regs : s.regs.reservedZero
  lens : s.lens.legal
  cell : s.cell.legal
  mem : s.mem.wf
  raced : s.racedLegal

/-- Every slot records legal sizes. -/
def State.slotsLegal (s : State) : Prop := ∀ p : Fin 8, (s.slot p).legal

/-- Every initialised slot holds buffers of the right sizes. -/
def State.buffersFit (s : State) : Prop := ∀ p : Fin 8, (s.slot p).buffersFit

/-! ## Words and completion -/

/-- A command word that 30_encoding.md R112 or R114 makes fail: a reserved OPCODE, a nonzero reserved bit or unused field,
or a value out of its range. -/
def IllegalWord (w : Word) : Prop :=
  let op : BitVec 8 := w.extractLsb' 24 8
  op ∉ ([0x00, 0x01, 0x02, 0x03, 0x10] : List (BitVec 8)) ∨
    ((op = 0x00 ∨ op = 0x01) ∧ w &&& 0x00FFFFFF ≠ 0) ∨
    ((op = 0x02 ∨ op = 0x03) ∧ w &&& 0x000FFFFF ≠ 0) ∨
    (op = 0x10 ∧ w &&& 0x0001007F ≠ 0) ∨
    (op = 0x10 ∧ (w.extractLsb' 14 2 = 3 ∨ 10 ≤ (w.extractLsb' 10 4).toNat)) ∨
    ((op = 0x02 ∨ op = 0x03 ∨ op = 0x10) ∧ 8 ≤ (w.extractLsb' 20 4).toNat)

/-- `s` with the epilogue of 40_commands.md R149 and nothing else: the code, the OPCODE and the PROC field recorded, PENDING
EMPTY, and no race left. -/
def State.recorded (s : State) (op : BitVec 8) (proc : BitVec 4) (code : ErrCode) : State :=
  { s with
    status := { cmdDropped := s.status.cmdDropped, err := code, lastOp := op, lastProc := proc }
    pending := none
    raced := none }

/-- The step completes a pending word of this OPCODE and slot with OK. -/
def CompletesOn (s t : State) (op : BitVec 8) (p : Fin 8) : Prop :=
  ∃ w, s.pending = some w ∧ w.extractLsb' 24 8 = op ∧ (w.extractLsb' 20 4).toNat = p.val ∧
    t.pending = none ∧ t.status.err = .ok

/-- The step completes an initial transmission on slot p with OK (NDI, bit 17, is set). -/
def InitialTransmissionOn (s t : State) (p : Fin 8) : Prop :=
  CompletesOn s t 0x10 p ∧ ∃ w, s.pending = some w ∧ w.getLsbD 17 = true

/-! ## Bytes of the memory map -/

/-- A byte offset of a host-writable memory (20_memory.md R80). -/
def inputByte (a : Nat) : Prop :=
  (0x10000 ≤ a ∧ a < 0x10000 + 9422) ∨ (0x20000 ≤ a ∧ a < 0x20000 + 128) ∨ (0x20100 ≤ a ∧ a < 0x20100 + 2) ∨
    (0x20200 ≤ a ∧ a < 0x20200 + 2)

/-- A byte offset of a memory only the PTC writes (20_memory.md R80, R89). -/
def outputByte (a : Nat) : Prop :=
  (0x40000 ≤ a ∧ a < 0x40000 + 10800) ∨ (0x80000 ≤ a ∧ a < 0x80000 + 262144) ∨
    (0x100000 ≤ a ∧ a < 0x100000 + 134400) ∨ (0x200000 ≤ a ∧ a < 0x200000 + 245760)

/-- The offset of an argument register (10_state.md R32). -/
def ArgReg.offset : ArgReg → Nat
  | .cellCfg => 0x010
  | .tbSize => 0x014
  | .tbLen => 0x018
  | .alloc => 0x01C
  | .rnti => 0x020
  | .uciLen => 0x024
  | .betaAck => 0x028
  | .betaRi => 0x02C
  | .betaCqi => 0x030

/-! ## What a PUSCH_TX asks of its operands -/

/-- A legal allocation, in the words of 30_encoding.md R121. -/
def AllocLegal (alloc : Word) (cell : CellConfig) : Prop :=
  1 ≤ (nPrbOf alloc).toNat ∧ (rbStartOf alloc).toNat + (nPrbOf alloc).toNat ≤ cell.nRb.nRb ∧
    ∃ a2 a3 a5 : Nat, (nPrbOf alloc).toNat = 2 ^ a2 * 3 ^ a3 * 5 ^ a5

/-- A PUSCH_TX with these operands passes the validation of 40_commands.md R159. -/
structure State.TxLegal (s : State) (proc : BitVec 4) (ndi : Bool) (mod : BitVec 2) (sf : BitVec 4) : Prop where
  proc : proc.toNat < 8
  mod : mod ≠ 3
  sf : sf.toNat < 10
  cell : s.cell.configured = true
  alloc : AllocLegal s.inputs.regs.alloc s.cell
  uci : oCqiOf s.inputs.regs.uciLen ≤ 1023 ∧ oRiOf s.inputs.regs.uciLen ≤ 11 ∧ oAckOf s.inputs.regs.uciLen ≤ 11
  tb : ndi = true → 25 ≤ tbSizeOf s.inputs.regs.tbSize ∧ tbSizeOf s.inputs.regs.tbSize ≤ 75400 ∧
    tbLenOf s.inputs.regs.tbLen = tbSizeOf s.inputs.regs.tbSize - 24

/-- The values of the initial transmission that a PUSCH_TX on slot p sizes with (40_commands.md R160, R170). -/
def State.sourceOf (s : State) (p : Fin 8) (ndi : Bool) : TxSource :=
  txSource ndi s.inputs.regs s.cell (s.slot p)

/-- The sizes of a PUSCH_TX on slot p (40_commands.md R160). -/
def State.sizesOf (s : State) (p : Fin 8) (ndi : Bool) (m : Modulation) : TxSizes :=
  txSizes (s.sourceOf p ndi) s.inputs.regs s.cell m

/-- The control budgets fit the allocation (40_commands.md R166). -/
def State.ControlFits (s : State) (p : Fin 8) (ndi : Bool) (m : Modulation) : Prop :=
  (s.sizesOf p ndi m).qpCqi + (s.sizesOf p ndi m).qpRi + (s.sizesOf p ndi m).qpAck ≤
    (s.sizesOf p ndi m).msc * (s.sizesOf p ndi m).nsymb

/-- Every code block gets at least its non-filler systematic bits (40_commands.md R167). -/
def State.DataFits (s : State) (p : Fin 8) (ndi : Bool) (m : Modulation) : Prop :=
  ∀ r, r < (s.sourceOf p ndi).seg.c →
    (s.sourceOf p ndi).seg.blockSize r - (s.sourceOf p ndi).seg.filler r ≤ (s.sizesOf p ndi m).e.getD r 0

/-- The first `n` bits of a bit memory were written. -/
def Memory.written (mem : Memory) (bm : BitMem) (n : Nat) : Prop := ∀ i, i < n → (mem.bitAt bm.base i).isSome = true

/-- Every payload bit a PUSCH_TX reads, when NDI = 1, was written (20_memory.md R99). -/
def State.PayloadWritten (s : State) (ndi : Bool) : Prop :=
  ndi = true → s.inputs.mem.written .tb (tbLenOf s.inputs.regs.tbLen)

/-- Every input bit a PUSCH_TX reads was written (20_memory.md R99). -/
def State.InputsWritten (s : State) (ndi : Bool) : Prop :=
  s.PayloadWritten ndi ∧
    s.inputs.mem.written .cqi (oCqiOf s.inputs.regs.uciLen) ∧
    s.inputs.mem.written .ri (oRiOf s.inputs.regs.uciLen) ∧
    s.inputs.mem.written .ack (oAckOf s.inputs.regs.uciLen)

/-- The bytes a successful PUSCH_TX writes (20_memory.md R100): WAVE_MEM's samples, and the dumps its flags ask for, of
`g` rate-matched bits and `entries` buffer entries. -/
def writesByte (cell : CellConfig) (g entries : Nat) (dumpGrid dumpBits dumpHarq : Bool) (a : Nat) : Prop :=
  (0x200000 ≤ a ∧ a < 0x200000 + 8 * (15 * cell.nRb.nfft)) ∨
    (dumpBits = true ∧ 0x40000 ≤ a ∧ a < 0x40000 + (g + 7) / 8) ∨
    (dumpHarq = true ∧ 0x80000 ≤ a ∧ a < 0x80000 + entries) ∨
    (dumpGrid = true ∧ 0x100000 ≤ a ∧ a < 0x100000 + 8 * (cell.nRb.nSc * (2 * cell.cp.nSymb)))

/-- The word stored at a byte offset, least significant byte first (20_memory.md R85). -/
def Memory.wordAt (mem : Memory) (a : Nat) : Word :=
  wordOfBytes [mem.byteAt a, mem.byteAt (a + 1), mem.byteAt (a + 2), mem.byteAt (a + 3)]

/-- Entry n of the sample memory at `base` holds `x`: two finite binary32 words, each within EPS_SAMPLE of its component
(20_memory.md R82, R88). -/
def Memory.holdsSample (mem : Memory) (base n : Nat) (x : SampleValue) : Prop :=
  ∀ part : Part,
    let w := mem.wordAt (base + 8 * n + (match part with | .re => 0 | .im => 4))
    binary32Finite w = true ∧
      |(binary32Value w : ℝ) - part.of (x.value sampleFormat.txScale)| ≤ sampleFormat.eps

/-! ## The demapper -/

/-- The bits of an axis, from its level (45_modulation.md R346). -/
def demapAxis (m : Modulation) (v : Int) : List Bool :=
  match m with
  | .qpsk => [decide (v < 0)]
  | .qam16 => [decide (v < 0), decide (2 < |v|)]
  | .qam64 => [decide (v < 0), decide (4 < |v|), decide (2 < abs (|v| - 4))]

/-- Two axes' bits in turn: the I axis gives b0, b2, b4, the Q axis b1, b3, b5. -/
def interleaveAxes : List Bool → List Bool → List Bool
  | i :: is, q :: qs => i :: q :: interleaveAxes is qs
  | _, _ => []

/-- Demap_Qm, the hard decision of 45_modulation.md R346. -/
def demapPoint (m : Modulation) (p : Point) : List Bool := interleaveAxes (demapAxis m p.1) (demapAxis m p.2)

/-! ## The constituent encoder -/

/-- x, z and σ are the inputs, parities and states of one constituent encoder over the K bits c and its tail: the equations
of 41_tb_coder.md R211, with the tail input of R213 from K on. -/
structure IsRscRun (K : Nat) (c x z : Nat → Bool) (σ : Nat → RscState) : Prop where
  start : σ 0 = ⟨false, false, false⟩
  input : ∀ k, k < K → x k = c k
  tail : ∀ k, K ≤ k → x k = ((σ k).s2 ^^ (σ k).s3)
  next : ∀ k, σ (k + 1) = ⟨x k ^^ (σ k).s2 ^^ (σ k).s3, (σ k).s1, (σ k).s2⟩
  parity : ∀ k, z k = ((x k ^^ (σ k).s2 ^^ (σ k).s3) ^^ (σ k).s1 ^^ (σ k).s3)

/-! ## Polynomials of the CRC -/

/-- A bit vector as a polynomial over GF(2), its first bit the highest coefficient (00_scope.md R13, 41_tb_coder.md R201). -/
noncomputable def bitsPoly (bits : List Bool) : Polynomial (ZMod 2) :=
  bits.foldl (fun acc b => acc * Polynomial.X + if b then 1 else 0) 0

/-- The polynomial with these exponents. -/
noncomputable def termsPoly (exponents : List Nat) : Polynomial (ZMod 2) :=
  (exponents.map fun e => (Polynomial.X : Polynomial (ZMod 2)) ^ e).sum

/-- The three generators of 41_tb_coder.md R203: the exponents of the polynomial, its integer form and its degree. -/
def crcGenerators : List (List Nat × Nat × Nat) :=
  [([24, 23, 18, 17, 14, 11, 10, 7, 6, 5, 4, 3, 1, 0], 0x1864CFB, 24),
    ([24, 23, 6, 5, 1, 0], 0x1800063, 24),
    ([8, 7, 4, 3, 1, 0], 0x19B, 8)]

end Sys2Proof.Machine
end

