-- ==== Sys2Proof/WellFormed.lean ====
section
/-! DEFINITION. Which decoded commands are well formed: the value ranges of 30_encoding.md R114. A command outside them
still decodes (R115, step 3 comes after the match and mask of steps 1 and 2), and its meaning completes with
InvalidConfiguration. -/

namespace Sys2Proof

/-- A PROC field names an existing slot: PROC < N_HARQ = 8 (30_encoding.md R114, 00_scope.md R10). -/
abbrev procInRange (proc : BitVec 4) : Bool := proc.toNat < 8

/-- A MOD field names a modulation: 11 is reserved (30_encoding.md R110, R114). -/
abbrev modInRange (mod : BitVec 2) : Bool := mod ≠ 3

/-- An SF field is a subframe index 0..9 (30_encoding.md R114, R125). -/
abbrev sfInRange (sf : BitVec 4) : Bool := sf.toNat < 10

/-- The value ranges of 30_encoding.md R114, per command. -/
def Instr.wellFormed : Instr → Bool
  | .nop => true
  | .cellConfig => true
  | .procConfig proc => procInRange proc
  | .procFlush proc => procInRange proc
  | .puschTx proc _ _ mod sf _ _ _ => procInRange proc && modInRange mod && sfInRange sf

end Sys2Proof
end

