-- ==== Sys2Proof/Certificates/Slice0/Obligations.lean ====
section
/-! DEFINITION. The statements for the provers, one proposition each; OBLIGATIONS.json names the rules of spec/ they rest on.
The docstring of each says what it states. -/

section Statements

open Sys2Proof Sys2Proof.Machine

/-- Decoding the encoded word of any command gives that command back (30_encoding.md R110, R111, R113). -/
def Obligations.DecodeEncode : Prop :=
  ∀ i : Instr, decode (encode i) = .ok i

/-- A word that decodes is the encoding of what it decodes to (30_encoding.md R112, R113, R115). -/
def Obligations.EncodeDecode : Prop :=
  ∀ (w : Word) (i : Instr), decode w = .ok i → encode i = w

/-- The words written out in the spec decode to the commands they stand for (30_encoding.md R130, 40_commands.md R150,
R152, R154, R156). -/
def Obligations.DecodeSpecWords : Prop :=
  decode 0x00000000 = .ok .nop ∧
  decode 0x01000000 = .ok .cellConfig ∧
  decode 0x02200000 = .ok (.procConfig 2) ∧
  decode 0x03700000 = .ok (.procFlush 7) ∧
  decode 0x10020000 = .ok (.puschTx 0 0 true 0 0 false false false) ∧
  decode 0x10165200 = .ok (.puschTx 1 1 true 1 4 true false false) ∧
  decode 0x107CA780 = .ok (.puschTx 7 3 false 2 9 true true true)

/-- A word with a reserved opcode, a nonzero unused bit or an out-of-range field fails with InvalidConfiguration
(R112, R114). -/
def Obligations.IllegalWordFails : Prop :=
  ∀ (s : State) (w : Word), s.turns = [] → s.pending = some w → IllegalWord w →
    step s = .next (s.recorded (w.extractLsb' 24 8) (w.extractLsb' 20 4) .invalidConfiguration)

/-- Every word that no rule makes illegal decodes to a well-formed command (30_encoding.md R112, R113, R114, R115). -/
def Obligations.LegalWordDecodes : Prop :=
  ∀ w : Word, ¬ IllegalWord w ↔ ∃ i, decode w = .ok i ∧ i.wellFormed = true

/-- A step of the PTC runs the decoded pending command (20_memory.md R90, 30_encoding.md R115). -/
def Obligations.StepRunsDecoded : Prop :=
  ∀ (s : State) (w : Word) (i : Instr), decode w = .ok i → i.wellFormed = true →
    (s.pending = some w → s.turns = [] → step s = exec i s) ∧
    (∀ rest, s.pending = some w → s.turns = .ptc :: rest → step s = exec i { s with turns := rest }) ∧
    step (s.withFetchWord 32 w.toNat) = exec i (s.withFetchWord 32 w.toNat)

/-- Every completed command leaves the epilogue of R149 (R149). -/
def Obligations.CompletionEpilogue : Prop :=
  ∀ (s t : State) (w : Word), s.turns = [] → s.pending = some w → step s = .next t →
    t.status.lastOp = w.extractLsb' 24 8 ∧ t.status.lastProc = w.extractLsb' 20 4 ∧
    t.pending = none ∧ t.statusWord.getLsbD 0 = false ∧ t.status.cmdDropped = s.status.cmdDropped ∧
    (t.status.err ≠ .ok → t = s.recorded (w.extractLsb' 24 8) (w.extractLsb' 20 4) t.status.err)

/-- A failing command changes no register, cell field, slot, memory or length register (R404, R405). -/
def Obligations.FailureIsPrecise : Prop :=
  ∀ (i : Instr) (s t : State), exec i s = .next t → t.status.err ≠ .ok →
    t.regs = s.regs ∧ t.lens = s.lens ∧ t.cell = s.cell ∧ (∀ p : Fin 8, t.slot p = s.slot p) ∧ t.mem = s.mem ∧
    (∀ a, t.mem.byteAt a = s.mem.byteAt a ∧ t.mem.markAt a = s.mem.markAt a) ∧
    t.status.cmdDropped = s.status.cmdDropped ∧ t.draws = s.draws ∧ t.turns = s.turns ∧ t.readData = s.readData

/-- NOP completes with OK and changes nothing else; a NOP word with another bit set fails (R150). -/
def Obligations.NopCompletes : Prop :=
  (∀ s : State, exec .nop s = .next (s.recorded 0x00 0 .ok)) ∧
  ∀ (s : State) (w : Word), s.turns = [] → s.pending = some w → w.extractLsb' 24 8 = 0x00 → w ≠ 0x00000000 →
    step s = .next (s.recorded 0x00 (w.extractLsb' 20 4) .invalidConfiguration)

/-- CELL_CONFIG latches legal fields once per reset, and fails otherwise (R152). -/
def Obligations.CellConfigCompletes : Prop :=
  (∀ (s : State) (ports : PortCount) (nRb : Bandwidth), s.cell.configured = false →
    (s.inputs.regs.cellCfg.extractLsb' 0 9).toNat ≤ 503 →
    (s.inputs.regs.cellCfg.extractLsb' 10 2).toNat = (match ports with | .one => 0 | .two => 1 | .four => 2) →
    (s.inputs.regs.cellCfg.extractLsb' 16 7).toNat = nRb.nRb →
    ∃ t, exec .cellConfig s = .next t ∧ t.statusWord.getLsbD 1 = true ∧
      t = { s.recorded 0x01 0 .ok with
            cell := { configured := true, cellId := s.inputs.regs.cellCfg.extractLsb' 0 9,
                      cp := if s.inputs.regs.cellCfg.getLsbD 9 then .extended else .normal,
                      nPorts := ports, nRb := nRb } }) ∧
  (∀ s : State,
    (s.cell.configured = true ∨ 503 < (s.inputs.regs.cellCfg.extractLsb' 0 9).toNat ∨
      (s.inputs.regs.cellCfg.extractLsb' 10 2).toNat = 3 ∨
      (s.inputs.regs.cellCfg.extractLsb' 16 7).toNat ∉ [6, 15, 25, 50, 75, 100]) →
    exec .cellConfig s = .next (s.recorded 0x01 0 .invalidConfiguration)) ∧
  ∀ (s : State) (w : Word), s.turns = [] → s.pending = some w → w.extractLsb' 24 8 = 0x01 → w ≠ 0x01000000 →
    step s = .next (s.recorded 0x01 (w.extractLsb' 20 4) .invalidConfiguration)

/-- PROC_CONFIG re-declares the allocation width of its slot and nothing else, or fails (R154). -/
def Obligations.ProcConfigCompletes : Prop :=
  (∀ (s : State) (proc : BitVec 4) (p : Fin 8), p.val = proc.toNat → s.cell.configured = true →
    AllocLegal s.inputs.regs.alloc s.cell →
    exec (.procConfig proc) s =
      .next ((s.setSlot p { s.slot p with nprbDecl := s.inputs.regs.alloc.extractLsb' 8 7 }).recorded 0x02 proc .ok)) ∧
  (∀ (s : State) (proc : BitVec 4),
    (8 ≤ proc.toNat ∨ s.cell.configured = false ∨ ¬ AllocLegal s.inputs.regs.alloc s.cell) →
    exec (.procConfig proc) s = .next (s.recorded 0x02 proc .invalidConfiguration)) ∧
  ∀ (s : State) (w : Word), s.turns = [] → s.pending = some w → w.extractLsb' 24 8 = 0x02 →
    w &&& 0xFF0FFFFF ≠ 0x02000000 →
    step s = .next (s.recorded 0x02 (w.extractLsb' 20 4) .invalidConfiguration)

/-- PROC_FLUSH ends its process and touches no other slot, or fails (R156). -/
def Obligations.ProcFlushCompletes : Prop :=
  (∀ (s : State) (proc : BitVec 4) (p : Fin 8), p.val = proc.toNat →
    ∃ t, exec (.procFlush proc) s = .next t ∧ (t.slot p).init = false ∧
      (∀ q : Fin 8, q ≠ p → t.slot q = s.slot q) ∧
      t = { s.recorded 0x03 proc .ok with procs := t.procs }) ∧
  (∀ (s : State) (proc : BitVec 4), 8 ≤ proc.toNat →
    exec (.procFlush proc) s = .next (s.recorded 0x03 proc .invalidConfiguration)) ∧
  ∀ (s : State) (w : Word), s.turns = [] → s.pending = some w → w.extractLsb' 24 8 = 0x03 →
    w &&& 0xFF0FFFFF ≠ 0x03000000 →
    step s = .next (s.recorded 0x03 (w.extractLsb' 20 4) .invalidConfiguration)

/-- An initial transmission completes: the slot, the LEN registers and the written bytes it leaves (R158, R160, R171,
R172, R175, R177, R100, R45, R46, R47, R48). That the pad bits of BITS_MEM's last byte are marked written is log 13
(DEDUCED). -/
def Obligations.PuschTxInitialCompletes : Prop :=
  ∀ (s : State) (proc : BitVec 4) (rv : BitVec 2) (mod : BitVec 2) (sf : BitVec 4) (dg db dh : Bool) (p : Fin 8)
    (m : Modulation),
    p.val = proc.toNat → modulationOf mod = some m → s.TxLegal proc true mod sf → s.ControlFits p true m →
    s.DataFits p true m → s.InputsWritten true →
    ∃ (t : State) (payload : List Bool),
      exec (.puschTx proc rv true mod sf dg db dh) s = .next t ∧
      payload.length = tbLenOf s.inputs.regs.tbLen ∧
      (∀ i, i < payload.length → s.inputs.mem.bitAt BitMem.tb.base i = some (payload.getD i false)) ∧
      t.slot p =
        { init := true, rv := rv, mcs := mcsOf s.inputs.regs.tbSize, mod := m, b := tbSizeOf s.inputs.regs.tbSize,
          rbStart := rbStartOf s.inputs.regs.alloc, nprbDecl := nPrbOf s.inputs.regs.alloc,
          seg := segmentation (tbSizeOf s.inputs.regs.tbSize),
          w := (tbEncode (segmentation (tbSizeOf s.inputs.regs.tbSize)) payload).map circularBuffer,
          mscInit := 12 * (nPrbOf s.inputs.regs.alloc).toNat, nsymbInit := s.cell.cp.nSymbPusch,
          sumK := (segmentation (tbSizeOf s.inputs.regs.tbSize)).sumK } ∧
      (∀ q : Fin 8, q ≠ p → t.slot q = s.slot q) ∧
      t.status = { cmdDropped := s.status.cmdDropped, err := .ok, lastOp := 0x10, lastProc := proc } ∧
      t.regs = s.regs ∧ t.cell = s.cell ∧ t.pending = none ∧ t.raced = none ∧ t.turns = s.turns ∧
      t.readData = s.readData ∧
      t.lens.wave.toNat = 15 * s.cell.nRb.nfft ∧
      (if db then t.lens.bits.toNat = (s.sizesOf p true m).g else t.lens.bits = s.lens.bits) ∧
      (if dh then t.lens.harq.toNat =
          ((segmentation (tbSizeOf s.inputs.regs.tbSize)).blockSizes.map fun k => 3 * kPi k).sum
        else t.lens.harq = s.lens.harq) ∧
      (if dg then t.lens.grid.toNat = 12 * s.cell.nRb.nRb * 2 * s.cell.cp.nSymb else t.lens.grid = s.lens.grid) ∧
      ∀ a,
        (¬ writesByte s.cell (s.sizesOf p true m).g
            ((segmentation (tbSizeOf s.inputs.regs.tbSize)).blockSizes.map fun k => 3 * kPi k).sum dg db dh a →
          t.mem.byteAt a = s.mem.byteAt a ∧ t.mem.markAt a = s.mem.markAt a) ∧
        (writesByte s.cell (s.sizesOf p true m).g
            ((segmentation (tbSizeOf s.inputs.regs.tbSize)).blockSizes.map fun k => 3 * kPi k).sum dg db dh a →
          t.mem.markAt a = 0xFF)

/-- A retransmission completes: it sends from the slot's unchanged buffers and changes only rv, mod and rb_start of
the slot (R158, R160, R163, R164, R170, R172, R175, R177, R100, R256). That the pad bits of BITS_MEM's last byte are
marked written is log 13 (DEDUCED). -/
def Obligations.PuschTxRetransmissionCompletes : Prop :=
  ∀ (s : State) (proc : BitVec 4) (rv : BitVec 2) (mod : BitVec 2) (sf : BitVec 4) (dg db dh : Bool) (p : Fin 8)
    (m : Modulation),
    p.val = proc.toNat → modulationOf mod = some m → s.TxLegal proc false mod sf →
    (s.slot p).init = true → nPrbOf s.inputs.regs.alloc = (s.slot p).nprbDecl →
    (s.slot p).legal → (s.slot p).buffersFit →
    s.ControlFits p false m → s.DataFits p false m → s.InputsWritten false →
    ∃ t : State,
      exec (.puschTx proc rv false mod sf dg db dh) s = .next t ∧
      t.slot p = { s.slot p with rv := rv, mod := m, rbStart := rbStartOf s.inputs.regs.alloc } ∧
      (∀ q : Fin 8, q ≠ p → t.slot q = s.slot q) ∧
      t.status = { cmdDropped := s.status.cmdDropped, err := .ok, lastOp := 0x10, lastProc := proc } ∧
      t.regs = s.regs ∧ t.cell = s.cell ∧ t.pending = none ∧ t.raced = none ∧ t.turns = s.turns ∧
      t.readData = s.readData ∧
      t.lens.wave.toNat = 15 * s.cell.nRb.nfft ∧
      (if db then t.lens.bits.toNat = (s.sizesOf p false m).g else t.lens.bits = s.lens.bits) ∧
      (if dh then t.lens.harq.toNat = (s.slot p).w.flatten.length else t.lens.harq = s.lens.harq) ∧
      (if dg then t.lens.grid.toNat = 12 * s.cell.nRb.nRb * 2 * s.cell.cp.nSymb else t.lens.grid = s.lens.grid) ∧
      (db = true → ∀ i b,
        (rateMatch (s.slot p).w (s.sizesOf p false m).e rv.toNat)[i]? = some b → t.mem.bitAt 0x40000 i = some b) ∧
      (dh = true → ∀ n e, (s.slot p).w.flatten[n]? = some e →
        t.mem.byteAt (0x80000 + n) = (match e with | some false => 0x00 | some true => 0x01 | none => 0xFF)) ∧
      ∀ a,
        (¬ writesByte s.cell (s.sizesOf p false m).g (s.slot p).w.flatten.length dg db dh a →
          t.mem.byteAt a = s.mem.byteAt a ∧ t.mem.markAt a = s.mem.markAt a) ∧
        (writesByte s.cell (s.sizesOf p false m).g (s.slot p).w.flatten.length dg db dh a →
          t.mem.markAt a = 0xFF)

/-- A PUSCH_TX with any illegal operand fails with InvalidConfiguration before any other check (R159). -/
def Obligations.PuschTxValidation : Prop :=
  ∀ (s : State) (w : Word), s.turns = [] → s.pending = some w → w.extractLsb' 24 8 = 0x10 →
    (w &&& 0x0001007F ≠ 0 ∨
      ¬ s.TxLegal (w.extractLsb' 20 4) (w.getLsbD 17) (w.extractLsb' 14 2) (w.extractLsb' 10 4)) →
    step s = .next (s.recorded 0x10 (w.extractLsb' 20 4) .invalidConfiguration)

/-- A retransmission fails on an empty slot or another width; an initial transmission never does (R163, R164). -/
def Obligations.RetransmissionChecks : Prop :=
  (∀ (s : State) (proc : BitVec 4) (rv : BitVec 2) (mod : BitVec 2) (sf : BitVec 4) (dg db dh : Bool) (p : Fin 8),
    p.val = proc.toNat → s.TxLegal proc false mod sf → (s.slot p).init = false →
    exec (.puschTx proc rv false mod sf dg db dh) s = .next (s.recorded 0x10 proc .processNotInitialized)) ∧
  (∀ (s : State) (proc : BitVec 4) (rv : BitVec 2) (mod : BitVec 2) (sf : BitVec 4) (dg db dh : Bool) (p : Fin 8),
    p.val = proc.toNat → s.TxLegal proc false mod sf → (s.slot p).init = true →
    nPrbOf s.inputs.regs.alloc ≠ (s.slot p).nprbDecl →
    exec (.puschTx proc rv false mod sf dg db dh) s = .next (s.recorded 0x10 proc .allocationMismatch)) ∧
  ∀ (s t : State) (proc : BitVec 4) (rv : BitVec 2) (mod : BitVec 2) (sf : BitVec 4) (dg db dh : Bool),
    exec (.puschTx proc rv true mod sf dg db dh) s = .next t →
    t.status.err ≠ .processNotInitialized ∧ t.status.err ≠ .allocationMismatch

/-- Control budgets above the allocation are ControlOverflow; too few data bits are AllocationTooSmall (R166, R167). A
payload never written stops the run first: log 10 (DEDUCED), with R257 and R321. -/
def Obligations.CapacityChecks : Prop :=
  (∀ (s : State) (proc : BitVec 4) (rv : BitVec 2) (ndi : Bool) (mod : BitVec 2) (sf : BitVec 4) (dg db dh : Bool)
    (p : Fin 8) (m : Modulation),
    p.val = proc.toNat → modulationOf mod = some m → s.TxLegal proc ndi mod sf →
    (ndi = false → (s.slot p).init = true ∧ nPrbOf s.inputs.regs.alloc = (s.slot p).nprbDecl) → s.PayloadWritten ndi →
    (¬ s.ControlFits p ndi m →
      exec (.puschTx proc rv ndi mod sf dg db dh) s = .next (s.recorded 0x10 proc .controlOverflow)) ∧
    (s.ControlFits p ndi m → ¬ s.DataFits p ndi m →
      exec (.puschTx proc rv ndi mod sf dg db dh) s = .next (s.recorded 0x10 proc .allocationTooSmall))) ∧
  ∀ (s : State) (proc : BitVec 4) (ndi : Bool) (mod : BitVec 2) (sf : BitVec 4) (p : Fin 8) (m : Modulation),
    s.TxLegal proc ndi mod sf → (ndi = false → (s.slot p).init = true ∧ (s.slot p).legal) →
    (s.sizesOf p ndi m).g = 0 → ¬ s.DataFits p ndi m

/-- PUSCH_TX reports the first violated condition in the order of R402 (R402). A payload never written stops the run
before the last two checks: log 10. -/
def Obligations.ErrorPriority : Prop :=
  ∀ (s t : State) (proc : BitVec 4) (rv : BitVec 2) (ndi : Bool) (mod : BitVec 2) (sf : BitVec 4) (dg db dh : Bool),
    exec (.puschTx proc rv ndi mod sf dg db dh) s = .next t →
    (t.status.err = .invalidConfiguration ↔ ¬ s.TxLegal proc ndi mod sf) ∧
    ∀ (p : Fin 8) (m : Modulation), p.val = proc.toNat → modulationOf mod = some m → s.TxLegal proc ndi mod sf →
      (t.status.err = .processNotInitialized ↔ ndi = false ∧ (s.slot p).init = false) ∧
      ((ndi = false → (s.slot p).init = true) →
        (t.status.err = .allocationMismatch ↔ ndi = false ∧ nPrbOf s.inputs.regs.alloc ≠ (s.slot p).nprbDecl)) ∧
      ((ndi = false → (s.slot p).init = true ∧ nPrbOf s.inputs.regs.alloc = (s.slot p).nprbDecl) →
        (t.status.err = .controlOverflow ↔ ¬ s.ControlFits p ndi m) ∧
        (s.ControlFits p ndi m → (t.status.err = .allocationTooSmall ↔ ¬ s.DataFits p ndi m)) ∧
        (s.ControlFits p ndi m → s.DataFits p ndi m → s.slotsLegal → s.buffersFit → t.status.err = .ok))

/-- No PUSCH_TX ever completes with InvalidBitLength: the modulator's input is M_sc·N_symb·Q_m bits (R168). -/
def Obligations.InvalidBitLengthNever : Prop :=
  ∀ (s : State) (cmd : TxCommand), s.slotsLegal → s.buffersFit →
    (∀ t, runPuschTx cmd s = .next t → t.status.err ≠ .invalidBitLength) ∧
    ∀ (plan : TxPlan) (bits : TxBits), puschPlan cmd s = .ok plan → readTxBits cmd.ndi s.inputs = some bits →
      (txScrambled cmd.sf s.inputs.regs s.cell plan bits
        (rateMatch (txBuffers cmd.ndi plan.src.seg bits.tb (s.slot plan.target.p)) plan.sizes.e cmd.rv.toNat)).length =
        plan.target.m.order * (12 * (nPrbOf s.inputs.regs.alloc).toNat * s.cell.cp.nSymbPusch)

/-- A PUSCH_TX that needs an input bit never written stops the run (R99, R444, R160). Where the bits are read among
the checks is log 10 (DEDUCED). -/
def Obligations.UnwrittenInputFaults : Prop :=
  ∀ (s : State) (proc : BitVec 4) (rv : BitVec 2) (ndi : Bool) (mod : BitVec 2) (sf : BitVec 4) (dg db dh : Bool)
    (p : Fin 8) (m : Modulation),
    p.val = proc.toNat → modulationOf mod = some m → s.TxLegal proc ndi mod sf →
    (ndi = false → (s.slot p).init = true ∧ nPrbOf s.inputs.regs.alloc = (s.slot p).nprbDecl) →
    (¬ s.PayloadWritten ndi → exec (.puschTx proc rv ndi mod sf dg db dh) s = .fault .neverWrittenInput) ∧
    (s.ControlFits p ndi m → s.DataFits p ndi m → ¬ s.InputsWritten ndi →
      exec (.puschTx proc rv ndi mod sf dg db dh) s = .fault .neverWrittenInput)

/-- PUSCH_TX depends only on its word, the registers and input bits it reads, CELL and its slot (R173, R99, R158,
R329, R216). -/
def Obligations.PuschTxDeterminism : Prop :=
  ∀ (s₁ s₂ t₁ t₂ : State) (cmd : TxCommand),
    s₁.slotsLegal → s₁.buffersFit → s₁.cell = s₂.cell →
    s₁.inputs.regs.alloc = s₂.inputs.regs.alloc → s₁.inputs.regs.uciLen = s₂.inputs.regs.uciLen →
    s₁.inputs.regs.betaAck = s₂.inputs.regs.betaAck → s₁.inputs.regs.betaRi = s₂.inputs.regs.betaRi →
    s₁.inputs.regs.betaCqi = s₂.inputs.regs.betaCqi → s₁.inputs.regs.rnti = s₂.inputs.regs.rnti →
    (cmd.ndi = true →
      s₁.inputs.regs.tbSize = s₂.inputs.regs.tbSize ∧ s₁.inputs.regs.tbLen = s₂.inputs.regs.tbLen ∧
      ∀ i, i < tbLenOf s₁.inputs.regs.tbLen →
        s₁.inputs.mem.bitAt BitMem.tb.base i = s₂.inputs.mem.bitAt BitMem.tb.base i) →
    (∀ i, i < oCqiOf s₁.inputs.regs.uciLen →
      s₁.inputs.mem.bitAt BitMem.cqi.base i = s₂.inputs.mem.bitAt BitMem.cqi.base i) →
    (∀ i, i < oRiOf s₁.inputs.regs.uciLen →
      s₁.inputs.mem.bitAt BitMem.ri.base i = s₂.inputs.mem.bitAt BitMem.ri.base i) →
    (∀ i, i < oAckOf s₁.inputs.regs.uciLen →
      s₁.inputs.mem.bitAt BitMem.ack.base i = s₂.inputs.mem.bitAt BitMem.ack.base i) →
    (∀ p : Fin 8, p.val = cmd.proc.toNat → s₁.slot p = s₂.slot p) →
    runPuschTx cmd s₁ = .next t₁ → runPuschTx cmd s₂ = .next t₂ →
    t₁.status.err = t₂.status.err ∧
    (∀ p : Fin 8, p.val = cmd.proc.toNat → t₁.slot p = t₂.slot p) ∧
    (t₁.status.err = .ok →
      t₁.lens.wave = t₂.lens.wave ∧
      (∃ (plan : TxPlan) (bits : TxBits) (out : TxResult),
        puschPlan cmd s₁ = .ok plan ∧ puschPlan cmd s₂ = .ok plan ∧
        readTxBits cmd.ndi s₁.inputs = some bits ∧ readTxBits cmd.ndi s₂.inputs = some bits ∧
        txPipeline cmd s₁.inputs.regs s₁.cell plan bits
          (txBuffers cmd.ndi plan.src.seg bits.tb (s₁.slot plan.target.p)) = .ok out ∧
        txPipeline cmd s₂.inputs.regs s₂.cell plan bits
          (txBuffers cmd.ndi plan.src.seg bits.tb (s₂.slot plan.target.p)) = .ok out) ∧
      (cmd.dumpBits = true → t₁.lens.bits = t₂.lens.bits ∧
        ∀ i, i < t₁.lens.bits.toNat → t₁.mem.bitAt BitMem.bits.base i = t₂.mem.bitAt BitMem.bits.base i) ∧
      (cmd.dumpHarq = true → t₁.lens.harq = t₂.lens.harq ∧
        ∀ n, n < t₁.lens.harq.toNat →
          t₁.mem.byteAt (0x80000 + n) = t₂.mem.byteAt (0x80000 + n)))

/-- WAVE_MEM and a grid dump hold finite samples within EPS_SAMPLE of the exact values of the pipeline (R88, R82,
R100, R175, R381, R361, R369). The open format is log 8 (DESIGN CHOICE), the value of a binary32 word log 18
(PRESUMED). -/
def Obligations.StoredSamplesAreExact : Prop :=
  ∀ (s t : State) (cmd : TxCommand), s.cell.legal → s.slotsLegal → s.buffersFit → s.slotsFilled →
    runPuschTx cmd s = .next t → t.status.err = .ok →
    ∃ (plan : TxPlan) (bits : TxBits) (out : TxResult),
      puschPlan cmd s = .ok plan ∧ readTxBits cmd.ndi s.inputs = some bits ∧
      txPipeline cmd s.inputs.regs s.cell plan bits
        (txBuffers cmd.ndi plan.src.seg bits.tb (s.slot plan.target.p)) = .ok out ∧
      out.wave.length = 15 * s.cell.nRb.nfft ∧
      (∀ n x, out.wave[n]? = some x → t.mem.holdsSample 0x200000 n (.wave x)) ∧
      (cmd.dumpGrid = true →
        out.grid.length = 2 * s.cell.cp.nSymb ∧
        ∀ l k column g, out.grid[l]? = some column → column[k]? = some g →
          column.length = 12 * s.cell.nRb.nRb ∧
          t.mem.holdsSample 0x100000 (l * (12 * s.cell.nRb.nRb) + k) (.grid g))

/-- With DUMP_BITS, BITS_MEM holds the G rate-matched bits, the unused bits of the last byte 0 (R46, R81, R175, R252,
R253). -/
def Obligations.RateMatchedBitsDump : Prop :=
  ∀ (s t : State) (cmd : TxCommand), s.slotsLegal → s.buffersFit → cmd.dumpBits = true →
    runPuschTx cmd s = .next t → t.status.err = .ok →
    ∃ (plan : TxPlan) (bits : TxBits) (f : List Bool),
      puschPlan cmd s = .ok plan ∧ readTxBits cmd.ndi s.inputs = some bits ∧
      f = rateMatch (txBuffers cmd.ndi plan.src.seg bits.tb (s.slot plan.target.p)) plan.sizes.e cmd.rv.toNat ∧
      f.length = plan.sizes.g ∧ t.lens.bits.toNat = plan.sizes.g ∧
      (∀ i b, f[i]? = some b → t.mem.bitAt 0x40000 i = some b) ∧
      ∀ i, plan.sizes.g ≤ i → i < 8 * ((plan.sizes.g + 7) / 8) →
        (t.mem.byteAt (0x40000 + i / 8)).getLsbD (7 - i % 8) = false

/-- With DUMP_HARQ, HARQ_MEM holds the slot's circular buffers, one byte per entry (R83). -/
def Obligations.HarqDumpEncoding : Prop :=
  ∀ (s t : State) (cmd : TxCommand) (p : Fin 8), s.slotsLegal → s.buffersFit → cmd.dumpHarq = true →
    p.val = cmd.proc.toNat → runPuschTx cmd s = .next t → t.status.err = .ok →
    (t.slot p).w.map List.length = ((t.slot p).seg.blockSizes.map fun k => 3 * kPi k) ∧
    t.lens.harq.toNat = (t.slot p).w.flatten.length ∧
    ∀ n e, (t.slot p).w.flatten[n]? = some e →
      t.mem.byteAt (0x80000 + n) = (match e with | some false => 0x00 | some true => 0x01 | none => 0xFF) ∧
      t.mem.markAt (0x80000 + n) = 0xFF

/-- No command touches a slot other than the one its PROC field names (R52). -/
def Obligations.OtherSlotsUntouched : Prop :=
  (∀ (i : Instr) (s t : State) (q : Fin 8), exec i s = .next t → q.val ≠ i.procBits.toNat → t.slot q = s.slot q) ∧
  ∀ (i : Instr) (s t : State) (q : Fin 8), (i = .nop ∨ i = .cellConfig) → exec i s = .next t → t.slot q = s.slot q

/-- What commands leave unchanged: argument registers, CMD_DROPPED, CELL and, but for PUSCH_TX, memory and LEN
registers (R49, R50, R89, R35, R150, R152, R154, R156). -/
def Obligations.CommandFrame : Prop :=
  ∀ (i : Instr) (s t : State), exec i s = .next t →
    t.regs = s.regs ∧ t.status.cmdDropped = s.status.cmdDropped ∧ t.turns = s.turns ∧ t.readData = s.readData ∧
    (i ≠ .cellConfig → t.cell = s.cell) ∧
    (i.opcode ≠ 0x10 → t.lens = s.lens ∧ t.mem = s.mem ∧ t.draws = s.draws ∧
      ∀ a, t.mem.byteAt a = s.mem.byteAt a ∧ t.mem.markAt a = s.mem.markAt a) ∧
    (i = .nop ∨ i = .cellConfig → t.procs = s.procs)

/-- Only the events the spec names create, end, refill or re-declare a process (R55, R58, R443, R258). -/
def Obligations.SlotLifetime : Prop :=
  ∀ (s t : State) (p : Fin 8), step s = .next t →
    ((s.slot p).init = false → (t.slot p).init = true → InitialTransmissionOn s t p) ∧
    ((s.slot p).init = true → (t.slot p).init = false →
      CompletesOn s t 0x03 p ∨ (∃ rest, s.turns = .hardwareReset :: rest) ∨
        ∃ rest data, s.turns = .host (.write .w32 0x004 data) :: rest ∧ data.getLsbD 0 = true) ∧
    ((t.slot p).init = true → (t.slot p).w ≠ (s.slot p).w → InitialTransmissionOn s t p) ∧
    ((t.slot p).init = true → (t.slot p).nprbDecl ≠ (s.slot p).nprbDecl →
      InitialTransmissionOn s t p ∨ CompletesOn s t 0x02 p)

/-- Every step keeps the machine's invariant (R32, R45, R46, R47, R48, R50, R53, R54, R244, R444, R245). -/
def Obligations.StepKeepsInvariant : Prop :=
  ∀ s t : State, s.Inv → s.slotsLegal → s.buffersFit → step s = .next t →
    t.Inv ∧ t.slotsLegal ∧ t.buffersFit ∧ (s.slotsFilled → t.slotsFilled)

/-- The state after reset meets the machine's invariant (R62, R440). -/
def Obligations.ResetMeetsInvariant : Prop :=
  State.reset.Inv ∧ State.reset.slotsLegal ∧ State.reset.buffersFit ∧ State.reset.slotsFilled

/-- A hardware reset leaves registers 0, CELL and every slot uninitialised, nothing pending and nothing written
(R440). -/
def Obligations.HardwareReset : Prop :=
  ∀ t : State, (t = State.reset ∨ ∃ s rest, s.turns = .hardwareReset :: rest ∧ step s = .next t) →
    (∀ r : ArgReg, t.regs.get r = 0) ∧ t.statusWord = 0 ∧
    t.lens.wave = 0 ∧ t.lens.bits = 0 ∧ t.lens.harq = 0 ∧ t.lens.grid = 0 ∧
    t.plainReg 0x000 = Config.ptcId ∧
    t.cell.configured = false ∧ (∀ p : Fin 8, (t.slot p).init = false) ∧ t.pending = none ∧ t.raced = none ∧
    ∀ a, t.mem.markAt a = 0

/-- The CRC parity bits are the unique ones that make the polynomial divisible by the generator (R201, R203). -/
def Obligations.CrcParityIsTheRemainder : Prop :=
  ∀ g ∈ crcGenerators, ∀ a : List Bool,
    (crcParity g.2.1 g.2.2 a).length = g.2.2 ∧
    termsPoly g.1 ∣ bitsPoly (a ++ crcParity g.2.1 g.2.2 a) ∧
    ∀ p : List Bool, p.length = g.2.2 → termsPoly g.1 ∣ bitsPoly (a ++ p) → p = crcParity g.2.1 g.2.2 a

/-- The segmentation parameters of every legal transport-block size (R205). -/
def Obligations.SegmentationSizes : Prop :=
  ∀ b, 25 ≤ b → b ≤ 75400 →
    let seg := segmentation b
    let b' := b + seg.c * seg.l
    seg.l = (if b ≤ 6144 then 0 else 24) ∧ seg.c = (if b ≤ 6144 then 1 else ⌈(b : ℚ) / (6144 - 24)⌉₊) ∧
    (if b ≤ 6144 then b' = b else b' = b + seg.c * 24) ∧
    seg.kPlus ∈ kTable ∧ b' ≤ seg.c * seg.kPlus ∧ (∀ k ∈ kTable, b' ≤ seg.c * k → seg.kPlus ≤ k) ∧
    (seg.c = 1 → seg.cPlus = 1 ∧ seg.kMinus = 0 ∧ seg.cMinus = 0) ∧
    (seg.c ≠ 1 → seg.kMinus ∈ kTable ∧ seg.kMinus < seg.kPlus ∧ (∀ k ∈ kTable, k < seg.kPlus → k ≤ seg.kMinus) ∧
      seg.cMinus = (seg.c * seg.kPlus - b') / (seg.kPlus - seg.kMinus)) ∧
    seg.cPlus + seg.cMinus = seg.c ∧ seg.cPlus * seg.kPlus + seg.cMinus * seg.kMinus = b' + seg.f ∧
    ∀ r, r < seg.c → seg.blockSize r = (if r < seg.cMinus then seg.kMinus else seg.kPlus)

/-- Code blocks hold every bit of the transport block once, in order, behind the filler and before the block CRC
(R207). -/
def Obligations.SegmentationPlacesEveryBit : Prop :=
  ∀ b : List Bool, 25 ≤ b.length → b.length ≤ 75400 →
    let seg := segmentation b.length
    (codeBlocks seg b).length = seg.c ∧
    ∃ data : List (List Bool), data.length = seg.c ∧ data.flatten = b ∧
      ∀ r block d, (codeBlocks seg b)[r]? = some block → data[r]? = some d →
        block.length = seg.blockSize r ∧
        block = List.replicate (if r = 0 then seg.f else 0) none ++ d.map some ++
          (if seg.c > 1 then
            (crcParity 0x1800063 24 (List.replicate (if r = 0 then seg.f else 0) false ++ d)).map some
          else [])

/-- Every row of the QPP table permutes the positions of its block (R212, R215). -/
def Obligations.QppIsAPermutation : Prop :=
  ∀ k ∈ kTable,
    ((List.range k).map fun i => ((qppFor k).1 * i + (qppFor k).2 * i * i) % k).Perm (List.range k) ∧
    ∀ bits : List Bool, bits.length = k → ∀ i, i < k →
      (qppInterleave bits)[i]? = bits[((qppFor k).1 * i + (qppFor k).2 * i * i) % k]?

/-- The turbo encoder runs the two encoders of R211 and lays out the streams of R213, NULL taken as 0 and hidden in d0
and d1 (R210, R211, R212, R213, R214). -/
def Obligations.TurboFiller : Prop :=
  (∀ blk : List Bool,
    let K := blk.length
    let perm := fun i => ((qppFor K).1 * i + (qppFor K).2 * i * i) % K
    ∃ (x z x' z' : Nat → Bool) (σ σ' : Nat → RscState),
      IsRscRun K (fun k => blk.getD k false) x z σ ∧ IsRscRun K (fun k => blk.getD (perm k) false) x' z' σ' ∧
      (turboEncode (blk.map some)).d0 =
        ((List.range K).map x ++ [x K, z (K + 1), x' K, z' (K + 1)]).map some ∧
      (turboEncode (blk.map some)).d1 =
        ((List.range K).map z ++ [z K, x (K + 2), z' K, x' (K + 2)]).map some ∧
      (turboEncode (blk.map some)).d2 =
        ((List.range K).map z' ++ [x (K + 1), z (K + 2), x' (K + 1), z' (K + 2)]).map some) ∧
  (∀ blk : List Trit,
    let zeroed := turboEncode (blk.map fun t => some (t.getD false))
    let d := turboEncode blk
    d.d0.length = blk.length + 4 ∧ d.d1.length = blk.length + 4 ∧ d.d2.length = blk.length + 4 ∧
    (∀ k, k < blk.length → d.d0[k]? = blk[k]?) ∧
    (∀ k, k < blk.length → d.d1[k]? = (if blk[k]? = some none then some none else zeroed.d1[k]?)) ∧
    (∀ k, blk.length ≤ k → d.d0[k]? = zeroed.d0[k]? ∧ d.d1[k]? = zeroed.d1[k]?) ∧
    d.d2 = zeroed.d2 ∧ none ∉ zeroed.d0 ∧ none ∉ zeroed.d1 ∧ none ∉ d.d2) ∧
  ∀ s : RscState,
    let u₁ := s.s2 ^^ s.s3
    let s₁ := s.step u₁
    let u₂ := s₁.s2 ^^ s₁.s3
    let s₂ := s₁.step u₂
    let u₃ := s₂.s2 ^^ s₂.s3
    rscTail 3 s = [(u₁, s.parity u₁), (u₂, s₁.parity u₂), (u₃, s₂.parity u₃)] ∧ s₂.step u₃ = RscState.zero

/-- A circular buffer holds every coded bit exactly once, and otherwise only NULLs (R241, R243, R244, R245, R242). -/
def Obligations.CircularBufferKeepsBits : Prop :=
  ∀ d : TurboStreams, d.d0.length = d.d1.length → d.d1.length = d.d2.length →
    (circularBuffer d).length = 3 * (32 * ((d.d0.length + 31) / 32)) ∧
    ((circularBuffer d).filterMap id).Perm ((d.d0 ++ d.d1 ++ d.d2).filterMap id)

/-- Rate matching: the block lengths, k0(rv), and a circular read from k0 that skips exactly the NULLs, block by block
(R249, R250, R251, R252). -/
def Obligations.SelectReadsCircularly : Prop :=
  (∀ (w : List Trit) (e k0 : Nat), (∃ b, some b ∈ w) →
    (selectBits w e k0).length = e ∧
    ∃ j : Nat → Nat, StrictMono j ∧
      (∀ k b, (selectBits w e k0)[k]? = some b → w[(k0 + j k) % w.length]? = some (some b)) ∧
      ∀ i, (∀ k, j k ≠ i) → w[(k0 + i) % w.length]? = some none) ∧
  (∀ g qm c : Nat, 0 < qm → 0 < c → g % qm = 0 →
    (blockLengths g qm c).length = c ∧ (blockLengths g qm c).sum = g ∧
    ∀ r, r < c → (blockLengths g qm c)[r]? =
      some (if r + g / qm % c + 1 ≤ c then qm * (g / qm / c) else qm * ⌈((g / qm : ℕ) : ℚ) / c⌉₊)) ∧
  (∀ rows rv : Nat, startOffset rows rv = rows * (24 * rv + 2)) ∧
  ∀ (ws : List (List Trit)) (es : List Nat) (rv : Nat),
    rateMatch ws es rv =
      ((ws.zip es).map fun we => selectBits we.1 we.2 (we.1.length / 96 * (24 * rv + 2))).flatten ∧
    (ws.length = es.length → (∀ w ∈ ws, ∃ b, some b ∈ w) → (rateMatch ws es rv).length = es.sum)

/-- The UCI budgets are the clamped rational ceilings of R272 and R273, and the UCI codes those of R280 to R287 (R272,
R273, R280, R281, R282, R285, R287). -/
def Obligations.BudgetFormulas : Prop :=
  (∀ o mscInit nsymbInit beta sumK msc : Nat,
    qPrimeAckRi o mscInit nsymbInit beta sumK msc =
      if o = 0 then 0 else min ⌈((o * mscInit * nsymbInit * beta : ℕ) : ℚ) / (8 * sumK)⌉₊ (4 * msc)) ∧
  (∀ o mscInit nsymbInit beta sumK msc nsymb qRi : Nat,
    qPrimeCqi o mscInit nsymbInit beta sumK msc nsymb qRi =
      if o = 0 then 0
      else min ⌈(((o + (if o ≤ 11 then 0 else 8)) * mscInit * nsymbInit * beta : ℕ) : ℚ) / (8 * sumK)⌉₊
        (msc * nsymb - qRi)) ∧
  (∀ o : List Bool, o.length ≤ 11 → (rm32 o).length = 32 ∧
    ∀ i, i < 32 → (rm32 o)[i]? =
      some (decide ((∑ n ∈ Finset.range o.length, (o.getD n false).toNat * (rm32Table.getD i []).getD n 0) % 2 = 1))) ∧
  (∀ c : List Bool, 6 ≤ c.length →
    let tap := fun k j => c.getD ((k + c.length - j) % c.length) false
    tbcc c =
      [(List.range c.length).map fun k => tap k 0 ^^ tap k 2 ^^ tap k 3 ^^ tap k 5 ^^ tap k 6,
        (List.range c.length).map fun k => tap k 0 ^^ tap k 1 ^^ tap k 2 ^^ tap k 3 ^^ tap k 6,
        (List.range c.length).map fun k => tap k 0 ^^ tap k 1 ^^ tap k 2 ^^ tap k 4 ^^ tap k 6]) ∧
  (∀ (d0 d1 d2 : List Bool) (q : Nat), d1.length = d0.length → d2.length = d0.length →
    let rows := (d0.length + 31) / 32
    ∃ w : List Trit, w.length = 3 * (32 * rows) ∧ convRateMatch [d0, d1, d2] q = selectBits w q 0 ∧
      ∀ i d, [d0, d1, d2][i]? = some d → ∀ k, k < 32 * rows →
        w[i * (32 * rows) + k]? =
          (List.replicate (32 * rows - d.length) none ++ d.map some)[
            ([1, 17, 9, 25, 5, 21, 13, 29, 3, 19, 11, 27, 7, 23, 15, 31, 0, 16, 8, 24, 4, 20, 12, 28, 2, 18, 10, 26, 6,
              22, 14, 30] : List Nat).getD (k / rows) 0 + 32 * (k % rows)]?) ∧
  (∀ (o : List Bool) (q : Nat),
    (o.length = 0 → encodeCqi o q = []) ∧
    (1 ≤ o.length → o.length ≤ 11 →
      (encodeCqi o q).length = q ∧ ∀ i, i < q → (encodeCqi o q)[i]? = (rm32 o)[i % 32]?) ∧
    (11 < o.length → (encodeCqi o q).length = q ∧ encodeCqi o q = convRateMatch (tbcc (o ++ crcParity 0x19B 8 o)) q)) ∧
  ∀ (o : List Bool) (qm q : Nat),
    let xs := List.replicate (qm - 2) CtlBit.x
    let blk : List CtlBit := match o with
      | [o0] => [CtlBit.bit o0, .y] ++ xs
      | [o0, o1] => [CtlBit.bit o0, .bit o1] ++ xs ++ [.bit (o0 ^^ o1), .bit o0] ++ xs ++
          [.bit o1, .bit (o0 ^^ o1)] ++ xs
      | _ => (rm32 o).map CtlBit.bit
    (o.length = 0 → encodeAckRi o qm q = []) ∧
    (1 ≤ o.length → o.length ≤ 11 → 2 ≤ qm →
      (encodeAckRi o qm q).length = q ∧ ∀ i, i < q → (encodeAckRi o qm q)[i]? = blk[i % blk.length]?)

/-- Budgets never fall and data capacity never rises as a beta offset grows; ACK's beta does not touch G (R275). -/
def Obligations.BudgetsMonotone : Prop :=
  (∀ o mscInit nsymbInit beta beta' sumK msc, beta ≤ beta' →
    qPrimeAckRi o mscInit nsymbInit beta sumK msc ≤ qPrimeAckRi o mscInit nsymbInit beta' sumK msc) ∧
  (∀ o mscInit nsymbInit beta beta' sumK msc nsymb qRi, beta ≤ beta' →
    qPrimeCqi o mscInit nsymbInit beta sumK msc nsymb qRi ≤ qPrimeCqi o mscInit nsymbInit beta' sumK msc nsymb qRi) ∧
  ∀ (src : TxSource) (regs : ArgRegs) (cell : CellConfig) (m : Modulation) (w : Word),
    (betaX8 regs.betaCqi ≤ betaX8 w →
      (txSizes src { regs with betaCqi := w } cell m).g ≤ (txSizes src regs cell m).g) ∧
    (betaX8 regs.betaRi ≤ betaX8 w →
      (txSizes src { regs with betaRi := w } cell m).g ≤ (txSizes src regs cell m).g) ∧
    (txSizes src { regs with betaAck := w } cell m).g = (txSizes src regs cell m).g

/-- Scrambling adds the Gold sequence to bits, turns x into 1 and y into the scrambled bit before it (R325). -/
def Obligations.ScrambleResolvesPlaceholders : Prop :=
  ∀ (h : List CtlBit) (rnti sf cellId : Nat), h[0]? ≠ some .y →
    let c := goldSequence (rnti * 2 ^ 14 + sf * 2 ^ 9 + cellId) h.length
    let out := scramble h rnti sf cellId
    out.length = h.length ∧
    ∀ i, i < h.length →
      (h[i]? = some .x → out[i]? = some true) ∧
      (h[i]? = some .y → 1 ≤ i ∧ out[i]? = out[i - 1]?) ∧
      ∀ b, h[i]? = some (.bit b) → out[i]? = some (b ^^ c.getD i false)

/-- The scrambling sequence is the length-31 Gold sequence of R328 (R328). -/
def Obligations.GoldSequence : Prop :=
  ∀ cInit n : Nat, ∃ x1 x2 : Nat → Bool,
    x1 0 = true ∧ (∀ i, 1 ≤ i → i ≤ 30 → x1 i = false) ∧ (∀ i, i ≤ 30 → x2 i = cInit.testBit i) ∧
    (∀ i, x1 (i + 31) = (x1 (i + 3) ^^ x1 i)) ∧
    (∀ i, x2 (i + 31) = (x2 (i + 3) ^^ x2 (i + 2) ^^ x2 (i + 1) ^^ x2 i)) ∧
    (goldSequence cInit n).length = n ∧
    ∀ i, i < n → (goldSequence cInit n)[i]? = some (x1 (i + 1600) ^^ x2 (i + 1600))

/-- Every RI and ACK vector stands in its own cell of the interleaver matrix, and neither field hits the other (R312,
R313, R314, R316, R319). -/
def Obligations.ControlPlacement : Prop :=
  ∀ (cp : CyclicPrefix) (msc : Nat) (g ri ack : List CtlVector), ri.length ≤ 4 * msc → ack.length ≤ 4 * msc →
    let y := interleaverMatrix cp msc g ri ack
    y.length = msc * cp.nSymbPusch ∧
    (∀ i v, ack[i]? = some v →
      y[(msc - 1 - i / 4) * cp.nSymbPusch +
        (match cp with | .normal => [2, 3, 8, 9] | .extended => [1, 2, 6, 7]).getD (3 * i % 4) 0]? = some v) ∧
    ∀ i v, ri[i]? = some v →
      y[(msc - 1 - i / 4) * cp.nSymbPusch +
        (match cp with | .normal => [1, 4, 7, 10] | .extended => [0, 3, 5, 8]).getD (3 * i % 4) 0]? = some v

/-- CQI and data vectors fill the cells RI left, in linear order (R315). -/
def Obligations.DataPlacement : Prop :=
  ∀ (cp : CyclicPrefix) (msc : Nat) (g ri : List CtlVector), ri.length ≤ 4 * msc →
    g.length + ri.length = msc * cp.nSymbPusch →
    let y := interleaverMatrix cp msc g ri []
    ((List.range (msc * cp.nSymbPusch)).filter fun n =>
        (List.range ri.length).all fun i => controlCell (riColumns cp) cp.nSymbPusch msc i != n).map
      (fun n => y.getD n []) = g

/-- The interleaver reads its matrix column by column: Q_m·M_sc·N_symb elements, placeholders only from ACK or RI
(R311, R317, R318). -/
def Obligations.InterleaverOutput : Prop :=
  ∀ (f qCqi : List Bool) (qRi qAck : List CtlBit) (qm qpCqi qpRi qpAck msc : Nat) (cp : CyclicPrefix), 0 < qm →
    qpCqi + qpRi ≤ msc * cp.nSymbPusch → qpRi ≤ 4 * msc → qpAck ≤ 4 * msc →
    f.length = qm * (msc * cp.nSymbPusch - qpCqi - qpRi) → qCqi.length = qm * qpCqi → qRi.length = qm * qpRi →
    qAck.length = qm * qpAck →
    let h := channelInterleave f qCqi qRi qAck qm qpCqi qpRi qpAck msc cp
    let y := interleaverMatrix cp msc (dataVectors qm qpCqi qCqi f) (vectors qm qpRi qRi) (vectors qm qpAck qAck)
    h.length = qm * (msc * cp.nSymbPusch) ∧ h.length % qm = 0 ∧
    (∀ e ∈ h, (e = .x ∨ e = .y) → e ∈ qAck ∨ e ∈ qRi) ∧
    (∀ c r b, c < cp.nSymbPusch → r < msc → b < qm →
      h[(c * msc + r) * qm + b]? = (y.getD (r * cp.nSymbPusch + c) [])[b]?) ∧
    (dataVectors qm qpCqi qCqi f).length = qpCqi + f.length / qm ∧
    (∀ k b, b < qm →
      (k < qpCqi → ((dataVectors qm qpCqi qCqi f).getD k [])[b]? = (qCqi[qm * k + b]?).map .bit) ∧
      (k < f.length / qm → ((dataVectors qm qpCqi qCqi f).getD (qpCqi + k) [])[b]? = (f[qm * k + b]?).map .bit) ∧
      (k < qpRi → ((vectors qm qpRi qRi).getD k [])[b]? = qRi[qm * k + b]?) ∧
      (k < qpAck → ((vectors qm qpAck qAck).getD k [])[b]? = qAck[qm * k + b]?))

/-- Demapping what Modulate gives returns the bits (R346). -/
def Obligations.ModulationRoundTrip : Prop :=
  ∀ (m : Modulation) (bits : List Bool),
    (bits.length % m.order = 0 →
      ∃ points, modulate m bits = .ok points ∧ points.length = bits.length / m.order ∧
        (points.map (demapPoint m)).flatten = bits) ∧
    (bits.length % m.order ≠ 0 → modulate m bits = .error .invalidBitLength)

/-- Transform precoding keeps the energy of every block (R361, R16). -/
def Obligations.PrecodingIsUnitary : Prop :=
  ∀ (norm : Nat) (block : List Point),
    ∑ k ∈ Finset.range block.length, ‖(GridValue.dft norm block k).value‖ ^ 2 =
      ∑ i ∈ Finset.range block.length, ‖pointValue (block.getD i (0, 0)) / (Real.sqrt norm : ℂ)‖ ^ 2

/-- The grid holds block c at the allocated subcarriers of data symbol c and 0 everywhere else (R364). -/
def Obligations.GridPlacement : Prop :=
  ∀ (norm : Nat) (points : List Point) (rbStart nPrb : Nat) (cell : CellConfig),
    rbStart + nPrb ≤ cell.nRb.nRb → points.length = 12 * nPrb * cell.cp.nSymbPusch →
    let grid := mapToGrid norm points rbStart nPrb cell
    grid.length = 2 * cell.cp.nSymb ∧ (∀ column ∈ grid, column.length = 12 * cell.nRb.nRb) ∧
    (∀ c l k', (match cell.cp with
        | .normal => [0, 1, 2, 4, 5, 6, 7, 8, 9, 11, 12, 13]
        | .extended => [0, 1, 3, 4, 5, 6, 7, 9, 10, 11])[c]? = some l → k' < 12 * nPrb →
      (grid.getD l [])[12 * rbStart + k']? =
        some (.dft norm ((points.drop (12 * nPrb * c)).take (12 * nPrb)) k')) ∧
    (∀ l k, l ∈ (match cell.cp with | .normal => [3, 10] | .extended => [2, 8]) → k < 12 * cell.nRb.nRb →
      (grid.getD l [])[k]? = some .empty) ∧
    ∀ l k, l < 2 * cell.cp.nSymb → k < 12 * cell.nRb.nRb → (k < 12 * rbStart ∨ 12 * (rbStart + nPrb) ≤ k) →
      (grid.getD l [])[k]? = some .empty

/-- The cyclic prefix is the negated last N_CP samples of the symbol body (R383). -/
def Obligations.PrefixIsNegated : Prop :=
  ∀ (scale : Nat → ℝ) (cp : CyclicPrefix) (b : Bandwidth) (l n : Nat) (column : List GridValue),
    column.length = 12 * b.nRb → n < cpLength cp b.nfft l →
    ∃ x y, (symbolSamples cp b.nfft l column)[n]? = some x ∧ (symbolSamples cp b.nfft l column)[n + b.nfft]? = some y ∧
      x.value scale = - y.value scale

/-- A subframe has 15·NFFT samples in both cyclic-prefix modes (R386). -/
def Obligations.WaveformLength : Prop :=
  (∀ (cell : CellConfig) (grid : List (List GridValue)), grid.length = 2 * cell.cp.nSymb →
    (synthesize grid cell).length = 15 * cell.nRb.nfft ∧
    ((List.range (2 * cell.cp.nSymb)).map fun l => cpLength cell.cp cell.nRb.nfft l + cell.nRb.nfft).sum =
      15 * cell.nRb.nfft) ∧
  [Bandwidth.rb6, .rb15, .rb25, .rb50, .rb75, .rb100].map (fun b => 15 * b.nfft) =
    [1920, 3840, 7680, 15360, 23040, 30720]

/-- What the host reads of ID, CTRL, STATUS, CMD and the LEN registers, and which writes to them have no effect (R32,
R33, R34, R35, R37, R45, R46, R47, R48). -/
def Obligations.IdentityAndStatus : Prop :=
  ∀ (s : State) (data : Word),
    (∃ t r, hostAccess (.read .w32 0x000) s = .next t ∧ t.readData = some r ∧ r.value = Config.ptcId) ∧
    hostAccess (.write .w32 0x000 data) s = .next s ∧
    (∃ t r, hostAccess (.read .w32 0x008) s = .next t ∧ t.readData = some r ∧
      r.value.getLsbD 0 = s.pending.isSome ∧ r.value.getLsbD 1 = s.cell.configured ∧
      r.value.getLsbD 2 = s.status.cmdDropped ∧ r.value.getLsbD 3 = false ∧
      (r.value.extractLsb' 4 4).toNat =
        (match s.status.err with
          | .ok => 0 | .invalidConfiguration => 1 | .processNotInitialized => 2 | .allocationTooSmall => 3
          | .allocationMismatch => 4 | .controlOverflow => 5 | .invalidBitLength => 6) ∧
      r.value.extractLsb' 8 8 = s.status.lastOp ∧ r.value.extractLsb' 16 4 = s.status.lastProc ∧
      r.value.extractLsb' 20 12 = 0) ∧
    hostAccess (.write .w32 0x008 data) s =
      .next { s with status := { s.status with cmdDropped := s.status.cmdDropped && !data.getLsbD 2 } } ∧
    (∀ offset ∈ ([0x004, 0x00C] : List Word), hostAccess (.read .w32 offset) s =
      .next { s with readData := some { width := .w32, value := 0, written := 0xFFFFFFFF } }) ∧
    ∀ row ∈ [((0x034 : Word), s.lens.wave), (0x038, s.lens.bits), (0x03C, s.lens.harq), (0x040, s.lens.grid)],
      hostAccess (.write .w32 row.1 data) s = .next s ∧
      (s.pending = none → hostAccess (.read .w32 row.1) s =
        .next { s with readData := some { width := .w32, value := row.2, written := 0xFFFFFFFF } })

/-- A CMD write latches its word when nothing is pending, and is dropped otherwise (R91). -/
def Obligations.CommandWrite : Prop :=
  ∀ (s : State) (w : Word),
    (s.pending = none → hostAccess (.write .w32 0x00C w) s = .next { s with pending := some w, raced := none }) ∧
    (s.pending = none → ∀ t, hostAccess (.write .w32 0x00C w) s = .next t → t.statusWord.getLsbD 0 = true) ∧
    ∀ held, s.pending = some held →
      hostAccess (.write .w32 0x00C w) s = .next { s with status := { s.status with cmdDropped := true } }

/-- A write of 1 to CTRL.SRESET resets everything but the data memories; a write of 0 does nothing (R442). -/
def Obligations.SoftReset : Prop :=
  ∀ (s : State) (data : Word),
    (data.getLsbD 0 = true →
      ∃ t, hostAccess (.write .w32 0x004 data) s = .next t ∧ t.pending = none ∧ t.raced = none ∧
        (∀ r : ArgReg, t.regs.get r = 0) ∧ t.statusWord = 0 ∧
        t.lens.wave = 0 ∧ t.lens.bits = 0 ∧ t.lens.harq = 0 ∧ t.lens.grid = 0 ∧
        t.plainReg 0x000 = Config.ptcId ∧ t.cell.configured = false ∧ (∀ p : Fin 8, (t.slot p).init = false) ∧
        t.mem = s.mem) ∧
    (data.getLsbD 0 = false → hostAccess (.write .w32 0x004 data) s = .next s)

/-- Registers take aligned word accesses only, everything above naturally aligned ones; any other access is a host
fault (R86, R84, R444). Alignment at unmapped offsets is log 12 (DEDUCED), the stop of a wide read with one never-
written byte log 19 (DESIGN CHOICE). -/
def Obligations.AccessLegality : Prop :=
  ∀ (s : State) (width : Width) (offset data : Word),
    let bytes : Nat := match width with | .w8 => 1 | .w16 => 2 | .w32 => 4
    let legal : Prop :=
      if offset.toNat < 0x1000 then width = .w32 ∧ offset.toNat % 4 = 0 else offset.toNat % bytes = 0
    (¬ legal → hostAccess (.read width offset) s = .fault .hostAccess ∧
      hostAccess (.write width offset data) s = .fault .hostAccess) ∧
    (legal → (∃ t, hostAccess (.write width offset data) s = .next t) ∧
      ((∃ t, hostAccess (.read width offset) s = .next t) ∨
        ((∃ i, i < bytes ∧ (inputByte (offset.toNat + i) ∨ outputByte (offset.toNat + i)) ∧
            s.mem.markAt (offset.toNat + i) = 0) ∧
          hostAccess (.read width offset) s = .fault .neverWrittenRead)))

/-- Host writes to output memories are ignored; only a successful PUSCH_TX, or the hardware reset, changes them (R89).
-/
def Obligations.OutputMemoriesAreThePtcs : Prop :=
  (∀ (s : State) (width : Width) (offset data : Word), outputByte offset.toNat →
    offset.toNat % (match width with | .w8 => 1 | .w16 => 2 | .w32 => 4) = 0 →
    hostAccess (.write width offset data) s = .next s) ∧
  ∀ (s t : State) (a : Nat), outputByte a → step s = .next t →
    (t.mem.byteAt a ≠ s.mem.byteAt a ∨ t.mem.markAt a ≠ s.mem.markAt a) →
    (∃ rest, s.turns = .hardwareReset :: rest) ∨
      ∃ w, s.pending = some w ∧ w.extractLsb' 24 8 = 0x10 ∧ t.pending = none ∧ t.status.err = .ok

/-- Unmapped offsets and unlisted registers read 0 and ignore writes (R84). -/
def Obligations.UnmappedOffsets : Prop :=
  (∀ (s : State) (width : Width) (offset data : Word), 0x1000 ≤ offset.toNat →
    offset.toNat % (match width with | .w8 => 1 | .w16 => 2 | .w32 => 4) = 0 →
    (∀ i, i < (match width with | .w8 => 1 | .w16 => 2 | .w32 => 4) →
      ¬ inputByte (offset.toNat + i) ∧ ¬ outputByte (offset.toNat + i)) →
    hostAccess (.write width offset data) s = .next s ∧
    ∃ r, r.value = 0 ∧ hostAccess (.read width offset) s = .next { s with readData := some r }) ∧
  ∀ (s : State) (offset data : Word), 0x044 ≤ offset.toNat → offset.toNat < 0x1000 → offset.toNat % 4 = 0 →
    hostAccess (.write .w32 offset data) s = .next s ∧
    ∃ r, r.value = 0 ∧ hostAccess (.read .w32 offset) s = .next { s with readData := some r }

/-- An argument register keeps the non-reserved bits written to it and reads them back; no other register changes
(R32, R38, R39, R40, R41, R42, R43, R44). -/
def Obligations.ArgumentRegisters : Prop :=
  ∀ r : ArgReg,
    let row : Nat × Word := match r with
      | .cellCfg => (0x010, 0x007F0FFF) | .tbSize => (0x014, 0x1F01FFFF) | .tbLen => (0x018, 0x0001FFFF)
      | .alloc => (0x01C, 0x00007F7F) | .rnti => (0x020, 0x0000FFFF) | .uciLen => (0x024, 0x0F0F03FF)
      | .betaAck => (0x028, 0x0000FFFF) | .betaRi => (0x02C, 0x0000FFFF) | .betaCqi => (0x030, 0x0000FFFF)
    ∀ (s : State) (data : Word),
      (∃ t, hostAccess (.write .w32 (BitVec.ofNat 32 row.1) data) s = .next t ∧
        t.regs.get r = data &&& row.2 ∧ (∀ q, q ≠ r → t.regs.get q = s.regs.get q) ∧
        (s.pending = none → t = { s with regs := t.regs })) ∧
      hostAccess (.read .w32 (BitVec.ofNat 32 row.1)) s =
        .next { s with readData := some { width := .w32, value := s.regs.get r, written := 0xFFFFFFFF } }

/-- A write to a host-writable memory stores its bytes least significant first and marks them; the same read returns
them (R85, R81, R86, R444). -/
def Obligations.MemoryAccess : Prop :=
  ∀ (s : State) (width : Width) (offset data : Word),
    let bytes : Nat := match width with | .w8 => 1 | .w16 => 2 | .w32 => 4
    (∀ i, i < bytes → inputByte (offset.toNat + i)) → offset.toNat % bytes = 0 → s.pending = none →
    ∃ t, hostAccess (.write width offset data) s = .next t ∧ t = { s with mem := t.mem } ∧
      (∀ i, i < bytes → t.mem.byteAt (offset.toNat + i) = data.extractLsb' (8 * i) 8 ∧
        t.mem.markAt (offset.toNat + i) = 0xFF) ∧
      (∀ a, (a < offset.toNat ∨ offset.toNat + bytes ≤ a) →
        t.mem.byteAt a = s.mem.byteAt a ∧ t.mem.markAt a = s.mem.markAt a) ∧
      hostAccess (.read width offset) t =
        .next { t with readData := some (ReadData.mk width (BitVec.ofNat 32 (data.toNat % 2 ^ (8 * bytes)))
          (BitVec.ofNat 32 (2 ^ (8 * bytes) - 1))) }

/-- wbits makes bit i of the memory the i-th bit of the string and touches no other bit (R81, R131, R444). That wbits
is one masked write is log 14. -/
def Obligations.BitStringWrite : Prop :=
  ∀ (s : State) (bm : BitMem) (bits : List Bool), bm ≠ .bits → bits.length ≤ 8 * bm.size →
    ∃ t, hostAccess (.writeBits bm bits) s = .next t ∧
      (∀ i b, bits[i]? = some b → t.mem.bitAt bm.base i = some b) ∧
      (∀ i, bits.length ≤ i → t.mem.bitAt bm.base i = s.mem.bitAt bm.base i) ∧
      (∀ a, (a < bm.base ∨ bm.base + (bits.length + 7) / 8 ≤ a) →
        t.mem.byteAt a = s.mem.byteAt a ∧ t.mem.markAt a = s.mem.markAt a) ∧
      t.regs = s.regs ∧ t.status = s.status ∧ t.lens = s.lens ∧ t.cell = s.cell ∧ t.procs = s.procs ∧
      t.pending = s.pending ∧ t.turns = s.turns ∧ t.readData = s.readData

/-- A register or memory write while BUSY reaches the pending command per field, or per bit, as old or new value (R93,
R450, R32). Old or new is a free choice, log 7; that it may differ within one access, which R87 calls all or none, is
log 22 (DESIGN CHOICE). -/
def Obligations.RacingWrites : Prop :=
  (∀ (s : State) (r : ArgReg) (data : Word), s.pending.isSome = true →
    ∃ t, hostAccess (.write .w32 (BitVec.ofNat 32 r.offset) data) s = .next t ∧ t.pending = s.pending ∧
    t.regs.get r = data &&& r.mask ∧ t.mem = s.mem ∧ t.inputs.mem = s.inputs.mem ∧
    (∀ q, q ≠ r → t.inputs.regs.get q = s.inputs.regs.get q ∧ t.regs.get q = s.regs.get q) ∧
    ∀ field ∈ r.fields,
      (t.inputs.regs.get r).extractLsb' field.1 field.2 = (s.inputs.regs.get r).extractLsb' field.1 field.2 ∨
      (t.inputs.regs.get r).extractLsb' field.1 field.2 = (t.regs.get r).extractLsb' field.1 field.2) ∧
  ∀ (s t : State) (width : Width) (offset data : Word), s.pending.isSome = true → 0x1000 ≤ offset.toNat →
    hostAccess (.write width offset data) s = .next t →
    t.inputs.regs = s.inputs.regs ∧ t.pending = s.pending ∧
    ∀ a j, j < 8 →
      ((t.inputs.mem.byteAt a).getLsbD j = (s.inputs.mem.byteAt a).getLsbD j ∧
        (t.inputs.mem.markAt a).getLsbD j = (s.inputs.mem.markAt a).getLsbD j) ∨
      ((t.inputs.mem.byteAt a).getLsbD j = (t.mem.byteAt a).getLsbD j ∧
        (t.inputs.mem.markAt a).getLsbD j = (t.mem.markAt a).getLsbD j)

/-- A host read of a never-written byte faults; a partly written byte reads with its marks (R444, R62). That one
never-written byte stops a wider read is log 19 (DESIGN CHOICE); a used size inside one access is log 12 (DEDUCED). -/
def Obligations.UnwrittenReadFaults : Prop :=
  ∀ (s : State) (width : Width) (offset : Word), s.pending = none → 0x1000 ≤ offset.toNat →
    let bytes : Nat := match width with | .w8 => 1 | .w16 => 2 | .w32 => 4
    offset.toNat % bytes = 0 →
    ((∃ i, i < bytes ∧ (inputByte (offset.toNat + i) ∨ outputByte (offset.toNat + i)) ∧
        s.mem.markAt (offset.toNat + i) = 0) →
      hostAccess (.read width offset) s = .fault .neverWrittenRead) ∧
    ((∀ i, i < bytes → (inputByte (offset.toNat + i) ∨ outputByte (offset.toNat + i)) →
        s.mem.markAt (offset.toNat + i) ≠ 0) →
      ∃ r : ReadData, hostAccess (.read width offset) s = .next { s with readData := some r } ∧ r.width = width ∧
        ∀ i, i < bytes →
          ((inputByte (offset.toNat + i) ∨ outputByte (offset.toNat + i)) →
            r.value.extractLsb' (8 * i) 8 = s.mem.byteAt (offset.toNat + i) ∧
            r.written.extractLsb' (8 * i) 8 = s.mem.markAt (offset.toNat + i)) ∧
          ((¬ inputByte (offset.toNat + i) ∧ ¬ outputByte (offset.toNat + i)) →
            r.value.extractLsb' (8 * i) 8 = 0 ∧ r.written.extractLsb' (8 * i) 8 = 0xFF))

end Statements
end

