-- ==== Sys2Proof/Laws/State.lean ====
section
/-! SUPPORT. One lemma per field per update of the state, each true by rfl: what `complete`, `setSlot`, `commitTx`,
`withRead`, `softReset`, `hardwareReset`, `withFetchWord` and `withProgram` do to every field. -/

namespace Sys2Proof.Machine

/-! ## complete -/

@[simp] theorem State.complete_regs (s : State) (op : BitVec 8) (proc : BitVec 4) (code : ErrCode) :
    (s.complete op proc code).regs = s.regs := rfl
@[simp] theorem State.complete_status (s : State) (op : BitVec 8) (proc : BitVec 4) (code : ErrCode) :
    (s.complete op proc code).status = { s.status with err := code, lastOp := op, lastProc := proc } := rfl
@[simp] theorem State.complete_lens (s : State) (op : BitVec 8) (proc : BitVec 4) (code : ErrCode) :
    (s.complete op proc code).lens = s.lens := rfl
@[simp] theorem State.complete_cell (s : State) (op : BitVec 8) (proc : BitVec 4) (code : ErrCode) :
    (s.complete op proc code).cell = s.cell := rfl
@[simp] theorem State.complete_procs (s : State) (op : BitVec 8) (proc : BitVec 4) (code : ErrCode) :
    (s.complete op proc code).procs = s.procs := rfl
@[simp] theorem State.complete_mem (s : State) (op : BitVec 8) (proc : BitVec 4) (code : ErrCode) :
    (s.complete op proc code).mem = s.mem := rfl
@[simp] theorem State.complete_pending (s : State) (op : BitVec 8) (proc : BitVec 4) (code : ErrCode) :
    (s.complete op proc code).pending = none := rfl
@[simp] theorem State.complete_raced (s : State) (op : BitVec 8) (proc : BitVec 4) (code : ErrCode) :
    (s.complete op proc code).raced = none := rfl
@[simp] theorem State.complete_draws (s : State) (op : BitVec 8) (proc : BitVec 4) (code : ErrCode) :
    (s.complete op proc code).draws = s.draws := rfl
@[simp] theorem State.complete_turns (s : State) (op : BitVec 8) (proc : BitVec 4) (code : ErrCode) :
    (s.complete op proc code).turns = s.turns := rfl
@[simp] theorem State.complete_readData (s : State) (op : BitVec 8) (proc : BitVec 4) (code : ErrCode) :
    (s.complete op proc code).readData = s.readData := rfl

/-! ## setSlot -/

@[simp] theorem State.setSlot_regs (s : State) (p : Fin 8) (slot : HarqSlot) :
    (s.setSlot p slot).regs = s.regs := rfl
@[simp] theorem State.setSlot_status (s : State) (p : Fin 8) (slot : HarqSlot) :
    (s.setSlot p slot).status = s.status := rfl
@[simp] theorem State.setSlot_lens (s : State) (p : Fin 8) (slot : HarqSlot) :
    (s.setSlot p slot).lens = s.lens := rfl
@[simp] theorem State.setSlot_cell (s : State) (p : Fin 8) (slot : HarqSlot) :
    (s.setSlot p slot).cell = s.cell := rfl
@[simp] theorem State.setSlot_procs (s : State) (p : Fin 8) (slot : HarqSlot) :
    (s.setSlot p slot).procs = s.procs.set p slot := rfl
@[simp] theorem State.setSlot_mem (s : State) (p : Fin 8) (slot : HarqSlot) :
    (s.setSlot p slot).mem = s.mem := rfl
@[simp] theorem State.setSlot_pending (s : State) (p : Fin 8) (slot : HarqSlot) :
    (s.setSlot p slot).pending = s.pending := rfl
@[simp] theorem State.setSlot_raced (s : State) (p : Fin 8) (slot : HarqSlot) :
    (s.setSlot p slot).raced = s.raced := rfl
@[simp] theorem State.setSlot_draws (s : State) (p : Fin 8) (slot : HarqSlot) :
    (s.setSlot p slot).draws = s.draws := rfl
@[simp] theorem State.setSlot_turns (s : State) (p : Fin 8) (slot : HarqSlot) :
    (s.setSlot p slot).turns = s.turns := rfl
@[simp] theorem State.setSlot_readData (s : State) (p : Fin 8) (slot : HarqSlot) :
    (s.setSlot p slot).readData = s.readData := rfl

/-! ## commitTx -/

@[simp] theorem commitTx_regs (cmd : TxCommand) (plan : TxPlan) (out : TxResult) (s : State) :
    (commitTx cmd plan out s).regs = s.regs := rfl
@[simp] theorem commitTx_status (cmd : TxCommand) (plan : TxPlan) (out : TxResult) (s : State) :
    (commitTx cmd plan out s).status = s.status := rfl
@[simp] theorem commitTx_lens (cmd : TxCommand) (plan : TxPlan) (out : TxResult) (s : State) :
    (commitTx cmd plan out s).lens = committedLens cmd s.cell plan out s.lens := rfl
@[simp] theorem commitTx_cell (cmd : TxCommand) (plan : TxPlan) (out : TxResult) (s : State) :
    (commitTx cmd plan out s).cell = s.cell := rfl
@[simp] theorem commitTx_procs (cmd : TxCommand) (plan : TxPlan) (out : TxResult) (s : State) :
    (commitTx cmd plan out s).procs = s.procs.set plan.target.p (committedSlot cmd s.inputs.regs plan out.w (s.slot plan.target.p)) := rfl
@[simp] theorem commitTx_mem (cmd : TxCommand) (plan : TxPlan) (out : TxResult) (s : State) :
    (commitTx cmd plan out s).mem = committedMem cmd s.draws out s.mem := rfl
@[simp] theorem commitTx_pending (cmd : TxCommand) (plan : TxPlan) (out : TxResult) (s : State) :
    (commitTx cmd plan out s).pending = s.pending := rfl
@[simp] theorem commitTx_raced (cmd : TxCommand) (plan : TxPlan) (out : TxResult) (s : State) :
    (commitTx cmd plan out s).raced = s.raced := rfl
@[simp] theorem commitTx_draws (cmd : TxCommand) (plan : TxPlan) (out : TxResult) (s : State) :
    (commitTx cmd plan out s).draws = s.draws + out.wave.length + (if cmd.dumpGrid then out.gridEntries.length else 0) := rfl
@[simp] theorem commitTx_turns (cmd : TxCommand) (plan : TxPlan) (out : TxResult) (s : State) :
    (commitTx cmd plan out s).turns = s.turns := rfl
@[simp] theorem commitTx_readData (cmd : TxCommand) (plan : TxPlan) (out : TxResult) (s : State) :
    (commitTx cmd plan out s).readData = s.readData := rfl

/-! ## withRead -/

@[simp] theorem State.withRead_regs (s : State) (width : Width) (value written : Word) :
    (s.withRead width value written).regs = s.regs := rfl
@[simp] theorem State.withRead_status (s : State) (width : Width) (value written : Word) :
    (s.withRead width value written).status = s.status := rfl
@[simp] theorem State.withRead_lens (s : State) (width : Width) (value written : Word) :
    (s.withRead width value written).lens = s.lens := rfl
@[simp] theorem State.withRead_cell (s : State) (width : Width) (value written : Word) :
    (s.withRead width value written).cell = s.cell := rfl
@[simp] theorem State.withRead_procs (s : State) (width : Width) (value written : Word) :
    (s.withRead width value written).procs = s.procs := rfl
@[simp] theorem State.withRead_mem (s : State) (width : Width) (value written : Word) :
    (s.withRead width value written).mem = s.mem := rfl
@[simp] theorem State.withRead_pending (s : State) (width : Width) (value written : Word) :
    (s.withRead width value written).pending = s.pending := rfl
@[simp] theorem State.withRead_raced (s : State) (width : Width) (value written : Word) :
    (s.withRead width value written).raced = s.raced := rfl
@[simp] theorem State.withRead_draws (s : State) (width : Width) (value written : Word) :
    (s.withRead width value written).draws = s.draws := rfl
@[simp] theorem State.withRead_turns (s : State) (width : Width) (value written : Word) :
    (s.withRead width value written).turns = s.turns := rfl
@[simp] theorem State.withRead_readData (s : State) (width : Width) (value written : Word) :
    (s.withRead width value written).readData = some { width := width, value := value, written := written } := rfl

/-! ## softReset -/

@[simp] theorem State.softReset_regs (s : State) :
    (s.softReset).regs = .reset := rfl
@[simp] theorem State.softReset_status (s : State) :
    (s.softReset).status = .reset := rfl
@[simp] theorem State.softReset_lens (s : State) :
    (s.softReset).lens = .reset := rfl
@[simp] theorem State.softReset_cell (s : State) :
    (s.softReset).cell = { s.cell with configured := false } := rfl
@[simp] theorem State.softReset_procs (s : State) :
    (s.softReset).procs = s.procs.map fun slot => { slot with init := false } := rfl
@[simp] theorem State.softReset_mem (s : State) :
    (s.softReset).mem = s.mem := rfl
@[simp] theorem State.softReset_pending (s : State) :
    (s.softReset).pending = none := rfl
@[simp] theorem State.softReset_raced (s : State) :
    (s.softReset).raced = none := rfl
@[simp] theorem State.softReset_draws (s : State) :
    (s.softReset).draws = s.draws := rfl
@[simp] theorem State.softReset_turns (s : State) :
    (s.softReset).turns = s.turns := rfl
@[simp] theorem State.softReset_readData (s : State) :
    (s.softReset).readData = s.readData := rfl

/-! ## hardwareReset -/

@[simp] theorem State.hardwareReset_regs (s : State) :
    (s.hardwareReset).regs = State.reset.regs := rfl
@[simp] theorem State.hardwareReset_status (s : State) :
    (s.hardwareReset).status = State.reset.status := rfl
@[simp] theorem State.hardwareReset_lens (s : State) :
    (s.hardwareReset).lens = State.reset.lens := rfl
@[simp] theorem State.hardwareReset_cell (s : State) :
    (s.hardwareReset).cell = State.reset.cell := rfl
@[simp] theorem State.hardwareReset_procs (s : State) :
    (s.hardwareReset).procs = State.reset.procs := rfl
@[simp] theorem State.hardwareReset_mem (s : State) :
    (s.hardwareReset).mem = State.reset.mem := rfl
@[simp] theorem State.hardwareReset_pending (s : State) :
    (s.hardwareReset).pending = State.reset.pending := rfl
@[simp] theorem State.hardwareReset_raced (s : State) :
    (s.hardwareReset).raced = State.reset.raced := rfl
@[simp] theorem State.hardwareReset_draws (s : State) :
    (s.hardwareReset).draws = s.draws := rfl
@[simp] theorem State.hardwareReset_turns (s : State) :
    (s.hardwareReset).turns = s.turns := rfl
@[simp] theorem State.hardwareReset_readData (s : State) :
    (s.hardwareReset).readData = s.readData := rfl

/-! ## withFetchWord -/

@[simp] theorem State.withFetchWord_regs (s : State) (nbits w : Nat) :
    (s.withFetchWord nbits w).regs = s.regs := rfl
@[simp] theorem State.withFetchWord_status (s : State) (nbits w : Nat) :
    (s.withFetchWord nbits w).status = s.status := rfl
@[simp] theorem State.withFetchWord_lens (s : State) (nbits w : Nat) :
    (s.withFetchWord nbits w).lens = s.lens := rfl
@[simp] theorem State.withFetchWord_cell (s : State) (nbits w : Nat) :
    (s.withFetchWord nbits w).cell = s.cell := rfl
@[simp] theorem State.withFetchWord_procs (s : State) (nbits w : Nat) :
    (s.withFetchWord nbits w).procs = s.procs := rfl
@[simp] theorem State.withFetchWord_mem (s : State) (nbits w : Nat) :
    (s.withFetchWord nbits w).mem = s.mem := rfl
@[simp] theorem State.withFetchWord_pending (s : State) (nbits w : Nat) :
    (s.withFetchWord nbits w).pending = some (BitVec.ofNat 32 (w % 2 ^ nbits)) := rfl
@[simp] theorem State.withFetchWord_raced (s : State) (nbits w : Nat) :
    (s.withFetchWord nbits w).raced = none := rfl
@[simp] theorem State.withFetchWord_draws (s : State) (nbits w : Nat) :
    (s.withFetchWord nbits w).draws = s.draws := rfl
@[simp] theorem State.withFetchWord_turns (s : State) (nbits w : Nat) :
    (s.withFetchWord nbits w).turns = [] := rfl
@[simp] theorem State.withFetchWord_readData (s : State) (nbits w : Nat) :
    (s.withFetchWord nbits w).readData = s.readData := rfl

/-! ## withProgram -/

@[simp] theorem State.withProgram_regs (s : State) (program : List Turn) :
    (s.withProgram program).regs = s.regs := rfl
@[simp] theorem State.withProgram_status (s : State) (program : List Turn) :
    (s.withProgram program).status = s.status := rfl
@[simp] theorem State.withProgram_lens (s : State) (program : List Turn) :
    (s.withProgram program).lens = s.lens := rfl
@[simp] theorem State.withProgram_cell (s : State) (program : List Turn) :
    (s.withProgram program).cell = s.cell := rfl
@[simp] theorem State.withProgram_procs (s : State) (program : List Turn) :
    (s.withProgram program).procs = s.procs := rfl
@[simp] theorem State.withProgram_mem (s : State) (program : List Turn) :
    (s.withProgram program).mem = s.mem := rfl
@[simp] theorem State.withProgram_pending (s : State) (program : List Turn) :
    (s.withProgram program).pending = s.pending := rfl
@[simp] theorem State.withProgram_raced (s : State) (program : List Turn) :
    (s.withProgram program).raced = s.raced := rfl
@[simp] theorem State.withProgram_draws (s : State) (program : List Turn) :
    (s.withProgram program).draws = s.draws := rfl
@[simp] theorem State.withProgram_turns (s : State) (program : List Turn) :
    (s.withProgram program).turns = program := rfl
@[simp] theorem State.withProgram_readData (s : State) (program : List Turn) :
    (s.withProgram program).readData = s.readData := rfl

/-! ## Slots -/

@[simp] theorem State.slot_setSlot (s : State) (p : Fin 8) (slot : HarqSlot) : (s.setSlot p slot).slot p = slot := by
  simp [State.slot, State.setSlot]

theorem State.slot_setSlot_ne (s : State) {p q : Fin 8} (slot : HarqSlot) (h : q ≠ p) :
    (s.setSlot p slot).slot q = s.slot q := by
  simp only [State.slot, State.setSlot, Fin.getElem_fin]
  exact Vector.getElem_set_ne _ _ (fun e => h (Fin.ext e.symm))

@[simp] theorem State.slot_complete (s : State) (op : BitVec 8) (proc : BitVec 4) (code : ErrCode) (q : Fin 8) :
    (s.complete op proc code).slot q = s.slot q := rfl

theorem State.slot_eq_of_procs {s t : State} (h : s.procs = t.procs) (q : Fin 8) : s.slot q = t.slot q := by
  simp [State.slot, h]

@[simp] theorem State.slot_reset (q : Fin 8) : State.reset.slot q = .reset := by
  simp [State.slot, State.reset]

@[simp] theorem State.slot_softReset (s : State) (q : Fin 8) :
    s.softReset.slot q = { s.slot q with init := false } := by
  simp [State.slot]

theorem slot_commitTx (cmd : TxCommand) (plan : TxPlan) (out : TxResult) (s : State) :
    (commitTx cmd plan out s).slot plan.target.p =
      committedSlot cmd s.inputs.regs plan out.w (s.slot plan.target.p) := by
  simp [State.slot]

theorem slot_commitTx_ne (cmd : TxCommand) (plan : TxPlan) (out : TxResult) (s : State) {q : Fin 8}
    (h : q ≠ plan.target.p) : (commitTx cmd plan out s).slot q = s.slot q := by
  simp only [State.slot, commitTx_procs, Fin.getElem_fin]
  exact Vector.getElem_set_ne _ _ (fun e => h (Fin.ext e.symm))

/-! ## Views -/

@[simp] theorem State.busy_complete (s : State) (op : BitVec 8) (proc : BitVec 4) (code : ErrCode) :
    (s.complete op proc code).busy = false := rfl

/-- With no host write racing, a command reads the state's own registers and memories. -/
theorem State.inputs_of_raced_none {s : State} (h : s.raced = none) :
    s.inputs = { regs := s.regs, mem := s.mem } := by
  simp [State.inputs, h]

theorem State.inputs_of_raced_some {s : State} {inp : CmdInputs} (h : s.raced = some inp) : s.inputs = inp := by
  simp [State.inputs, h]

@[simp] theorem State.inputs_setTurns (s : State) (ts : List Turn) : ({ s with turns := ts } : State).inputs = s.inputs :=
  rfl

/-! ## Argument registers -/

@[simp] theorem ArgRegs.get_put (regs : ArgRegs) (r : ArgReg) (w : Word) : (regs.put r w).get r = w := by
  cases r <;> rfl

theorem ArgRegs.get_put_ne (regs : ArgRegs) {r q : ArgReg} (w : Word) (h : q ≠ r) :
    (regs.put r w).get q = regs.get q := by
  cases r <;> cases q <;> first | exact absurd rfl h | rfl

@[simp] theorem ArgRegs.get_write (regs : ArgRegs) (r : ArgReg) (w : Word) : (regs.write r w).get r = w &&& r.mask :=
  ArgRegs.get_put regs r _

theorem ArgRegs.get_write_ne (regs : ArgRegs) {r q : ArgReg} (w : Word) (h : q ≠ r) :
    (regs.write r w).get q = regs.get q :=
  ArgRegs.get_put_ne regs _ h

end Sys2Proof.Machine
end

