-- ==== Sys2Proof/Laws/Memory.lean ====
section
/-! SUPPORT. What the sparse planes and the data memories do: reading after a write, and the canonical form that every
write keeps. -/

namespace Sys2Proof.Machine

/-! ## One plane -/

theorem cellAt_eq_zero {m : List Host.Cell} {a : Nat} (h : ∀ c ∈ m, c.1 ≠ a) : cellAt m a = 0 := by
  induction m with
  | nil => rfl
  | cons c rest ih =>
    have hc : c.1 ≠ a := h c (by simp)
    simp only [cellAt, hc, if_false]
    exact ih fun d hd => h d (by simp [hd])

theorem cellAt_append_of_notMem {l r : List Host.Cell} {a : Nat} (h : ∀ c ∈ l, c.1 ≠ a) :
    cellAt (l ++ r) a = cellAt r a := by
  induction l with
  | nil => rfl
  | cons c rest ih =>
    have hc : c.1 ≠ a := h c (by simp)
    simp only [List.cons_append, cellAt, hc, if_false]
    exact ih fun d hd => h d (by simp [hd])

theorem cellAt_append_right_notMem {l r : List Host.Cell} {a : Nat} (h : ∀ c ∈ r, c.1 ≠ a) :
    cellAt (l ++ r) a = cellAt l a := by
  induction l with
  | nil => simpa [cellAt] using cellAt_eq_zero h
  | cons c rest ih => by_cases hc : c.1 = a <;> simp [cellAt, hc, ih]

theorem cellAt_filter (q : Nat → Bool) (m : List Host.Cell) (a : Nat) :
    cellAt (m.filter fun c => q c.1) a = if q a then cellAt m a else 0 := by
  induction m with
  | nil => simp [cellAt]
  | cons c rest ih =>
    by_cases hc : c.1 = a
    · subst hc
      cases hq : q c.1 <;> simp [hq, cellAt, ih]
    · cases hq : q c.1 <;> simp [hq, cellAt, hc, ih]

theorem cellsOf_cons_zero (base : Nat) {b : Byte} (bs : List Byte) (h : b = 0) :
    cellsOf base (b :: bs) = cellsOf (base + 1) bs := if_pos h

theorem cellsOf_cons_ne (base : Nat) {b : Byte} (bs : List Byte) (h : b ≠ 0) :
    cellsOf base (b :: bs) = (base, b) :: cellsOf (base + 1) bs := if_neg h

theorem mem_cellsOf {base : Nat} {bs : List Byte} {c : Host.Cell} (h : c ∈ cellsOf base bs) :
    base ≤ c.1 ∧ c.1 < base + bs.length ∧ c.2 ≠ 0 := by
  induction bs generalizing base with
  | nil => simp [cellsOf] at h
  | cons b bs ih =>
    have step : c ∈ cellsOf (base + 1) bs → base ≤ c.1 ∧ c.1 < base + (b :: bs).length ∧ c.2 ≠ 0 := by
      intro hc
      obtain ⟨h1, h2, h3⟩ := ih hc
      exact ⟨by omega, by simp only [List.length_cons]; omega, h3⟩
    by_cases hb : b = 0
    · exact step (by rwa [cellsOf_cons_zero _ _ hb] at h)
    · rw [cellsOf_cons_ne _ _ hb, List.mem_cons] at h
      rcases h with rfl | h
      · exact ⟨le_rfl, by simp, hb⟩
      · exact step h

theorem cellAt_cellsOf (base : Nat) (bs : List Byte) (a : Nat) (h : base ≤ a) :
    cellAt (cellsOf base bs) a = bs.getD (a - base) 0 := by
  induction bs generalizing base with
  | nil => simp [cellsOf, cellAt]
  | cons b bs ih =>
    rcases Nat.eq_or_lt_of_le h with rfl | hlt
    · have hz : cellAt (cellsOf (base + 1) bs) base = 0 :=
        cellAt_eq_zero fun c hc => by have := mem_cellsOf hc; omega
      by_cases hb : b = 0
      · rw [cellsOf_cons_zero _ _ hb, hz, hb]; simp
      · simp [cellsOf_cons_ne _ _ hb, cellAt]
    · have hrec := ih (base + 1) hlt
      have hne : base ≠ a := by omega
      have hsub : a - base = (a - (base + 1)) + 1 := by omega
      by_cases hb : b = 0
      · simp [cellsOf_cons_zero _ _ hb, hrec, hsub]
      · simp [cellsOf_cons_ne _ _ hb, cellAt, hne, hrec, hsub]

/-- Reading a plane after a run of bytes was stored. -/
theorem cellAt_putCells (m : List Host.Cell) (base : Nat) (bs : List Byte) (a : Nat) :
    cellAt (putCells m base bs) a =
      if base ≤ a ∧ a < base + bs.length then bs.getD (a - base) 0 else cellAt m a := by
  have hlow : ∀ c ∈ m.filter (fun c => decide (c.1 < base)), c.1 < base := by
    intro c hc; simpa using (List.mem_filter.1 hc).2
  have hhigh : ∀ c ∈ m.filter (fun c => decide (base + bs.length ≤ c.1)), base + bs.length ≤ c.1 := by
    intro c hc; simpa using (List.mem_filter.1 hc).2
  have hmid : ∀ c ∈ cellsOf base bs, base ≤ c.1 ∧ c.1 < base + bs.length :=
    fun c hc => ⟨(mem_cellsOf hc).1, (mem_cellsOf hc).2.1⟩
  unfold putCells
  rcases Nat.lt_or_ge a base with ha | ha
  · rw [List.append_assoc, cellAt_append_right_notMem, cellAt_filter (fun k => decide (k < base))]
    · simp [ha, Nat.not_le.2 ha]
    · intro c hc
      rcases List.mem_append.1 hc with hc | hc
      · have := hmid c hc; omega
      · have := hhigh c hc; omega
  · rw [List.append_assoc, cellAt_append_of_notMem fun c hc => by have := hlow c hc; omega]
    rcases Nat.lt_or_ge a (base + bs.length) with hb | hb
    · rw [cellAt_append_right_notMem fun c hc => by have := hhigh c hc; omega, cellAt_cellsOf _ _ _ ha]
      simp [ha, hb]
    · rw [cellAt_append_of_notMem fun c hc => by have := hmid c hc; omega,
        cellAt_filter (fun k => decide (base + bs.length ≤ k))]
      simp [hb, Nat.not_lt.2 hb]

theorem cellsOf_rising (base : Nat) (bs : List Byte) : ((cellsOf base bs).map Prod.fst).Pairwise (· < ·) := by
  induction bs generalizing base with
  | nil => simp [cellsOf]
  | cons b bs ih =>
    by_cases hb : b = 0
    · simpa [cellsOf_cons_zero _ _ hb] using ih (base + 1)
    · simp only [cellsOf_cons_ne _ _ hb, List.map_cons, List.pairwise_cons, List.mem_map]
      refine ⟨?_, ih (base + 1)⟩
      rintro k ⟨c, hc, rfl⟩
      have := mem_cellsOf hc
      omega

theorem filter_rising {m : List Host.Cell} (q : Host.Cell → Bool) (h : (m.map Prod.fst).Pairwise (· < ·)) :
    ((m.filter q).map Prod.fst).Pairwise (· < ·) :=
  h.sublist (List.filter_sublist.map _)

/-- Storing a run of bytes keeps a plane's canonical form. -/
theorem planeWf_putCells {m : List Host.Cell} (h : planeWf m) (base : Nat) (bs : List Byte) :
    planeWf (putCells m base bs) := by
  constructor
  · unfold putCells
    rw [List.map_append, List.map_append, List.pairwise_append, List.pairwise_append]
    refine ⟨⟨filter_rising _ h.1, cellsOf_rising base bs, ?_⟩, filter_rising _ h.1, ?_⟩
    · intro x hx y hy
      obtain ⟨c, hc, rfl⟩ := List.mem_map.1 hx
      obtain ⟨d, hd, rfl⟩ := List.mem_map.1 hy
      have h1 : c.1 < base := by simpa using (List.mem_filter.1 hc).2
      have := (mem_cellsOf hd).1
      omega
    · intro x hx y hy
      obtain ⟨d, hd, rfl⟩ := List.mem_map.1 hy
      have h2 : base + bs.length ≤ d.1 := by simpa using (List.mem_filter.1 hd).2
      rcases List.mem_append.1 hx with hx | hx <;> obtain ⟨c, hc, rfl⟩ := List.mem_map.1 hx
      · have : c.1 < base := by simpa using (List.mem_filter.1 hc).2
        omega
      · have := (mem_cellsOf hc).2.1
        omega
  · intro c hc
    unfold putCells at hc
    rcases List.mem_append.1 hc with hc | hc
    · rcases List.mem_append.1 hc with hc | hc
      · exact h.2 c (List.mem_filter.1 hc).1
      · exact (mem_cellsOf hc).2.2
    · exact h.2 c (List.mem_filter.1 hc).1

theorem planeWf_tail {c : Host.Cell} {m : List Host.Cell} (h : planeWf (c :: m)) : planeWf m :=
  ⟨(List.pairwise_cons.1 h.1).2, fun d hd => h.2 d (by simp [hd])⟩

/-- A listed cell of a canonical plane is what its offset reads as. -/
theorem cellAt_of_mem {m : List Host.Cell} (h : planeWf m) {c : Host.Cell} (hc : c ∈ m) : cellAt m c.1 = c.2 := by
  induction m with
  | nil => simp at hc
  | cons d rest ih =>
    rcases List.mem_cons.1 hc with rfl | hin
    · simp [cellAt]
    · have hlt : d.1 < c.1 := (List.pairwise_cons.1 h.1).1 _ (List.mem_map_of_mem hin)
      simp only [cellAt, Nat.ne_of_lt hlt, if_false]
      exact ih (planeWf_tail h) hin

/-- An offset of a canonical plane that reads a byte other than 0 is listed. -/
theorem mem_of_cellAt_ne_zero {m : List Host.Cell} {a : Nat} (h : cellAt m a ≠ 0) : (a, cellAt m a) ∈ m := by
  induction m with
  | nil => simp [cellAt] at h
  | cons d rest ih =>
    by_cases hd : d.1 = a
    · subst hd; simp [cellAt]
    · simp only [cellAt, hd, if_false] at h ⊢
      exact List.mem_cons_of_mem _ (ih h)

/-- The canonical form is canonical: planes that read alike are equal. -/
theorem plane_ext {m n : List Host.Cell} (hm : planeWf m) (hn : planeWf n) (h : ∀ a, cellAt m a = cellAt n a) :
    m = n := by
  have key : ∀ {m n : List Host.Cell}, planeWf m → (∀ a, cellAt m a = cellAt n a) → ∀ c ∈ m, c ∈ n := by
    intro m n hm h c hc
    have h1 := cellAt_of_mem hm hc
    have h2 : cellAt n c.1 ≠ 0 := by rw [← h, h1]; exact hm.2 c hc
    have h3 := mem_of_cellAt_ne_zero h2
    rwa [← h, h1] at h3
  have pw : ∀ {m : List Host.Cell}, planeWf m → m.Pairwise (fun c d => c.1 < d.1) :=
    fun h => List.pairwise_map.1 h.1
  refine List.Perm.eq_of_pairwise (le := fun c d => c.1 < d.1) ?_ (pw hm) (pw hn) ?_
  · intro a b _ _ h1 h2; omega
  · refine (List.perm_ext_iff_of_nodup ?_ ?_).2 fun c => ⟨key hm h c, key hn (fun a => (h a).symm) c⟩
    · exact (pw hm).imp fun h e => by simp [e] at h
    · exact (pw hn).imp fun h e => by simp [e] at h

/-! ## The two planes together -/

/-- A memory in canonical form, said through its reads. -/
theorem Memory.wf_iff (m : Memory) :
    m.wf ↔ planeWf m.value ∧ planeWf m.mark ∧ ∀ a, m.byteAt a &&& ~~~ m.markAt a = 0 := by
  constructor
  · rintro ⟨hv, hm, h⟩
    refine ⟨hv, hm, fun a => ?_⟩
    by_cases ha : m.byteAt a = 0
    · simp [ha]
    · exact h _ (mem_of_cellAt_ne_zero (m := m.value) ha)
  · rintro ⟨hv, hm, h⟩
    refine ⟨hv, hm, fun c hc => ?_⟩
    have := h c.1
    rwa [Memory.byteAt, cellAt_of_mem hv hc] at this

theorem Memory.wf_reset : Memory.reset.wf := by
  refine ⟨⟨?_, ?_⟩, ⟨?_, ?_⟩, ?_⟩ <;> simp [Memory.reset]

theorem Memory.byteAt_writeBytes (m : Memory) (base : Nat) (bs : List Byte) (a : Nat) :
    (m.writeBytes base bs).byteAt a =
      if base ≤ a ∧ a < base + bs.length then bs.getD (a - base) 0 else m.byteAt a :=
  cellAt_putCells _ _ _ _

theorem Memory.markAt_writeBytes (m : Memory) (base : Nat) (bs : List Byte) (a : Nat) :
    (m.writeBytes base bs).markAt a = if base ≤ a ∧ a < base + bs.length then 0xFF else m.markAt a := by
  rw [Memory.markAt, Memory.writeBytes, cellAt_putCells]
  simp only [List.length_map]
  split
  · rename_i h
    rw [List.getD_eq_getElem _ _ (by simp only [List.length_map]; omega)]
    simp
  · rfl

/-- A write of whole bytes keeps the canonical form. -/
theorem Memory.wf_writeBytes {m : Memory} (h : m.wf) (base : Nat) (bs : List Byte) : (m.writeBytes base bs).wf := by
  rw [Memory.wf_iff] at h ⊢
  refine ⟨planeWf_putCells h.1 _ _, planeWf_putCells h.2.1 _ _, fun a => ?_⟩
  rw [Memory.byteAt_writeBytes, Memory.markAt_writeBytes]
  split
  · simp
  · exact h.2.2 a

@[simp] theorem length_mergedValues (m : Memory) (a : Nat) (vks : List (Byte × Byte)) :
    (mergedValues m a vks).length = vks.length := by
  induction vks generalizing a with
  | nil => rfl
  | cons vk vks ih => simp [mergedValues, ih]

@[simp] theorem length_mergedMarks (m : Memory) (a : Nat) (vks : List (Byte × Byte)) :
    (mergedMarks m a vks).length = vks.length := by
  induction vks generalizing a with
  | nil => rfl
  | cons vk vks ih => simp [mergedMarks, ih]

theorem getD_mergedValues (m : Memory) (a i : Nat) (vks : List (Byte × Byte)) (h : i < vks.length) :
    (mergedValues m a vks).getD i 0 =
      (m.byteAt (a + i) &&& ~~~ (vks.getD i (0, 0)).2) ||| ((vks.getD i (0, 0)).1 &&& (vks.getD i (0, 0)).2) := by
  induction vks generalizing a i with
  | nil => simp at h
  | cons vk vks ih =>
    cases i with
    | zero => simp [mergedValues]
    | succ i =>
      simp only [mergedValues, List.getD_cons_succ]
      rw [ih _ _ (by simpa using h), Nat.add_right_comm, Nat.add_assoc]

theorem getD_mergedMarks (m : Memory) (a i : Nat) (vks : List (Byte × Byte)) (h : i < vks.length) :
    (mergedMarks m a vks).getD i 0 = m.markAt (a + i) ||| (vks.getD i (0, 0)).2 := by
  induction vks generalizing a i with
  | nil => simp at h
  | cons vk vks ih =>
    cases i with
    | zero => simp [mergedMarks]
    | succ i =>
      simp only [mergedMarks, List.getD_cons_succ]
      rw [ih _ _ (by simpa using h), Nat.add_right_comm, Nat.add_assoc]

/-- What a byte holds after a masked write. -/
theorem Memory.byteAt_writeMasked (m : Memory) (base : Nat) (vks : List (Byte × Byte)) (a : Nat) :
    (m.writeMasked base vks).byteAt a =
      if base ≤ a ∧ a < base + vks.length then
        (m.byteAt a &&& ~~~ (vks.getD (a - base) (0, 0)).2) |||
          ((vks.getD (a - base) (0, 0)).1 &&& (vks.getD (a - base) (0, 0)).2)
      else m.byteAt a := by
  rw [Memory.byteAt, Memory.writeMasked, cellAt_putCells]
  simp only [length_mergedValues]
  split
  · rename_i h
    rw [getD_mergedValues _ _ _ _ (by omega), Nat.add_sub_cancel' h.1]
  · rfl

/-- What a byte's marks are after a masked write. -/
theorem Memory.markAt_writeMasked (m : Memory) (base : Nat) (vks : List (Byte × Byte)) (a : Nat) :
    (m.writeMasked base vks).markAt a =
      if base ≤ a ∧ a < base + vks.length then m.markAt a ||| (vks.getD (a - base) (0, 0)).2 else m.markAt a := by
  rw [Memory.markAt, Memory.writeMasked, cellAt_putCells]
  simp only [length_mergedMarks]
  split
  · rename_i h
    rw [getD_mergedMarks _ _ _ _ (by omega), Nat.add_sub_cancel' h.1]
  · rfl

theorem masked_value_marked (b k v x : Byte) (h : b &&& ~~~ k = 0) :
    ((b &&& ~~~ x) ||| (v &&& x)) &&& ~~~ (k ||| x) = 0 := by
  apply BitVec.eq_of_getLsbD_eq
  intro i hi
  have hi' := congrArg (fun w => w.getLsbD i) h
  simp only [BitVec.getLsbD_and, BitVec.getLsbD_not, hi, decide_true, Bool.true_and] at hi'
  simp only [BitVec.getLsbD_and, BitVec.getLsbD_or, BitVec.getLsbD_not, hi, decide_true, Bool.true_and]
  rw [← hi']
  revert hi'
  cases b.getLsbD i <;> cases k.getLsbD i <;> cases v.getLsbD i <;> cases x.getLsbD i <;> simp

/-- A masked write keeps the canonical form. -/
theorem Memory.wf_writeMasked {m : Memory} (h : m.wf) (base : Nat) (vks : List (Byte × Byte)) :
    (m.writeMasked base vks).wf := by
  rw [Memory.wf_iff] at h ⊢
  refine ⟨planeWf_putCells h.1 _ _, planeWf_putCells h.2.1 _ _, fun a => ?_⟩
  rw [Memory.byteAt_writeMasked, Memory.markAt_writeMasked]
  split
  · exact masked_value_marked _ _ _ _ (h.2.2 a)
  · exact h.2.2 a

/-- Memories in canonical form that read alike, values and marks, are equal. -/
theorem Memory.ext_of_reads {m n : Memory} (hm : m.wf) (hn : n.wf) (hv : ∀ a, m.byteAt a = n.byteAt a)
    (hk : ∀ a, m.markAt a = n.markAt a) : m = n := by
  cases m; cases n
  simp only [Memory.mk.injEq]
  exact ⟨plane_ext hm.1 hn.1 hv, plane_ext hm.2.1 hn.2.1 hk⟩

/-! ## Reading bits -/

/-- `bitsFrom` answers exactly when every bit was written, with those bits. -/
theorem Memory.bitsFrom_eq_some_iff (m : Memory) (base i n : Nat) (bs : List Bool) :
    m.bitsFrom base i n = some bs ↔
      bs.length = n ∧ ∀ j, j < n → m.bitAt base (i + j) = some (bs.getD j false) := by
  induction n generalizing i bs with
  | zero =>
    simp only [Memory.bitsFrom, Option.some.injEq, not_lt_zero, false_imp_iff, implies_true, and_true]
    exact ⟨fun h => by simp [← h], fun h => (List.length_eq_zero_iff.1 h).symm⟩
  | succ n ih =>
    constructor
    · intro h
      simp only [Memory.bitsFrom] at h
      split at h
      · rename_i b rest hb hrest
        obtain ⟨hlen, hbits⟩ := (ih (i + 1) rest).1 hrest
        obtain rfl : b :: rest = bs := by simpa using h
        refine ⟨by simp [hlen], fun j hj => ?_⟩
        cases j with
        | zero => simpa using hb
        | succ j =>
          have := hbits j (by omega)
          rwa [Nat.add_assoc, Nat.add_comm 1 j] at this
      · simp at h
    · rintro ⟨hlen, hbits⟩
      cases bs with
      | nil => simp at hlen
      | cons b rest =>
        have h0 := hbits 0 (by omega)
        have hrest : m.bitsFrom base (i + 1) n = some rest :=
          (ih (i + 1) rest).2 ⟨by simpa using hlen, fun j hj => by
            have := hbits (j + 1) (by omega)
            rwa [Nat.add_comm j 1, ← Nat.add_assoc, Nat.add_comm 1 j] at this⟩
        simp only [Nat.add_zero, List.getD_cons_zero] at h0
        simp [Memory.bitsFrom, h0, hrest]

/-- The read of a field's bits (20_memory.md R99): every one of them written, and these. -/
theorem Memory.readBits_eq_some_iff (m : Memory) (mem : BitMem) (n : Nat) (bs : List Bool) :
    m.readBits mem n = some bs ↔ bs.length = n ∧ ∀ j, j < n → m.bitAt mem.base j = some (bs.getD j false) := by
  simpa [Memory.readBits] using m.bitsFrom_eq_some_iff mem.base 0 n bs

theorem Memory.length_of_readBits {m : Memory} {mem : BitMem} {n : Nat} {bs : List Bool}
    (h : m.readBits mem n = some bs) : bs.length = n :=
  ((m.readBits_eq_some_iff mem n bs).1 h).1

@[simp] theorem Memory.readBits_zero (m : Memory) (mem : BitMem) : m.readBits mem 0 = some [] := rfl

end Sys2Proof.Machine
end

