-- ==== Sys2Proof/Laws/Pipeline.lean ====
section
/-! SUPPORT. The sizes of what the pipeline's stages produce, one lemma per stage function, up to the length of the
scrambled bits (44_multiplexer.md R318). -/

namespace Sys2Proof.Machine

/-! ## Circular reading (42_rate_matcher.md R251) -/

theorem length_cycleTake {α : Type} {whole : List α} (h : whole ≠ []) (cur : List α) (n : Nat) :
    (cycleTake whole cur n).length = n := by
  induction n generalizing cur with
  | zero => cases cur <;> rfl
  | succ n ih =>
    cases cur with
    | cons a rest => simp [cycleTake, ih]
    | nil =>
      cases whole with
      | nil => exact absurd rfl h
      | cons a rest => simp [cycleTake, ih]

theorem cycleTake_zero {α : Type} (whole cur : List α) : cycleTake whole cur 0 = [] := by cases cur <;> rfl

/-- Select gives exactly E bits of any buffer that holds a bit. -/
theorem length_selectBits {w : List Trit} (h : ∃ b, some b ∈ w) (e k0 : Nat) : (selectBits w e k0).length = e := by
  apply length_cycleTake
  obtain ⟨b, hb⟩ := h
  rw [← List.take_append_drop (k0 % w.length) w, List.mem_append] at hb
  refine List.ne_nil_of_mem (a := b) (List.mem_filterMap.2 ⟨some b, ?_, rfl⟩)
  exact List.mem_append.2 hb.symm

/-! ## Output sizes (R249, R252) -/

theorem length_blockLengths (g qm c : Nat) : (blockLengths g qm c).length = c := by simp [blockLengths]

theorem sum_range_split (c gamma low high : Nat) (h : gamma ≤ c) :
    ((List.range c).map fun r => if r + gamma + 1 ≤ c then low else high).sum = (c - gamma) * low + gamma * high := by
  have key : ∀ n ≤ c, ((List.range n).map fun r => if r + gamma + 1 ≤ c then low else high).sum =
      min n (c - gamma) * low + (n - (c - gamma)) * high := by
    intro n
    induction n with
    | zero => simp
    | succ n ih =>
      intro hn
      rw [List.range_succ, List.map_append, List.sum_append, ih (by omega), List.map_singleton, List.sum_singleton]
      by_cases hlt : n + gamma + 1 ≤ c
      · have h1 : min n (c - gamma) = n := by omega
        have h2 : min (n + 1) (c - gamma) = n + 1 := by omega
        have h3 : n - (c - gamma) = 0 := by omega
        have h4 : n + 1 - (c - gamma) = 0 := by omega
        rw [if_pos hlt, h1, h2, h3, h4]
        ring
      · have h1 : min n (c - gamma) = c - gamma := by omega
        have h2 : min (n + 1) (c - gamma) = c - gamma := by omega
        have h3 : n + 1 - (c - gamma) = (n - (c - gamma)) + 1 := by omega
        rw [if_neg hlt, h1, h2, h3]
        ring
  rw [key c le_rfl, Nat.min_eq_right (by omega), Nat.sub_sub_self h]

theorem ceilDiv_eq {a c : Nat} (hc : 0 < c) (h : a % c ≠ 0) : ceilDiv a c = a / c + 1 := by
  unfold ceilDiv
  have h1 := Nat.div_add_mod a c
  have h2 := Nat.mod_lt a hc
  rw [Nat.div_eq_iff hc]
  have : (a / c + 1) * c = c * (a / c) + c := by ring
  omega

/-- Σ E[r] = G, for G a multiple of Q_m (R249). -/
theorem sum_blockLengths {qm c : Nat} (g' : Nat) (hq : 0 < qm) (hc : 0 < c) :
    (blockLengths (qm * g') qm c).sum = qm * g' := by
  have hdiv : qm * g' / qm = g' := Nat.mul_div_cancel_left g' hq
  simp only [blockLengths, hdiv]
  rw [sum_range_split c (g' % c) _ _ (Nat.mod_lt g' hc).le]
  have hmod := Nat.div_add_mod g' c
  have hlt := Nat.mod_lt g' hc
  by_cases h0 : g' % c = 0
  · rw [h0] at hmod ⊢
    simp only [Nat.sub_zero, Nat.zero_mul, Nat.add_zero] at hmod ⊢
    rw [Nat.mul_left_comm, hmod]
  · rw [ceilDiv_eq hc h0]
    obtain ⟨d, hd⟩ := Nat.exists_eq_add_of_le hlt.le
    have : c - g' % c = d := by omega
    rw [this]
    calc d * (qm * (g' / c)) + g' % c * (qm * (g' / c + 1))
        = qm * ((g' % c + d) * (g' / c) + g' % c) := by ring
      _ = qm * g' := by rw [← hd, hmod]

theorem length_rateMatch {ws : List (List Trit)} (h : ∀ w ∈ ws, ∃ b, some b ∈ w) (es : List Nat) (rv : Nat)
    (hlen : ws.length = es.length) : (rateMatch ws es rv).length = es.sum := by
  induction ws generalizing es with
  | nil =>
    obtain rfl : es = [] := List.length_eq_zero_iff.1 hlen.symm
    rfl
  | cons w ws ih =>
    cases es with
    | nil => simp at hlen
    | cons e es =>
      simp only [rateMatch, List.length_append, List.sum_cons]
      rw [length_selectBits (h w (by simp)), ih (fun x hx => h x (by simp [hx])) es (by simpa using hlen)]

/-! ## The encoder's buffers (41_tb_coder.md R207 to R214, 42_rate_matcher.md R241 to R245) -/

theorem length_codeBlocksFrom (seg : Segmentation) (n r : Nat) (bits : List Bool) :
    (codeBlocksFrom seg n r bits).length = n := by
  induction n generalizing r bits with
  | zero => rfl
  | succ n ih => simp [codeBlocksFrom, ih]

@[simp] theorem length_tbEncode (seg : Segmentation) (a : List Bool) : (tbEncode seg a).length = seg.c := by
  simp [tbEncode, codeBlocks, length_codeBlocksFrom]

@[simp] theorem length_rscRun (s : RscState) (us : List Bool) : (rscRun s us).1.length = us.length := by
  induction us generalizing s with
  | nil => rfl
  | cons u us ih => simp [rscRun, ih]

@[simp] theorem length_qppInterleave (c : List Bool) : (qppInterleave c).length = c.length := by simp [qppInterleave]

@[simp] theorem length_turboEncode_d0 (c : List Trit) : (turboEncode c).d0.length = c.length + 4 := by simp [turboEncode]
@[simp] theorem length_turboEncode_d1 (c : List Trit) : (turboEncode c).d1.length = c.length + 4 := by simp [turboEncode]
@[simp] theorem length_turboEncode_d2 (c : List Trit) : (turboEncode c).d2.length = c.length + 4 := by simp [turboEncode]

theorem le_subblockRows (d : Nat) : d ≤ 32 * subblockRows d := by
  unfold subblockRows ceilDiv
  have := Nat.div_add_mod (d + 32 - 1) 32
  have := Nat.mod_lt (d + 32 - 1) (show 32 > 0 by decide)
  omega

@[simp] theorem length_padFront (d : List Trit) : (padFront d).length = 32 * subblockRows d.length := by
  have := le_subblockRows d.length
  simp only [padFront, List.length_append, List.length_replicate]
  omega

@[simp] theorem length_subblockInterleave (pattern : List Nat) (shift : Nat) (d : List Trit) :
    (subblockInterleave pattern shift d).length = 32 * subblockRows d.length := by simp [subblockInterleave]

theorem length_interlace (a b : List Trit) (h : a.length = b.length) : (interlace a b).length = 2 * a.length := by
  induction a generalizing b with
  | nil => simp [interlace]
  | cons x a ih =>
    cases b with
    | nil => simp at h
    | cons y b => simp [interlace, ih b (by simpa using h)]; omega

theorem mem_interlace_right {a b : List Trit} (h : a.length = b.length) {t : Trit} (ht : t ∈ b) :
    t ∈ interlace a b := by
  induction a generalizing b with
  | nil =>
    obtain rfl : b = [] := List.length_eq_zero_iff.1 h.symm
    simp at ht
  | cons x a ih =>
    cases b with
    | nil => simp at h
    | cons y b =>
      rcases List.mem_cons.1 ht with rfl | ht
      · simp [interlace]
      · simp [interlace, ih (by simpa using h) ht]

/-- The circular buffer of a block of K bits has 3·K_Π entries (R244). -/
theorem length_circularBuffer (c : List Trit) : (circularBuffer (turboEncode c)).length = 3 * kPi c.length := by
  rw [circularBuffer, List.length_append, length_interlace _ _ (by simp)]
  simp only [length_subblockInterleave, length_turboEncode_d0, length_turboEncode_d1, kPi]
  omega

/-- The last element of a stream is read by the third interleaver. -/
theorem getLast_mem_subblockInterleave {d : List Trit} (h : d ≠ []) : d.getLast h ∈ subblockInterleave pTurbo 1 d := by
  have hpos : 0 < d.length := List.length_pos_iff.2 h
  have hle := le_subblockRows d.length
  have hrows : 0 < subblockRows d.length := by omega
  have hlen := length_padFront d
  generalize hr : subblockRows d.length = rows at hle hrows hlen
  refine List.mem_map.2 ⟨16 * rows - 1, by simp only [hr, List.mem_range]; omega, ?_⟩
  simp only [hr]
  have hdiv : (16 * rows - 1) / rows = 15 := by
    rw [Nat.div_eq_iff hrows]; omega
  have hmod : (16 * rows - 1) % rows = rows - 1 := by
    have := Nat.div_add_mod (16 * rows - 1) rows
    rw [hdiv] at this; omega
  have hidx : (columnIndex pTurbo rows (16 * rows - 1) + 1) % (32 * rows) = 32 * rows - 1 := by
    have : columnIndex pTurbo rows (16 * rows - 1) = 30 + 32 * (rows - 1) := by
      rw [columnIndex, hdiv, hmod]; rfl
    rw [this, Nat.mod_eq_of_lt (by omega)]; omega
  rw [hidx, List.getD_eq_getElem _ _ (by omega), List.getLast_eq_getElem]
  simp only [padFront, hr]
  rw [List.getElem_append_right (by simp only [List.length_replicate]; omega)]
  congr 1
  simp only [List.length_replicate]
  omega

/-- Every circular buffer holds a bit that is not NULL (R251). -/
theorem some_mem_circularBuffer (c : List Trit) : ∃ b, some b ∈ circularBuffer (turboEncode c) := by
  have hne : (turboEncode c).d2 ≠ [] := by
    intro h; have := length_turboEncode_d2 c; rw [h] at this; simp at this
  refine ⟨(tailAt (rscTail 3 (rscRun .zero (qppInterleave (c.map bitOfTrit))).2) 2).2,
    List.mem_append_right _ (mem_interlace_right (by simp) ?_)⟩
  · have hlast := getLast_mem_subblockInterleave hne
    have heq : (turboEncode c).d2.getLast hne =
        some (tailAt (rscTail 3 (rscRun .zero (qppInterleave (c.map bitOfTrit))).2) 2).2 := by
      simp [turboEncode]
    rwa [heq] at hlast

/-! ## Vectors and the interleaver matrix (44_multiplexer.md R311 to R318) -/

@[simp] theorem length_vectors {α : Type} (n count : Nat) (l : List α) : (vectors n count l).length = count := by
  induction count generalizing l with
  | zero => rfl
  | succ count ih => simp [vectors, ih]

theorem length_of_mem_vectors {α : Type} {n count : Nat} {l : List α} (h : n * count ≤ l.length) :
    ∀ v ∈ vectors n count l, v.length = n := by
  induction count generalizing l with
  | zero => simp [vectors]
  | succ count ih =>
    intro v hv
    have hn : n * (count + 1) = n * count + n := by ring
    rcases List.mem_cons.1 hv with rfl | hv
    · rw [List.length_take]; omega
    · exact ih (by rw [List.length_drop]; omega) v hv

@[simp] theorem length_placeRi (columns : List Nat) (cmux rmux i : Nat) (vs : List CtlVector)
    (y : List (Option CtlVector)) : (placeRi columns cmux rmux i vs y).length = y.length := by
  induction vs generalizing i y with
  | nil => rfl
  | cons v vs ih => simp [placeRi, ih]

@[simp] theorem length_placeAck (columns : List Nat) (cmux rmux i : Nat) (vs y : List CtlVector) :
    (placeAck columns cmux rmux i vs y).length = y.length := by
  induction vs generalizing i y with
  | nil => rfl
  | cons v vs ih => simp [placeAck, ih]

@[simp] theorem length_fillData (cells : List (Option CtlVector)) (g : List CtlVector) :
    (fillData cells g).length = cells.length := by
  induction cells generalizing g with
  | nil => rfl
  | cons c cells ih =>
    cases c with
    | some v => simp [fillData, ih]
    | none => cases g <;> simp [fillData, ih]

/-- The columns of one field are four distinct columns of the matrix. -/
theorem columns_spec (cp : CyclicPrefix) (columns : List Nat) (h : columns = riColumns cp ∨ columns = ackColumns cp) :
    ∀ j j', j < 4 → j' < 4 → columns.getD j 0 < cp.nSymbPusch ∧
      (columns.getD j 0 = columns.getD j' 0 → j = j') := by
  have hri : ∀ cp : CyclicPrefix, ∀ j : Fin 4, ∀ j' : Fin 4, (riColumns cp).getD j 0 < cp.nSymbPusch ∧
      ((riColumns cp).getD j 0 = (riColumns cp).getD j' 0 → j = j') := by
    intro cp; cases cp <;> decide
  have hack : ∀ cp : CyclicPrefix, ∀ j : Fin 4, ∀ j' : Fin 4, (ackColumns cp).getD j 0 < cp.nSymbPusch ∧
      ((ackColumns cp).getD j 0 = (ackColumns cp).getD j' 0 → j = j') := by
    intro cp; cases cp <;> decide
  intro j j' hj hj'
  rcases h with rfl | rfl
  · have := hri cp ⟨j, hj⟩ ⟨j', hj'⟩
    exact ⟨this.1, fun e => by simpa using this.2 e⟩
  · have := hack cp ⟨j, hj⟩ ⟨j', hj'⟩
    exact ⟨this.1, fun e => by simpa using this.2 e⟩

/-- The cell of a vector within the field's clamp lies in the matrix (R272, R313). -/
theorem controlCell_lt {cp : CyclicPrefix} {columns : List Nat}
    (h : columns = riColumns cp ∨ columns = ackColumns cp) {rmux i : Nat} (hi : i < 4 * rmux) :
    controlCell columns cp.nSymbPusch rmux i < rmux * cp.nSymbPusch := by
  have hc := (columns_spec cp columns h (3 * i % 4) 0 (Nat.mod_lt _ (by decide)) (by decide)).1
  unfold controlCell
  have hrow : rmux - 1 - i / 4 + 1 ≤ rmux := by omega
  calc (rmux - 1 - i / 4) * cp.nSymbPusch + columns.getD (3 * i % 4) 0
      < (rmux - 1 - i / 4) * cp.nSymbPusch + cp.nSymbPusch := by omega
    _ = (rmux - 1 - i / 4 + 1) * cp.nSymbPusch := by ring
    _ ≤ rmux * cp.nSymbPusch := Nat.mul_le_mul_right _ hrow

/-- Two vectors of one field never take the same cell (R313, R314, R316). -/
theorem controlCell_inj {cp : CyclicPrefix} {columns : List Nat}
    (h : columns = riColumns cp ∨ columns = ackColumns cp) {rmux i i' : Nat} (hi : i < 4 * rmux) (hi' : i' < 4 * rmux)
    (e : controlCell columns cp.nSymbPusch rmux i = controlCell columns cp.nSymbPusch rmux i') : i = i' := by
  have hm : 3 * i % 4 < 4 := Nat.mod_lt _ (by decide)
  have hm' : 3 * i' % 4 < 4 := Nat.mod_lt _ (by decide)
  have hc := columns_spec cp columns h _ _ hm hm'
  have hc' := columns_spec cp columns h _ _ hm' hm
  have hpos : 0 < cp.nSymbPusch := by omega
  unfold controlCell at e
  have hdiv := congrArg (· / cp.nSymbPusch) e
  have hmod := congrArg (· % cp.nSymbPusch) e
  simp only [Nat.mul_add_mod_self_right, Nat.mod_eq_of_lt hc.1, Nat.mod_eq_of_lt hc'.1] at hmod
  rw [Nat.mul_comm _ cp.nSymbPusch, Nat.mul_comm _ cp.nSymbPusch] at hdiv
  simp only [Nat.mul_add_div hpos, Nat.div_eq_of_lt hc.1, Nat.div_eq_of_lt hc'.1, Nat.add_zero] at hdiv
  have := hc.2 hmod
  omega

/-- How many cells are still empty. -/
def emptyCells (y : List (Option CtlVector)) : Nat := y.countP (·.isNone)

theorem emptyCells_set {y : List (Option CtlVector)} {n : Nat} (h : y[n]? = some none) (v : CtlVector) :
    emptyCells (y.set n (some v)) + 1 = emptyCells y := by
  induction y generalizing n with
  | nil => simp at h
  | cons c y ih =>
    cases n with
    | zero =>
      obtain rfl : c = none := by simpa using h
      simp [emptyCells]
    | succ n =>
      have := ih (n := n) (by simpa using h)
      simp only [emptyCells, List.set_cons_succ, List.countP_cons] at this ⊢
      omega

/-- Placing RI vectors i, i+1, … fills as many empty cells (R312). -/
theorem emptyCells_placeRi {cp : CyclicPrefix} {rmux : Nat} (vs : List CtlVector) (i : Nat)
    (y : List (Option CtlVector)) (hlen : y.length = rmux * cp.nSymbPusch) (hi : i + vs.length ≤ 4 * rmux)
    (hempty : ∀ j, i ≤ j → j < 4 * rmux → y[controlCell (riColumns cp) cp.nSymbPusch rmux j]? = some none) :
    emptyCells (placeRi (riColumns cp) cp.nSymbPusch rmux i vs y) + vs.length = emptyCells y := by
  induction vs generalizing i y with
  | nil => simp [placeRi]
  | cons v vs ih =>
    simp only [List.length_cons] at hi ⊢
    have hrec := ih (i + 1) (y.set (controlCell (riColumns cp) cp.nSymbPusch rmux i) (some v)) (by simpa using hlen)
      (by omega) (by
        intro j hj hjm
        have hne : controlCell (riColumns cp) cp.nSymbPusch rmux i ≠ controlCell (riColumns cp) cp.nSymbPusch rmux j := by
          intro e
          have := controlCell_inj (Or.inl rfl) (by omega) hjm e
          omega
        rw [List.getElem?_set_ne hne]
        exact hempty j (by omega) hjm)
    have hset := emptyCells_set (hempty i le_rfl (by omega)) v
    rw [placeRi]
    omega

theorem mem_placeRi {columns : List Nat} {cmux rmux : Nat} {vs : List CtlVector} {i : Nat}
    {y : List (Option CtlVector)} {v : CtlVector} (h : some v ∈ placeRi columns cmux rmux i vs y) :
    v ∈ vs ∨ some v ∈ y := by
  induction vs generalizing i y with
  | nil => exact Or.inr h
  | cons u vs ih =>
    rcases ih h with h | h
    · exact Or.inl (by simp [h])
    · rcases List.mem_or_eq_of_mem_set h with h | h
      · exact Or.inr h
      · exact Or.inl (by simp_all)

theorem mem_placeAck {columns : List Nat} {cmux rmux : Nat} {vs : List CtlVector} {i : Nat} {y : List CtlVector}
    {v : CtlVector} (h : v ∈ placeAck columns cmux rmux i vs y) : v ∈ vs ∨ v ∈ y := by
  induction vs generalizing i y with
  | nil => exact Or.inr h
  | cons u vs ih =>
    rcases ih h with h | h
    · exact Or.inl (by simp [h])
    · rcases List.mem_or_eq_of_mem_set h with h | h
      · exact Or.inr h
      · exact Or.inl (by simp [h])

/-- With enough vectors for the empty cells, every cell holds a vector that was placed or filled (R315). -/
theorem mem_fillData {cells : List (Option CtlVector)} {g : List CtlVector} (henough : emptyCells cells ≤ g.length)
    {v : CtlVector} (h : v ∈ fillData cells g) : some v ∈ cells ∨ v ∈ g := by
  induction cells generalizing g with
  | nil => simp [fillData] at h
  | cons c cells ih =>
    cases c with
    | some u =>
      rcases List.mem_cons.1 h with rfl | h
      · exact Or.inl (by simp)
      · rcases ih (by simpa [emptyCells] using henough) h with h | h
        · exact Or.inl (by simp [h])
        · exact Or.inr h
    | none =>
      cases g with
      | nil => simp [emptyCells] at henough
      | cons u g =>
        rcases List.mem_cons.1 h with rfl | h
        · exact Or.inr (by simp)
        · rcases ih (g := g) (by simpa [emptyCells] using henough) h with h | h
          · exact Or.inl (by simp [h])
          · exact Or.inr (by simp [h])

theorem emptyCells_replicate (n : Nat) : emptyCells (List.replicate n none) = n := by
  rw [emptyCells, List.countP_replicate]
  rfl

/-- The matrix is full of Q_m-element vectors (R312), when RI is within its clamp and the data sequence fills the rest. -/
theorem interleaverMatrix_spec {cp : CyclicPrefix} {msc qm : Nat} {g ri ack : List CtlVector}
    (hri : ri.length ≤ 4 * msc) (hg : msc * cp.nSymbPusch ≤ g.length + ri.length)
    (hgv : ∀ v ∈ g, v.length = qm) (hriv : ∀ v ∈ ri, v.length = qm) (hackv : ∀ v ∈ ack, v.length = qm) :
    (interleaverMatrix cp msc g ri ack).length = msc * cp.nSymbPusch ∧
      ∀ v ∈ interleaverMatrix cp msc g ri ack, v.length = qm := by
  have hcount := emptyCells_placeRi (cp := cp) (rmux := msc) ri 0 (List.replicate (msc * cp.nSymbPusch) none)
    (by simp) (by omega) (fun j _ hj => by
      rw [List.getElem?_replicate]
      simp [controlCell_lt (Or.inl rfl) hj])
  rw [emptyCells_replicate] at hcount
  constructor
  · simp [interleaverMatrix]
  · intro v hv
    rcases mem_placeAck hv with h | h
    · exact hackv v h
    · rcases mem_fillData (by omega) h with h | h
      · rcases mem_placeRi h with h | h
        · exact hriv v h
        · simp at h
      · exact hgv v h

theorem length_readColumns {cmux rmux qm : Nat} {y : List CtlVector} (hlen : y.length = rmux * cmux)
    (hv : ∀ v ∈ y, v.length = qm) : (readColumns cmux rmux y).length = qm * (rmux * cmux) := by
  have hrow : ∀ row ∈ vectors cmux rmux y, row.length = cmux :=
    length_of_mem_vectors (by rw [hlen, Nat.mul_comm])
  have hsub : ∀ (count : Nat) (l : List CtlVector), ∀ row ∈ vectors cmux count l, ∀ v ∈ row, v ∈ l := by
    intro count
    induction count with
    | zero => simp [vectors]
    | succ count ih =>
      intro l row hr v hvr
      rcases List.mem_cons.1 hr with rfl | hr
      · exact List.mem_of_mem_take hvr
      · exact List.mem_of_mem_drop (ih _ row hr v hvr)
  have hcol : ∀ c ∈ List.range cmux,
      (((vectors cmux rmux y).map fun row => row.getD c []).flatten).length = rmux * qm := by
    intro c hc
    rw [List.length_flatten, List.map_map]
    have : ((vectors cmux rmux y).map (List.length ∘ fun row => row.getD c [])) =
        List.replicate rmux qm := by
      rw [List.eq_replicate_iff]
      refine ⟨by simp, fun n hn => ?_⟩
      obtain ⟨row, hr, rfl⟩ := List.mem_map.1 hn
      have hcr : c < row.length := by rw [hrow row hr]; exact List.mem_range.1 hc
      simp only [Function.comp_apply, List.getD_eq_getElem _ _ hcr]
      exact hv _ (hsub _ _ row hr _ (List.getElem_mem _))
    rw [this, List.sum_replicate, smul_eq_mul]
  rw [readColumns, List.length_flatten, List.map_map]
  have : ((List.range cmux).map (List.length ∘ fun c =>
      ((vectors cmux rmux y).map fun row => row.getD c []).flatten)) = List.replicate cmux (rmux * qm) := by
    rw [List.eq_replicate_iff]
    refine ⟨by simp, fun n hn => ?_⟩
    obtain ⟨c, hc, rfl⟩ := List.mem_map.1 hn
    exact hcol c hc
  rw [this, List.sum_replicate, smul_eq_mul]
  ring

/-! ## Scrambling and modulation -/

@[simp] theorem length_goldOutput (n x1 x2 : Nat) : (goldOutput n x1 x2).length = n := by
  induction n generalizing x1 x2 with
  | zero => rfl
  | succ n ih => simp [goldOutput, ih]

theorem length_scrambleFrom (prev : Bool) (h : List CtlBit) (c : List Bool) (hlen : h.length = c.length) :
    (scrambleFrom prev h c).length = h.length := by
  induction h generalizing prev c with
  | nil => rfl
  | cons e h ih =>
    cases c with
    | nil => simp at hlen
    | cons b c => simp [scrambleFrom, ih _ c (by simpa using hlen)]

@[simp] theorem length_scramble (h : List CtlBit) (rnti sf cellId : Nat) :
    (scramble h rnti sf cellId).length = h.length :=
  length_scrambleFrom _ _ _ (by simp [goldSequence])

@[simp] theorem length_mapSymbols (m : Modulation) (n : Nat) (bits : List Bool) : (mapSymbols m n bits).length = n := by
  induction n generalizing bits with
  | zero => rfl
  | succ n ih => simp [mapSymbols, ih]

theorem Modulation.order_pos (m : Modulation) : 0 < m.order := by cases m <;> decide

theorem modulate_of_length {m : Modulation} {bits : List Bool} {n : Nat} (h : bits.length = m.order * n) :
    modulate m bits = .ok (mapSymbols m n bits) := by
  simp [modulate, h, Nat.mul_div_cancel_left _ m.order_pos]

end Sys2Proof.Machine
end

