-- ==== Sys2Proof/Laws/Exec.lean ====
section
/-! SUPPORT. What each shared operation can do, said once: the operand checks, the plan, the bits and the pipeline of
PUSCH_TX, the outcomes of a command, of a host access and of a step. -/

namespace Sys2Proof.Machine

/-! ## Operand checks -/

theorem procIndex_eq_some_iff {proc : BitVec 4} {p : Fin 8} : procIndex proc = some p ↔ p.val = proc.toNat := by
  unfold procIndex
  split
  · simp only [Option.some.injEq, Fin.ext_iff]
    exact eq_comm
  · simp only [reduceCtorEq, false_iff]
    have := p.isLt
    omega

theorem procIndex_eq_none_iff {proc : BitVec 4} : procIndex proc = none ↔ 8 ≤ proc.toNat := by
  unfold procIndex
  split <;> simp <;> omega

theorem modulationOf_eq_none_iff {mod : BitVec 2} : modulationOf mod = none ↔ mod = 3 := by
  revert mod; decide

/-- The validation of PUSCH_TX, as the list of its conditions (40_commands.md R159). -/
theorem puschTarget_eq_some_iff {cmd : TxCommand} {regs : ArgRegs} {cell : CellConfig} {t : TxTarget} :
    puschTarget cmd regs cell = some t ↔
      procIndex cmd.proc = some t.p ∧ modulationOf cmd.mod = some t.m ∧ cmd.sf.toNat < 10 ∧ cell.configured = true ∧
        legalAlloc regs.alloc cell = true ∧ legalUciLen regs.uciLen = true ∧
        (cmd.ndi = true → legalTbSize regs.tbSize regs.tbLen = true) := by
  unfold puschTarget
  cases hp : procIndex cmd.proc with
  | none => simp
  | some p =>
    cases hm : modulationOf cmd.mod with
    | none => simp
    | some m =>
      cases hn : cmd.ndi <;> cases t <;>
        simp [TxTarget.mk.injEq] <;> tauto

/-! ## The plan -/

/-- What an admitted command passed (40_commands.md R159, R163, R164). -/
theorem puschAdmit_eq_ok {cmd : TxCommand} {s : State} {target : TxTarget} (h : puschAdmit cmd s = .ok target) :
    puschTarget cmd s.inputs.regs s.cell = some target ∧
      (cmd.ndi = false → (s.slot target.p).init = true ∧ nPrbOf s.inputs.regs.alloc = (s.slot target.p).nprbDecl) := by
  unfold puschAdmit at h
  cases ht : puschTarget cmd s.inputs.regs s.cell with
  | none => simp [ht] at h
  | some target' =>
    simp only [ht] at h
    split at h
    · cases h
    · rename_i h1
      split at h
      · cases h
      · rename_i h2
        cases h
        refine ⟨rfl, fun hn => ?_⟩
        simp only [hn, Bool.not_false, Bool.true_and, Bool.not_eq_true', decide_eq_true_eq] at h1 h2
        exact ⟨by simpa using h1, by simpa using h2⟩

theorem puschAdmit_error_ne_ok {cmd : TxCommand} {s : State} {code : ErrCode} (h : puschAdmit cmd s = .error code) :
    code ≠ .ok := by
  unfold puschAdmit at h
  simp only at h
  repeat' split at h
  all_goals cases h
  all_goals decide

/-- What a sized command holds, and which checks it passed (40_commands.md R160, R166, R167). -/
theorem puschSizing_eq_ok {cmd : TxCommand} {s : State} {target : TxTarget} {plan : TxPlan}
    (h : puschSizing cmd s target = .ok plan) :
    plan.target = target ∧ plan.src = txSource cmd.ndi s.inputs.regs s.cell (s.slot target.p) ∧
      plan.sizes = txSizes plan.src s.inputs.regs s.cell target.m ∧
      plan.sizes.qpCqi + plan.sizes.qpRi + plan.sizes.qpAck ≤ plan.sizes.msc * plan.sizes.nsymb ∧
      tooSmall plan.src.seg plan.sizes.e = false := by
  unfold puschSizing at h
  simp only at h
  split at h
  · cases h
  · rename_i h3
    split at h
    · cases h
    · rename_i h4
      cases h
      exact ⟨rfl, rfl, rfl, by simpa using h3, by simpa using h4⟩

theorem puschSizing_error_ne_ok {cmd : TxCommand} {s : State} {target : TxTarget} {code : ErrCode}
    (h : puschSizing cmd s target = .error code) : code ≠ .ok := by
  unfold puschSizing at h
  simp only at h
  repeat' split at h
  all_goals cases h
  all_goals decide

/-- What a plan holds, and which checks it passed (40_commands.md R160). -/
theorem puschPlan_eq_ok {cmd : TxCommand} {s : State} {plan : TxPlan} (h : puschPlan cmd s = .ok plan) :
    puschTarget cmd s.inputs.regs s.cell = some plan.target ∧
      plan.src = txSource cmd.ndi s.inputs.regs s.cell (s.slot plan.target.p) ∧
      plan.sizes = txSizes plan.src s.inputs.regs s.cell plan.target.m ∧
      (cmd.ndi = false → (s.slot plan.target.p).init = true ∧
        nPrbOf s.inputs.regs.alloc = (s.slot plan.target.p).nprbDecl) ∧
      plan.sizes.qpCqi + plan.sizes.qpRi + plan.sizes.qpAck ≤ plan.sizes.msc * plan.sizes.nsymb ∧
      tooSmall plan.src.seg plan.sizes.e = false := by
  unfold puschPlan at h
  split at h
  · cases h
  · rename_i target ha
    obtain ⟨ht, hd⟩ := puschAdmit_eq_ok ha
    obtain ⟨rfl, h1, h2, h3, h4⟩ := puschSizing_eq_ok h
    exact ⟨ht, h1, h2, hd, h3, h4⟩

/-- A plan that fails has a code other than OK. -/
theorem puschPlan_error_ne_ok {cmd : TxCommand} {s : State} {code : ErrCode} (h : puschPlan cmd s = .error code) :
    code ≠ .ok := by
  unfold puschPlan at h
  split at h
  · rename_i ha
    cases h
    exact puschAdmit_error_ne_ok ha
  · exact puschSizing_error_ne_ok h

/-- C, the number of code blocks (41_tb_coder.md R205). -/
theorem segmentation_c (b : Nat) :
    (segmentation b).c = if b ≤ maxBlock then 1 else ceilDiv b (maxBlock - 24) := by
  simp only [segmentation]
  by_cases h : b ≤ maxBlock
  · simp [h]
  · simp only [h, if_false]
    split
    · rename_i h1; exact h1.symm
    · rfl

theorem segmentation_c_pos (b : Nat) : 0 < (segmentation b).c := by
  rw [segmentation_c]
  split
  · exact Nat.one_pos
  · simp only [ceilDiv, maxBlock] at *
    omega

/-! ## The bits -/

theorem readTxBits_eq_some {ndi : Bool} {inp : CmdInputs} {bits : TxBits} (h : readTxBits ndi inp = some bits) :
    inp.mem.readBits .tb (if ndi then tbLenOf inp.regs.tbLen else 0) = some bits.tb ∧
      inp.mem.readBits .cqi (oCqiOf inp.regs.uciLen) = some bits.cqi ∧
      inp.mem.readBits .ri (oRiOf inp.regs.uciLen) = some bits.ri ∧
      inp.mem.readBits .ack (oAckOf inp.regs.uciLen) = some bits.ack := by
  unfold readTxBits at h
  split at h
  · rename_i tb htb
    unfold readUci at h
    split at h
    · rename_i h2 h3 h4
      cases h
      exact ⟨htb, h2, h3, h4⟩
    · cases h
  · cases h

/-- Bits 0 .. n−1 can be read exactly when every one was written. -/
theorem Memory.readBits_isSome_iff (m : Memory) (bm : BitMem) (n : Nat) :
    (∃ bs, m.readBits bm n = some bs) ↔ m.written bm n := by
  constructor
  · rintro ⟨bs, h⟩ i hi
    rw [((m.readBits_eq_some_iff bm n bs).1 h).2 i hi]
    rfl
  · intro h
    refine ⟨(List.range n).map fun i => (m.bitAt bm.base i).getD false, ?_⟩
    rw [Memory.readBits_eq_some_iff]
    refine ⟨by simp, fun j hj => ?_⟩
    obtain ⟨b, hb⟩ := Option.isSome_iff_exists.1 (h j hj)
    simp [hb, hj]

/-! ## The pipeline -/

/-- What the stages give when they give something. -/
theorem txPipeline_eq_ok {cmd : TxCommand} {regs : ArgRegs} {cell : CellConfig} {plan : TxPlan} {bits : TxBits}
    {w : List (List Trit)} {out : TxResult} (h : txPipeline cmd regs cell plan bits w = .ok out) :
    out.w = w ∧ out.f = rateMatch w plan.sizes.e cmd.rv.toNat ∧
      ∃ points, modulate plan.target.m (txScrambled cmd.sf regs cell plan bits out.f) = .ok points ∧
        out.grid = mapToGrid plan.target.m.norm points (rbStartOf regs.alloc).toNat (nPrbOf regs.alloc).toNat cell ∧
        out.wave = synthesize out.grid cell := by
  unfold txPipeline at h
  simp only at h
  split at h
  · cases h
  · rename_i points hp
    cases h
    exact ⟨rfl, rfl, points, hp, rfl, rfl⟩

theorem txPipeline_error_ne_ok {cmd : TxCommand} {regs : ArgRegs} {cell : CellConfig} {plan : TxPlan} {bits : TxBits}
    {w : List (List Trit)} {code : ErrCode} (h : txPipeline cmd regs cell plan bits w = .error code) : code ≠ .ok := by
  unfold txPipeline at h
  simp only at h
  split at h
  · rename_i c hc
    cases h
    unfold modulate at hc
    split at hc <;> cases hc
    decide
  · cases h

/-- Everything a PUSCH_TX can do: record an error code and nothing else, stop at an input bit never written, or commit what
the stages gave and record OK (40_commands.md R160, R175). -/
theorem runPuschTx_cases (cmd : TxCommand) (s : State) :
    (∃ code, code ≠ .ok ∧ runPuschTx cmd s = .next (s.complete opcodePuschTx cmd.proc code)) ∨
      runPuschTx cmd s = .fault .neverWrittenInput ∨
      ∃ plan bits out, puschPlan cmd s = .ok plan ∧ readTxBits cmd.ndi s.inputs = some bits ∧
        txPipeline cmd s.inputs.regs s.cell plan bits
          (txBuffers cmd.ndi plan.src.seg bits.tb (s.slot plan.target.p)) = .ok out ∧
        runPuschTx cmd s = .next ((commitTx cmd plan out s).complete opcodePuschTx cmd.proc .ok) := by
  unfold runPuschTx
  cases ha : puschAdmit cmd s with
  | error code => exact .inl ⟨code, puschAdmit_error_ne_ok ha, rfl⟩
  | ok target =>
    cases hb : readPayload cmd.ndi s.inputs with
    | none => exact .inr (.inl rfl)
    | some tb =>
      cases hs : puschSizing cmd s target with
      | error code => exact .inl ⟨code, puschSizing_error_ne_ok hs, by simp [hs, State.raiseErr]⟩
      | ok plan =>
        cases hu : readUci tb s.inputs with
        | none => exact .inr (.inl (by simp [hs, hu]))
        | some bits =>
          cases ho : txPipeline cmd s.inputs.regs s.cell plan bits
              (txBuffers cmd.ndi plan.src.seg bits.tb (s.slot plan.target.p)) with
          | error code => exact .inl ⟨code, txPipeline_error_ne_ok ho, by simp [hs, hu, ho, State.raiseErr]⟩
          | ok out =>
            exact .inr (.inr ⟨plan, bits, out, by simp [puschPlan, ha, hs], by simp [readTxBits, hb, hu], ho,
              by simp [hs, hu, ho, State.finish]⟩)

/-! ## What a command does -/

/-- What a successful command changes before its epilogue. -/
inductive CommandEffect : Instr → State → State → Prop
  | nop (s : State) : CommandEffect .nop s s
  | cellConfig (s : State) (cell : CellConfig) (hs : s.cell.configured = false)
      (hc : cellOf s.inputs.regs.cellCfg = some cell) : CommandEffect .cellConfig s { s with cell := cell }
  | procConfig (s : State) (proc : BitVec 4) (p : Fin 8) (hp : procIndex proc = some p)
      (hs : s.cell.configured = true) (ha : legalAlloc s.inputs.regs.alloc s.cell = true) :
      CommandEffect (.procConfig proc) s (s.setSlot p { s.slot p with nprbDecl := nPrbOf s.inputs.regs.alloc })
  | procFlush (s : State) (proc : BitVec 4) (p : Fin 8) (hp : procIndex proc = some p) :
      CommandEffect (.procFlush proc) s (s.setSlot p { s.slot p with init := false })
  | puschTx (s : State) (cmd : TxCommand) (plan : TxPlan) (bits : TxBits) (out : TxResult)
      (hplan : puschPlan cmd s = .ok plan) (hbits : readTxBits cmd.ndi s.inputs = some bits)
      (hout : txPipeline cmd s.inputs.regs s.cell plan bits
        (txBuffers cmd.ndi plan.src.seg bits.tb (s.slot plan.target.p)) = .ok out) :
      CommandEffect
        (.puschTx cmd.proc cmd.rv cmd.ndi cmd.mod cmd.sf cmd.dumpGrid cmd.dumpBits cmd.dumpHarq) s
        (commitTx cmd plan out s)

/-- Everything a command can do when it gives a next state: fail and record its code, or have its effect and record OK. -/
theorem exec_cases {i : Instr} {s t : State} (h : exec i s = .next t) :
    (∃ code, code ≠ .ok ∧ t = s.complete i.opcode i.procBits code) ∨
      ∃ u, CommandEffect i s u ∧ t = u.complete i.opcode i.procBits .ok := by
  cases i with
  | nop =>
    cases h
    exact .inr ⟨s, .nop s, rfl⟩
  | cellConfig =>
    simp only [exec, execCellConfig] at h
    split at h
    · cases h; exact .inl ⟨_, by decide, rfl⟩
    · rename_i hs
      split at h
      · cases h; exact .inl ⟨_, by decide, rfl⟩
      · rename_i cell hc
        cases h; exact .inr ⟨_, .cellConfig s cell (by simpa using hs) hc, rfl⟩
  | procConfig proc =>
    simp only [exec, execProcConfig] at h
    split at h
    · cases h; exact .inl ⟨_, by decide, rfl⟩
    · rename_i p hp
      split at h
      · rename_i hs
        rw [Bool.and_eq_true] at hs
        cases h; exact .inr ⟨_, .procConfig s proc p hp hs.1 hs.2, rfl⟩
      · cases h; exact .inl ⟨_, by decide, rfl⟩
  | procFlush proc =>
    simp only [exec, execProcFlush] at h
    split at h
    · cases h; exact .inl ⟨_, by decide, rfl⟩
    · rename_i p hp
      cases h; exact .inr ⟨_, .procFlush s proc p hp, rfl⟩
  | puschTx proc rv ndi mod sf dg db dh =>
    change runPuschTx ⟨proc, rv, ndi, mod, sf, dg, db, dh⟩ s = _ at h
    rcases runPuschTx_cases ⟨proc, rv, ndi, mod, sf, dg, db, dh⟩ s with ⟨code, hc, e⟩ | e |
      ⟨plan, bits, out, hplan, hbits, hout, e⟩ <;> rw [e] at h <;> cases h
    · exact .inl ⟨code, hc, rfl⟩
    · exact .inr ⟨_, .puschTx s ⟨proc, rv, ndi, mod, sf, dg, db, dh⟩ plan bits out hplan hbits hout, rfl⟩

/-- A command never refuses, and stops only where PUSCH_TX needs a bit that was never written. -/
theorem exec_total (i : Instr) (s : State) :
    (∃ t, exec i s = .next t) ∨ exec i s = .fault .neverWrittenInput := by
  cases i with
  | nop => exact .inl ⟨_, rfl⟩
  | cellConfig =>
    simp only [exec, execCellConfig]
    split
    · exact .inl ⟨_, rfl⟩
    · split <;> exact .inl ⟨_, rfl⟩
  | procConfig proc =>
    simp only [exec, execProcConfig]
    split
    · exact .inl ⟨_, rfl⟩
    · split <;> exact .inl ⟨_, rfl⟩
  | procFlush proc =>
    simp only [exec, execProcFlush]
    split <;> exact .inl ⟨_, rfl⟩
  | puschTx proc rv ndi mod sf dg db dh =>
    rcases runPuschTx_cases ⟨proc, rv, ndi, mod, sf, dg, db, dh⟩ s with ⟨code, -, e⟩ | e | ⟨plan, bits, out, -, -, -, e⟩
    · exact .inl ⟨_, e⟩
    · exact .inr e
    · exact .inl ⟨_, e⟩

/-! ## Host accesses -/

/-- Everything a masked host write can do: nothing, a write of the memory, or that and a race with a pending command. -/
theorem State.storeMasked_cases (s : State) (a : Nat) (vks : List (Byte × Byte)) :
    s.storeMasked a vks = s ∨
      (s.busy = false ∧ s.storeMasked a vks = { s with mem := s.mem.writeMasked a (writableMasks a vks) }) ∨
      (s.busy = true ∧ s.storeMasked a vks =
        { s with
          mem := s.mem.writeMasked a (writableMasks a vks)
          raced := some { s.inputs with
            mem := s.inputs.mem.writeMasked a (racedMasks s.draws (writableMasks a vks)) }
          draws := s.draws + (writableMasks a vks).length }) := by
  unfold State.storeMasked
  simp only
  split
  · exact .inl rfl
  · split
    · rename_i hb; exact .inr (.inr ⟨hb, rfl⟩)
    · rename_i hb; exact .inr (.inl ⟨by simpa using hb, rfl⟩)

/-- Everything a register write can do (10_state.md R32, 20_memory.md R87). -/
theorem State.writeReg_cases (s : State) (offset : Nat) (data : Word) :
    s.writeReg offset data = s ∨ (offset = 0x004 ∧ s.writeReg offset data = s.softReset) ∨
      (offset = 0x008 ∧ s.writeReg offset data = { s with status := { s.status with cmdDropped := false } }) ∨
      (offset = 0x00C ∧ s.writeReg offset data = s.writeCmd data) ∨
      ∃ r, argRegAt offset = some r ∧ s.writeReg offset data = s.writeArg r data := by
  unfold State.writeReg
  split
  · rename_i h
    split
    · exact .inr (.inl ⟨h, rfl⟩)
    · exact .inl rfl
  · split
    · rename_i h
      split
      · exact .inr (.inr (.inl ⟨h, rfl⟩))
      · exact .inl rfl
    · split
      · rename_i h
        exact .inr (.inr (.inr (.inl ⟨h, rfl⟩)))
      · split
        · rename_i r hr
          exact .inr (.inr (.inr (.inr ⟨r, hr, rfl⟩)))
        · exact .inl rfl

/-- A register read changes only what the last read returned and the count of free values drawn (20_memory.md R87). -/
theorem State.readReg_cases (s : State) (offset : Nat) :
    ∃ value written draws, s.readReg offset = { s.withRead .w32 value written with draws := draws } := by
  unfold State.readReg
  split
  · split
    · exact ⟨_, _, _, rfl⟩
    · exact ⟨_, _, s.draws, rfl⟩
  · exact ⟨_, _, s.draws, rfl⟩

/-- A memory read, when it answers, changes only what the last read returned and the count of free values drawn. -/
theorem State.readMem_cases {s t : State} {width : Width} {a : Nat} (h : s.readMem width a = .next t) :
    ∃ value written draws, t = { s.withRead width value written with draws := draws } := by
  unfold State.readMem at h
  simp only at h
  split at h
  · cases h
  · cases h
    split
    · exact ⟨_, _, _, rfl⟩
    · exact ⟨_, _, s.draws, rfl⟩

/-- Everything a host access can do when it gives a next state. -/
theorem hostAccess_cases {access : HostAccess} {s t : State} (h : hostAccess access s = .next t) :
    (∃ width value written draws, t = { s.withRead width value written with draws := draws }) ∨
      (∃ offset data, t = s.writeReg offset data) ∨ ∃ a vks, t = s.storeMasked a vks := by
  cases access with
  | read width offset =>
    simp only [hostAccess] at h
    split at h
    · split at h
      · cases h
        obtain ⟨v, w, d, e⟩ := s.readReg_cases offset.toNat
        exact .inl ⟨_, v, w, d, e⟩
      · obtain ⟨v, w, d, e⟩ := State.readMem_cases h
        exact .inl ⟨_, v, w, d, e⟩
    · cases h
  | write width offset data =>
    simp only [hostAccess] at h
    split at h
    · split at h
      · cases h; exact .inr (.inl ⟨_, _, rfl⟩)
      · cases h; exact .inr (.inr ⟨_, _, rfl⟩)
    · cases h
  | writeBits mem bits =>
    cases h; exact .inr (.inr ⟨_, _, rfl⟩)

/-! ## Turns and steps -/

/-- Everything the PTC's turn can do when it gives a next state. -/
theorem ptcTurn_cases {s t : State} (h : ptcTurn s = .next t) :
    (s.pending = none ∧ t = s) ∨
      (∃ w i, s.pending = some w ∧ decode w = .ok i ∧ exec i s = .next t) ∨
      ∃ w e, s.pending = some w ∧ decode w = .error e ∧
        t = s.complete (opcodeField w) (procField w) .invalidConfiguration := by
  unfold ptcTurn at h
  split at h
  · rename_i hp
    cases h; exact .inl ⟨hp, rfl⟩
  · rename_i w hp
    split at h
    · rename_i i hi
      exact .inr (.inl ⟨w, i, hp, hi, h⟩)
    · rename_i e he
      cases h; exact .inr (.inr ⟨w, e, hp, he, rfl⟩)

/-- Everything a step can do when it gives a next state. -/
theorem step_cases {s t : State} (h : step s = .next t) :
    (s.turns = [] ∧ ptcTurn s = .next t) ∨
      ∃ turn rest, s.turns = turn :: rest ∧
        ((turn = .ptc ∧ ptcTurn { s with turns := rest } = .next t) ∨
          (turn = .hardwareReset ∧ t = State.hardwareReset { s with turns := rest }) ∨
          ∃ access, turn = .host access ∧ hostAccess access { s with turns := rest } = .next t) := by
  unfold step at h
  split at h
  · rename_i ht
    exact .inl ⟨ht, h⟩
  · rename_i turn rest ht
    refine .inr ⟨turn, rest, ht, ?_⟩
    cases turn with
    | ptc => exact .inl ⟨rfl, h⟩
    | hardwareReset => cases h; exact .inr (.inl ⟨rfl, rfl⟩)
    | host access => exact .inr (.inr ⟨access, rfl, h⟩)

end Sys2Proof.Machine
end

