-- ==== Sys2Proof/Laws/PerInstr.lean ====
section
/-! SUPPORT. Facts about every command as syntax, one lemma per constructor. -/

namespace Sys2Proof.Laws

theorem opcodeField_append (op : BitVec 8) (proc : BitVec 4) (low : BitVec 20) :
    opcodeField (op ++ proc ++ low) = op := by
  apply BitVec.eq_of_getLsbD_eq
  intro i hi
  simp only [opcodeField, BitVec.getLsbD_extractLsb', BitVec.getLsbD_append, hi, decide_true, Bool.true_and]
  rw [if_neg (by omega), if_neg (by omega)]
  congr 1
  omega

theorem procField_append (op : BitVec 8) (proc : BitVec 4) (low : BitVec 20) :
    procField (op ++ proc ++ low) = proc := by
  apply BitVec.eq_of_getLsbD_eq
  intro i hi
  simp only [procField, BitVec.getLsbD_extractLsb', BitVec.getLsbD_append, hi, decide_true, Bool.true_and]
  rw [if_neg (by omega), if_pos (by omega)]
  congr 1
  omega

/-- The word of a command holds its OPCODE and PROC fields, the two a completed command records (30_encoding.md R110;
40_commands.md R149). -/
def EncodeFields.Statement (i : Instr) : Prop :=
  opcodeField (encode i) = i.opcode ∧ procField (encode i) = i.procBits

theorem EncodeFields.holds (i : Instr) : EncodeFields.Statement i :=
  ⟨opcodeField_append _ _ _, procField_append _ _ _⟩

theorem EncodeFields.nop : EncodeFields.Statement .nop := holds _
theorem EncodeFields.cellConfig : EncodeFields.Statement .cellConfig := holds _
theorem EncodeFields.procConfig (proc : BitVec 4) : EncodeFields.Statement (.procConfig proc) := holds _
theorem EncodeFields.procFlush (proc : BitVec 4) : EncodeFields.Statement (.procFlush proc) := holds _
theorem EncodeFields.puschTx (proc : BitVec 4) (rv : BitVec 2) (ndi : Bool) (mod : BitVec 2) (sf : BitVec 4)
    (dumpGrid dumpBits dumpHarq : Bool) :
    EncodeFields.Statement (.puschTx proc rv ndi mod sf dumpGrid dumpBits dumpHarq) := holds _

end Sys2Proof.Laws
end

