-- ==== Sys2Proof/Tests/Slice0.lean ====
section
/-! SUPPORT. Tests: the well-formedness checks, words of the encoding tables, the spec's own vectors, one step of each
command on a small state, and for every statement with hypotheses a concrete state and operands that meet them. Expected
values come from spec/ (95_test_vectors.md and the examples of the rules), never from the model. -/

namespace Sys2Proof.Tests

open Sys2Proof Sys2Proof.Machine

-- One theorem after another: each kernel evaluation would otherwise hold a thread of its own.
set_option Elab.async false

/-! ## Well-formedness: an ill-formed command for each check (30_encoding.md R114) -/

theorem test_proc_out_of_range_config : (Instr.procConfig 8).wellFormed = false := by decide
theorem test_proc_out_of_range_flush : (Instr.procFlush 8).wellFormed = false := by decide
theorem test_proc_out_of_range_tx : (Instr.puschTx 8 0 true 0 0 false false false).wellFormed = false := by decide
theorem test_mod_reserved : (Instr.puschTx 0 0 true 3 0 false false false).wellFormed = false := by decide
theorem test_sf_out_of_range : (Instr.puschTx 0 0 true 0 10 false false false).wellFormed = false := by decide
theorem test_well_formed_limits : (Instr.puschTx 7 3 true 2 9 true true true).wellFormed = true := by decide

/-! ## Decoding: words written out from 30_encoding.md R110, R130 -/

theorem test_decode_nop : decode 0x00000000 = .ok .nop := by decide
theorem test_decode_cell_config : decode 0x01000000 = .ok .cellConfig := by decide
theorem test_decode_proc_config : decode 0b00000010001000000000000000000000 = .ok (.procConfig 2) := by decide
theorem test_decode_proc_flush : decode 0b00000011011100000000000000000000 = .ok (.procFlush 7) := by decide
theorem test_decode_pusch_new : decode 0x10020000 = .ok (.puschTx 0 0 true 0 0 false false false) := by decide
theorem test_decode_pusch_grid : decode 0x10165200 = .ok (.puschTx 1 1 true 1 4 true false false) := by decide
theorem test_decode_pusch_all : decode 0x107CA780 = .ok (.puschTx 7 3 false 2 9 true true true) := by decide
theorem test_decode_reserved_opcode : decode 0x04000000 = .error .reservedOpcode := by decide
theorem test_decode_nop_bit : decode 0x00000001 = .error .nonzeroUnused := by decide
theorem test_decode_pusch_bit16 : decode 0x10030000 = .error .nonzeroUnused := by decide
theorem test_encode_pusch_all : encode (.puschTx 7 3 false 2 9 true true true) = 0x107CA780 := by decide
theorem test_table_word : decodeTableWord 32 0x02200000 = some (.procConfig 2) := by decide

/-! ## Vectors of the stages -/

/-- Bits from a numeral, the first bit most significant. -/
def bitsOf (n v : Nat) : List Bool := (List.range n).map fun i => v.testBit (n - 1 - i)

/-- V1.1, V1.2, V1.3. -/
theorem test_crc24a : crcParity gCrc24A 24 (bitsOf 16 0xA53C) = bitsOf 24 0xE02A65 := by decide +kernel
theorem test_crc24b : crcParity gCrc24B 24 (bitsOf 16 0xA53C) = bitsOf 24 0x280578 := by decide +kernel
theorem test_crc8 : crcParity gCrc8 8 (bitsOf 16 0xA53C) = bitsOf 8 0x82 := by decide +kernel
/-- V1.14. -/
theorem test_segmentation_40000 :
    segmentation 40000 = { c := 7, cPlus := 5, cMinus := 2, kPlus := 5760, kMinus := 5696, f := 24, l := 24 } := by
  decide +kernel
/-- V1.17. -/
theorem test_qpp_6144 : (List.range 6).map (qppIndex 6144) = [0, 743, 2446, 5109, 2588, 1027] := by decide +kernel
/-- The impulse of 41_tb_coder.md R211. -/
def impulse : List Trit := some true :: List.replicate 39 (some false)
/-- V1.18. -/
theorem test_turbo_impulse :
    (turboEncode impulse).d1 = (bitsOf 44 0b11110010111001011100101110010111001011100101).map some := by decide +kernel
/-- 42_rate_matcher.md R259, rv 3: the read wraps. -/
theorem test_select_rv3 : selectBits (circularBuffer (turboEncode impulse)) 60 148 =
    bitsOf 60 0b110100111011110110100011001100010000001000000000000000000000 := by decide +kernel
/-- V2.7. -/
theorem test_block_lengths : blockLengths 10 2 3 = [2, 4, 4] := by decide
/-- V3.1, V3.5, V3.6. -/
theorem test_budget_ack : [1, 8, 16, 20, 24, 65535].map (fun beta => qPrimeAckRi 1 72 12 beta 144 72) =
    [1, 6, 12, 15, 18, 288] := by decide +kernel
theorem test_budget_cqi : (qPrimeCqi 20 12 12 16 144 12 12 0, qPrimeCqi 100 12 12 16 144 12 12 0) = (56, 144) := by
  decide +kernel
/-- 43_uci_encoder.md R282, eleven ones. -/
theorem test_rm32 : rm32 (List.replicate 11 true) = bitsOf 32 0b11010110111111101111011110000011 := by decide +kernel
/-- V3.10. -/
theorem test_cqi_long : encodeCqi (bitsOf 20 0b10110010111000101001) 40 =
    bitsOf 40 0b0111110011011011011011100101101000101010 := by decide +kernel
/-- 43_uci_encoder.md R287. -/
theorem test_ack_one : encodeAckRi [true] 4 8 = [.bit true, .y, .x, .x, .bit true, .y, .x, .x] := by decide
theorem test_ack_two : encodeAckRi [true, false] 2 6 =
    [.bit true, .bit false, .bit true, .bit true, .bit false, .bit true] := by decide
/-- V4.3, V4.8, V4.9. -/
theorem test_scrambler_init : scramblerInit 0x1234 0 1 = 0x048D0001 := by decide +kernel
theorem test_gold : goldSequence 0x3FFFD3F7 32 = bitsOf 32 0b01101001110000000011011101000110 := by decide +kernel
theorem test_scramble : scramble [.bit true, .y, .bit false, .x] 0x1234 0 1 = [false, false, true, true] := by
  decide +kernel
/-- 44_multiplexer.md R322: the cells of the two fields, normal prefix, 12 rows. -/
theorem test_control_cells : ([0, 1].map (controlCell (riColumns .normal) 12 12),
    [0, 1, 2, 3, 4].map (controlCell (ackColumns .normal) 12 12)) =
    ([132 + 1, 132 + 10], [132 + 2, 132 + 9, 132 + 8, 132 + 3, 120 + 2]) := by decide
/-- 45_modulation.md R347 and V5.5. -/
theorem test_points : ([true, true], [true, false, false, true], [false, false, false, true, false, false]).1.length = 2 ∧
    mapPoint .qpsk [true, true] = (-1, -1) ∧ mapPoint .qam16 [true, false, false, true] = (-1, 3) ∧
    mapPoint .qam64 [false, false, false, true, false, false] = (3, 5) := by decide
theorem test_modulate_odd : modulate .qpsk (List.replicate 5 true) = .error .invalidBitLength := by decide
/-- 47_waveform.md R382. -/
theorem test_prefix_lengths : (cpLength .normal 128 0, cpLength .normal 128 1, cpLength .extended 128 1,
    cpLength .normal 1536 7, cpLength .normal 1536 8) = (10, 9, 32, 120, 108) := by decide

/-! ## Small states -/

/-- A configured cell: identity 503, normal prefix, 6 resource blocks. -/
def sixRb : CellConfig := { configured := true, cellId := 503, cp := .normal, nPorts := .one, nRb := .rb6 }

/-- Registers of a transmission of B = 25 bits (A = 1) in one resource block. -/
def txRegs : ArgRegs := { ArgRegs.reset with tbSize := 25, tbLen := 1, alloc := 0x100 }

/-- The cell configured, the registers set and one payload byte written. -/
def txState : State :=
  { State.reset with cell := sixRb, regs := txRegs, mem := Memory.reset.writeBytes 0x10000 [0x80] }

/-- The process that the payload bit 1 leaves behind. -/
def txSlot : HarqSlot :=
  { HarqSlot.reset with
    init := true, b := 25, nprbDecl := 1, seg := segmentation 25
    w := (tbEncode (segmentation 25) [true]).map circularBuffer, mscInit := 12, nsymbInit := 12, sumK := 40 }

/-- `txState` with that process on slot 0. -/
def reState : State := txState.setSlot 0 txSlot

/-- A state with a word pending. -/
def pendingState (w : Word) : State := { txState with pending := some w }

/-- The word that runs an initial transmission on slot 0. -/
abbrev newWord : Word := 0x10020000

/-- A property of the next state. -/
def nextSat (q : State → Bool) (o : Host.Outcome State Fault Refusal) : Bool :=
  match o with
  | .next t => q t
  | _ => false

theorem of_nextSat {q : State → Bool} {o : Host.Outcome State Fault Refusal} (h : nextSat q o = true) :
    ∃ t, o = .next t ∧ q t = true := by
  cases o with
  | next t => exact ⟨t, rfl, h⟩
  | fault f => cases h
  | refused r => cases h

/-- STATUS after a step (95_test_vectors.md V8). -/
def statusIs (w : Word) (t : State) : Bool := t.statusWord == w

/-! ## One step of each command (V8, P1, P2, P4) -/

/-- V8.1. -/
theorem test_nop : nextSat (statusIs 0x00000000) (step (State.reset.withFetchWord 32 0)) = true := by decide +kernel
/-- V8.2. -/
theorem test_nop_bit : nextSat (statusIs 0x00000010) (step (State.reset.withFetchWord 32 1)) = true := by decide +kernel
/-- V8.7 and V8.5. -/
theorem test_cell_config : nextSat (statusIs 0x00000102)
    (step ({ State.reset with regs := { ArgRegs.reset with cellCfg := 0x00060201 } }.withFetchWord 32 0x01000000)) =
    true := by decide +kernel
theorem test_cell_config_id : nextSat (statusIs 0x00000110)
    (step ({ State.reset with regs := { ArgRegs.reset with cellCfg := 0x000601F8 } }.withFetchWord 32 0x01000000)) =
    true := by decide +kernel
/-- P4 (the word 0x02200000) and V8.24. -/
theorem test_proc_config : nextSat (fun t => statusIs 0x00020202 t && (t.slot 2).nprbDecl == 1)
    (step (txState.withFetchWord 32 0x02200000)) = true := by decide +kernel
theorem test_proc_config_p8 : nextSat (statusIs 0x00080212) (step (txState.withFetchWord 32 0x02800000)) = true := by
  decide +kernel
/-- V8.23, and P2's flush of slot 0. -/
theorem test_proc_flush : nextSat (statusIs 0x00070302) (step (txState.withFetchWord 32 0x03700000)) = true := by
  decide +kernel
theorem test_proc_flush_init : nextSat (fun t => !(t.slot 0).init) (step (reState.withFetchWord 32 0x03000000)) = true := by
  decide +kernel
/-- P1's first command on a smaller block: OK, WAVE_LEN 1920, the slot filled. -/
theorem test_pusch_new : nextSat (fun t => statusIs 0x00001002 t && t.lens.wave == 1920 && (t.slot 0).w == txSlot.w)
    (step (txState.withFetchWord 32 0x10020000)) = true := by decide +kernel
/-- V8.18. -/
theorem test_pusch_retx_empty : nextSat (statusIs 0x00001022) (step (txState.withFetchWord 32 0x10040000)) = true := by
  decide +kernel

/-! ## Hypotheses of the statements, met -/

theorem txState_legal : txState.TxLegal 0 true 0 9 :=
  ⟨by decide, by decide, by decide, rfl, ⟨by decide, by decide, 0, 0, 0, by decide⟩, by decide, by decide⟩

theorem reState_legal : reState.TxLegal 0 false 2 0 :=
  ⟨by decide, by decide, by decide, rfl, ⟨by decide, by decide, 0, 0, 0, by decide⟩, by decide, by decide⟩

theorem txState_controlFits : txState.ControlFits 0 true .qpsk := by unfold State.ControlFits; decide +kernel
theorem txState_dataFits : txState.DataFits 0 true .qpsk := by unfold State.DataFits; decide +kernel
theorem txState_written : txState.InputsWritten true := by
  refine ⟨fun _ => ?_, ?_, ?_, ?_⟩ <;> unfold Memory.written <;> decide +kernel
theorem reState_controlFits : reState.ControlFits 0 false .qam64 := by unfold State.ControlFits; decide +kernel
theorem reState_dataFits : reState.DataFits 0 false .qam64 := by unfold State.DataFits; decide +kernel
theorem reState_written : reState.InputsWritten false := by
  exact ⟨fun h => absurd h (by decide), by unfold Memory.written; decide +kernel,
    by unfold Memory.written; decide +kernel, by unfold Memory.written; decide +kernel⟩

theorem txSlot_legal : txSlot.legal := fun _ =>
  ⟨by decide, by decide, rfl, by decide +kernel, by decide, ⟨1, by decide, by decide, rfl⟩, Or.inl rfl⟩
theorem txSlot_buffersFit : txSlot.buffersFit := fun _ => by decide +kernel

theorem slot_reState (p : Fin 8) : reState.slot p = txSlot ∨ (reState.slot p).init = false := by
  by_cases h : p = 0
  · subst h; exact .inl (State.slot_setSlot _ _ _)
  · rw [reState, State.slot_setSlot_ne _ _ h]
    exact .inr (by simp [State.slot, txState, State.reset, HarqSlot.reset])

theorem reState_slotsLegal : reState.slotsLegal := by
  intro p h
  rcases slot_reState p with e | e
  · rw [e]; exact txSlot_legal rfl
  · rw [e] at h; cases h
theorem reState_buffersFit : reState.buffersFit := by
  intro p h
  rcases slot_reState p with e | e
  · rw [e]; exact txSlot_buffersFit rfl
  · rw [e] at h; cases h

/-- The command that left `txSlot`. -/
abbrev fillCmd : TxCommand := ⟨0, 0, true, 0, 0, false, false, false⟩

theorem txSlot_filled : txSlot.filled sixRb := fun _ => by
  have hp : (puschPlan fillCmd txState).isOk = true := by decide +kernel
  cases hplan : puschPlan fillCmd txState with
  | error code => rw [hplan] at hp; cases hp
  | ok plan =>
    have hsrc : plan.src = txSource true txState.inputs.regs sixRb txSlot := (puschPlan_eq_ok hplan).2.1
    refine ⟨txState, fillCmd, plan, ⟨[true], [], [], []⟩, rfl, rfl, hplan, by decide +kernel, by decide +kernel, ?_, ?_⟩
    · rw [hsrc]; decide +kernel
    · rw [hsrc]; decide +kernel

theorem reState_slotsFilled : reState.slotsFilled := by
  intro p h
  rcases slot_reState p with e | e
  · rw [e]; exact txSlot_filled rfl
  · rw [e] at h; cases h

theorem reState_cell : reState.cell.legal := fun _ => by decide +kernel

/-- An initial and a repeated transmission with every dump. -/
abbrev newCmd : TxCommand := ⟨0, 0, true, 0, 0, true, true, true⟩
abbrev retxCmd : TxCommand := ⟨0, 1, false, 2, 9, true, true, true⟩

theorem newCmd_ok : nextSat (fun t => t.status.err == .ok) (runPuschTx newCmd reState) = true := by decide +kernel
theorem retxCmd_ok : nextSat (fun t => t.status.err == .ok) (runPuschTx retxCmd reState) = true := by decide +kernel

theorem witness_EncodeDecode : decode 0x107CA780 = .ok (.puschTx 7 3 false 2 9 true true true) := by decide

/-- One word per clause of IllegalWord, at its boundary: a reserved opcode on each side, the highest and the lowest unused
bit, MOD 11, SF 10, PROC 8. -/
def illegalWords : List Word := [0x04000000, 0x11000000, 0x00800000, 0x01000001, 0x02080000, 0x03000001, 0x10010000,
  0x10000001, 0x1002C000, 0x10022800, 0x02800000, 0x10820000]

theorem witness_IllegalWordFails (w : Word) (hw : w ∈ illegalWords) :
    (pendingState w).turns = [] ∧ (pendingState w).pending = some w ∧ IllegalWord w := by
  refine ⟨rfl, rfl, ?_⟩
  have h : ∀ v ∈ illegalWords.map BitVec.toNat, IllegalWord (BitVec.ofNat 32 v) := by unfold IllegalWord; decide +kernel
  simpa using h w.toNat (List.mem_map_of_mem hw)

theorem witness_StepRunsDecoded :
    (decode newWord = .ok (.puschTx 0 0 true 0 0 false false false) ∧
      (Instr.puschTx 0 0 true 0 0 false false false).wellFormed = true) ∧
    ((pendingState newWord).pending = some newWord ∧ (pendingState newWord).turns = []) ∧
    (({ pendingState newWord with turns := [.ptc] } : State).pending = some newWord ∧
      ({ pendingState newWord with turns := [.ptc] } : State).turns = .ptc :: []) :=
  ⟨⟨by decide, by decide⟩, ⟨rfl, rfl⟩, rfl, rfl⟩

/-- A word that completes with OK, and one that fails. -/
theorem witness_CompletionEpilogue :
    (∃ t, (pendingState 0).turns = [] ∧ (pendingState 0).pending = some 0 ∧ step (pendingState 0) = .next t) ∧
    ∃ t, (pendingState 1).turns = [] ∧ (pendingState 1).pending = some 1 ∧ step (pendingState 1) = .next t ∧
      t.status.err ≠ .ok := by
  refine ⟨⟨_, rfl, rfl, rfl⟩, ?_⟩
  obtain ⟨t, h, e⟩ := of_nextSat (q := fun t => t.status.err != .ok) (o := step (pendingState 1)) (by decide +kernel)
  exact ⟨t, rfl, rfl, h, by simpa using e⟩

theorem witness_FailureIsPrecise : ∃ t, exec .cellConfig txState = .next t ∧ t.status.err ≠ .ok := by
  obtain ⟨t, h, e⟩ := of_nextSat (q := fun t => t.status.err != .ok) (o := exec .cellConfig txState) (by decide +kernel)
  exact ⟨t, h, by simpa using e⟩

theorem witness_NopCompletes : (pendingState 1).turns = [] ∧ (pendingState 1).pending = some 1 ∧
    (1 : Word).extractLsb' 24 8 = 0x00 ∧ (1 : Word) ≠ 0x00000000 := by decide +kernel

/-- CELL_CFG at the limits of the legal fields, and each way to be refused. -/
theorem witness_CellConfigCompletes :
    (State.reset.cell.configured = false ∧ (0x006409F7#32).extractLsb' 0 9 = 503#9 ∧
      ((0x006409F7#32).extractLsb' 10 2).toNat = 2 ∧ ((0x006409F7#32).extractLsb' 16 7).toNat = Bandwidth.rb100.nRb) ∧
    txState.cell.configured = true ∧ 503 < ((0x000601F8#32).extractLsb' 0 9).toNat ∧
    ((0x00060C01#32).extractLsb' 10 2).toNat = 3 ∧
    ((0x00070001#32).extractLsb' 16 7).toNat ∉ [6, 15, 25, 50, 75, 100] ∧
    (pendingState 0x01000001).turns = [] ∧ (0x01000001#32).extractLsb' 24 8 = 0x01 ∧ 0x01000001#32 ≠ 0x01000000 := by
  decide +kernel

theorem witness_ProcConfigCompletes :
    ((7 : Fin 8).val = (7 : BitVec 4).toNat ∧ txState.cell.configured = true ∧
      AllocLegal txState.inputs.regs.alloc txState.cell) ∧
    8 ≤ (8 : BitVec 4).toNat ∧ State.reset.cell.configured = false ∧ ¬ AllocLegal State.reset.inputs.regs.alloc sixRb ∧
    ((pendingState 0x02000001).turns = [] ∧ (0x02000001#32).extractLsb' 24 8 = 0x02 ∧
      0x02000001#32 &&& 0xFF0FFFFF ≠ 0x02000000) :=
  ⟨⟨rfl, rfl, txState_legal.alloc⟩, by decide, rfl, fun h => absurd h.1 (by decide), rfl, by decide, by decide⟩

theorem witness_ProcFlushCompletes : (7 : Fin 8).val = (7 : BitVec 4).toNat ∧ 8 ≤ (8 : BitVec 4).toNat ∧
    (pendingState 0x03080000).turns = [] ∧ (0x03080000#32).extractLsb' 24 8 = 0x03 ∧
    0x03080000#32 &&& 0xFF0FFFFF ≠ 0x03000000 := by decide +kernel

theorem witness_PuschTxInitialCompletes :
    (0 : Fin 8).val = (0 : BitVec 4).toNat ∧ modulationOf 0 = some .qpsk ∧ txState.TxLegal 0 true 0 9 ∧
      txState.ControlFits 0 true .qpsk ∧ txState.DataFits 0 true .qpsk ∧ txState.InputsWritten true :=
  ⟨rfl, rfl, txState_legal, txState_controlFits, txState_dataFits, txState_written⟩

theorem witness_PuschTxRetransmissionCompletes :
    (0 : Fin 8).val = (0 : BitVec 4).toNat ∧ modulationOf 2 = some .qam64 ∧ reState.TxLegal 0 false 2 0 ∧
      (reState.slot 0).init = true ∧ nPrbOf reState.inputs.regs.alloc = (reState.slot 0).nprbDecl ∧
      (reState.slot 0).legal ∧ (reState.slot 0).buffersFit ∧ reState.ControlFits 0 false .qam64 ∧
      reState.DataFits 0 false .qam64 ∧ reState.InputsWritten false :=
  ⟨rfl, rfl, reState_legal, by decide +kernel, by decide +kernel, reState_slotsLegal 0, reState_buffersFit 0,
    reState_controlFits, reState_dataFits, reState_written⟩

/-- A reserved bit, and an operand out of range (PROC 8). -/
theorem witness_PuschTxValidation :
    ((pendingState 0x10030000).turns = [] ∧ (0x10030000#32).extractLsb' 24 8 = 0x10 ∧
      0x10030000#32 &&& 0x0001007F ≠ 0) ∧
    (pendingState 0x10820000).turns = [] ∧ (0x10820000#32).extractLsb' 24 8 = 0x10 ∧
      ¬ (pendingState 0x10820000).TxLegal 8 true 0 0 :=
  ⟨⟨rfl, by decide, by decide⟩, rfl, by decide, fun h => absurd h.proc (by decide)⟩

theorem txState_retx_legal : txState.TxLegal 0 false 0 0 :=
  ⟨by decide, by decide, by decide, rfl, ⟨by decide, by decide, 0, 0, 0, by decide⟩, by decide, by decide⟩

/-- `reState` with an allocation of two resource blocks. -/
def wideState : State := { reState with regs := { txRegs with alloc := 0x200 } }

theorem wideState_legal : wideState.TxLegal 0 false 0 0 :=
  ⟨by decide, by decide, by decide, rfl, ⟨by decide, by decide, 1, 0, 0, by decide⟩, by decide, by decide⟩

theorem witness_RetransmissionChecks :
    (txState.TxLegal 0 false 0 0 ∧ (txState.slot 0).init = false) ∧
    (wideState.TxLegal 0 false 0 0 ∧ (wideState.slot 0).init = true ∧
      nPrbOf wideState.inputs.regs.alloc ≠ (wideState.slot 0).nprbDecl) ∧
    ∃ t, exec (.puschTx 0 3 true 0 0 false false false) txState = .next t := by
  refine ⟨⟨txState_retx_legal, by decide +kernel⟩, ⟨wideState_legal, by decide +kernel, by decide +kernel⟩, ?_⟩
  obtain ⟨t, h, -⟩ := of_nextSat (q := fun _ => true)
    (o := exec (.puschTx 0 3 true 0 0 false false false) txState) (by decide +kernel)
  exact ⟨t, h⟩

/-- P3's control overflow (B = 144, O_CQI = 100, O_ACK = 1 in one resource block), its payload of 120 bits written, and
its AllocationTooSmall without ACK. -/
def overflowState : State :=
  { txState with
    regs := { txRegs with tbSize := 144, tbLen := 120, uciLen := 0x01000064 }
    mem := Memory.reset.writeBytes 0x10000 [1, 2, 3, 4, 5, 6, 7, 8, 9, 10, 11, 12, 13, 14, 15] }
def smallState : State :=
  { overflowState with regs := { txRegs with tbSize := 144, tbLen := 120, uciLen := 0x00000064 } }

theorem overflowState_legal : overflowState.TxLegal 0 true 0 0 :=
  ⟨by decide, by decide, by decide, rfl, ⟨by decide, by decide, 0, 0, 0, by decide⟩, by decide, by decide⟩
theorem smallState_legal : smallState.TxLegal 0 true 0 0 :=
  ⟨by decide, by decide, by decide, rfl, ⟨by decide, by decide, 0, 0, 0, by decide⟩, by decide, by decide⟩

theorem smallState_dataFits : ¬ smallState.DataFits 0 true .qpsk := by unfold State.DataFits; decide +kernel

theorem witness_CapacityChecks :
    (overflowState.TxLegal 0 true 0 0 ∧ overflowState.PayloadWritten true ∧ ¬ overflowState.ControlFits 0 true .qpsk) ∧
    (smallState.TxLegal 0 true 0 0 ∧ smallState.PayloadWritten true ∧ smallState.ControlFits 0 true .qpsk ∧
      ¬ smallState.DataFits 0 true .qpsk) ∧
    (smallState.sizesOf 0 true .qpsk).g = 0 := by
  refine ⟨⟨overflowState_legal, fun _ => ?_, ?_⟩, ⟨smallState_legal, fun _ => ?_, ?_, smallState_dataFits⟩,
    by decide +kernel⟩
  · unfold Memory.written; decide +kernel
  · unfold State.ControlFits; decide +kernel
  · unfold Memory.written; decide +kernel
  · unfold State.ControlFits; decide +kernel

theorem witness_ErrorPriority :
    ∃ t, exec (.puschTx 0 1 false 2 9 true true true) reState = .next t ∧ (0 : Fin 8).val = (0 : BitVec 4).toNat ∧
      modulationOf 2 = some .qam64 ∧ reState.TxLegal 0 false 2 9 ∧ (reState.slot 0).init = true ∧
      nPrbOf reState.inputs.regs.alloc = (reState.slot 0).nprbDecl ∧ reState.ControlFits 0 false .qam64 ∧
      reState.DataFits 0 false .qam64 ∧ reState.slotsLegal ∧ reState.buffersFit := by
  obtain ⟨t, h, -⟩ := of_nextSat retxCmd_ok
  exact ⟨t, h, rfl, rfl, ⟨by decide, by decide, by decide, rfl, reState_legal.alloc, by decide, by decide⟩,
    by decide +kernel, by decide +kernel, reState_controlFits, reState_dataFits, reState_slotsLegal, reState_buffersFit⟩

theorem witness_InvalidBitLengthNever : reState.slotsLegal ∧ reState.buffersFit ∧
    (∃ t, runPuschTx retxCmd reState = .next t) ∧
    ∃ plan bits, puschPlan retxCmd reState = .ok plan ∧ readTxBits retxCmd.ndi reState.inputs = some bits := by
  obtain ⟨t, h, -⟩ := of_nextSat retxCmd_ok
  obtain ⟨bits, hb⟩ := Option.isSome_iff_exists.mp
    (show (readTxBits retxCmd.ndi reState.inputs).isSome = true by decide +kernel)
  refine ⟨reState_slotsLegal, reState_buffersFit, ⟨t, h⟩, ?_⟩
  have hp : (puschPlan retxCmd reState).isOk = true := by decide +kernel
  cases hplan : puschPlan retxCmd reState with
  | error code => rw [hplan] at hp; cases hp
  | ok plan => exact ⟨plan, bits, rfl, hb⟩

/-- Transmissions of `smallState` and `txState`: the payload never written, of which the first does not fit, and the
payload written but not the one ACK bit. -/
def unwrittenSmallState : State := { smallState with mem := .reset }
def unwrittenAckState : State := { txState with regs := { txRegs with uciLen := 0x01000000 } }

theorem unwrittenSmallState_legal : unwrittenSmallState.TxLegal 0 true 0 0 :=
  ⟨by decide, by decide, by decide, rfl, ⟨by decide, by decide, 0, 0, 0, by decide⟩, by decide, by decide⟩
theorem unwrittenAckState_legal : unwrittenAckState.TxLegal 0 true 0 0 :=
  ⟨by decide, by decide, by decide, rfl, ⟨by decide, by decide, 0, 0, 0, by decide⟩, by decide, by decide⟩

theorem witness_UnwrittenInputFaults :
    (unwrittenSmallState.TxLegal 0 true 0 0 ∧ ¬ unwrittenSmallState.PayloadWritten true ∧
      ¬ unwrittenSmallState.DataFits 0 true .qpsk) ∧
    unwrittenAckState.TxLegal 0 true 0 0 ∧ unwrittenAckState.PayloadWritten true ∧
      unwrittenAckState.ControlFits 0 true .qpsk ∧ unwrittenAckState.DataFits 0 true .qpsk ∧
      ¬ unwrittenAckState.InputsWritten true := by
  refine ⟨⟨unwrittenSmallState_legal, fun h => ?_, smallState_dataFits⟩, unwrittenAckState_legal, fun _ => ?_, ?_, ?_,
    fun h => ?_⟩
  · exact absurd (h rfl 0 (by decide)) (by decide +kernel)
  · unfold Memory.written; decide +kernel
  · unfold State.ControlFits; decide +kernel
  · unfold State.DataFits; decide +kernel
  · exact absurd (h.2.2.2 0 (by decide)) (by decide +kernel)

/-- 40_commands.md R160: the never-written payload stops the command before its data are found not to fit. -/
theorem test_unwritten_before_sizing : (match runPuschTx ⟨0, 0, true, 0, 0, false, false, false⟩ unwrittenSmallState with
    | .fault .neverWrittenInput => true
    | _ => false) = true := by decide +kernel

/-- `reState` with another RNTI-free register, a CQI bit nobody reads and another status. -/
def otherState : State :=
  { reState with mem := reState.mem.writeBytes 0x20000 [0xFF], status := { Status.reset with cmdDropped := true } }

theorem otherState_ok : nextSat (fun t => t.status.err == .ok) (runPuschTx newCmd otherState) = true := by decide +kernel
theorem otherState_retx_ok : nextSat (fun t => t.status.err == .ok) (runPuschTx retxCmd otherState) = true := by
  decide +kernel

theorem witness_PuschTxDeterminism :
    reState.slotsLegal ∧ reState.buffersFit ∧ reState.cell = otherState.cell ∧
      reState.inputs.regs = otherState.inputs.regs ∧
      (∀ i, i < tbLenOf reState.inputs.regs.tbLen →
        reState.inputs.mem.bitAt BitMem.tb.base i = otherState.inputs.mem.bitAt BitMem.tb.base i) ∧
      oCqiOf reState.inputs.regs.uciLen = 0 ∧ oRiOf reState.inputs.regs.uciLen = 0 ∧
      oAckOf reState.inputs.regs.uciLen = 0 ∧ (∀ p : Fin 8, reState.slot p = otherState.slot p) ∧
      ((∃ t, runPuschTx newCmd reState = .next t ∧ t.status.err = .ok) ∧ ∃ t, runPuschTx newCmd otherState = .next t) ∧
      (∃ t, runPuschTx retxCmd reState = .next t ∧ t.status.err = .ok) ∧
      ∃ t, runPuschTx retxCmd otherState = .next t := by
  obtain ⟨t, h, e⟩ := of_nextSat newCmd_ok
  obtain ⟨u, h', -⟩ := of_nextSat otherState_ok
  obtain ⟨v, g, e'⟩ := of_nextSat retxCmd_ok
  obtain ⟨x, g', -⟩ := of_nextSat otherState_retx_ok
  exact ⟨reState_slotsLegal, reState_buffersFit, rfl, rfl, by decide +kernel, by decide +kernel, by decide +kernel,
    by decide +kernel, fun _ => rfl, ⟨⟨t, h, by simpa using e⟩, u, h'⟩, ⟨v, g, by simpa using e'⟩, x, g'⟩

/-- Also for RateMatchedBitsDump and HarqDumpEncoding: every dump flag is set. -/
theorem witness_StoredSamplesAreExact : (reState.cell.legal ∧ reState.slotsFilled) ∧ reState.slotsLegal ∧
    reState.buffersFit ∧ newCmd.dumpGrid = true ∧ newCmd.dumpBits = true ∧ newCmd.dumpHarq = true ∧
    (0 : Fin 8).val = newCmd.proc.toNat ∧ ∃ t, runPuschTx newCmd reState = .next t ∧ t.status.err = .ok := by
  obtain ⟨t, h, e⟩ := of_nextSat newCmd_ok
  exact ⟨⟨reState_cell, reState_slotsFilled⟩, reState_slotsLegal, reState_buffersFit, rfl, rfl, rfl, rfl, t, h,
    by simpa using e⟩

theorem witness_RateMatchedBitsDump : reState.slotsLegal ∧ reState.buffersFit ∧ newCmd.dumpBits = true ∧
    ∃ t, runPuschTx newCmd reState = .next t ∧ t.status.err = .ok := by
  obtain ⟨-, h1, h2, -, h3, -, -, h4⟩ := witness_StoredSamplesAreExact
  exact ⟨h1, h2, h3, h4⟩

theorem witness_HarqDumpEncoding : reState.slotsLegal ∧ reState.buffersFit ∧ newCmd.dumpHarq = true ∧
    (0 : Fin 8).val = newCmd.proc.toNat ∧ ∃ t, runPuschTx newCmd reState = .next t ∧ t.status.err = .ok := by
  obtain ⟨-, h1, h2, -, -, h3, h4, h5⟩ := witness_StoredSamplesAreExact
  exact ⟨h1, h2, h3, h4, h5⟩

theorem witness_OtherSlotsUntouched :
    (∃ t, exec (.procFlush 0) reState = .next t ∧ (7 : Fin 8).val ≠ (Instr.procFlush 0).procBits.toNat) ∧
    ∃ t, exec .nop reState = .next t := ⟨⟨_, rfl, by decide⟩, _, rfl⟩

theorem witness_CommandFrame : (∃ t, exec (.procFlush 0) reState = .next t) ∧
    Instr.procFlush 0 ≠ .cellConfig ∧ (Instr.procFlush 0).opcode ≠ 0x10 ∧ ∃ t, exec .nop reState = .next t :=
  ⟨⟨_, rfl⟩, by decide, by decide, _, rfl⟩

/-- A state for each clause: slot 0 filled; ended by a flush, a soft reset and a hardware reset; refilled with another
payload; re-declared. -/
theorem witness_SlotLifetime :
    nextSat (fun t => (t.slot 0).init) (step (pendingState newWord)) = true ∧ ((pendingState newWord).slot 0).init = false ∧
    nextSat (fun t => !(t.slot 0).init) (step { reState with pending := some 0x03000000 }) = true ∧
    nextSat (fun t => !(t.slot 0).init) (step { reState with turns := [.host (.write .w32 0x004 1)] }) = true ∧
    nextSat (fun t => !(t.slot 0).init) (step { reState with turns := [.hardwareReset] }) = true ∧
    (reState.slot 0).init = true ∧
    nextSat (fun t => (t.slot 0).init && !decide ((t.slot 0).w = (reState.slot 0).w))
      (step { reState with pending := some newWord, mem := Memory.reset.writeBytes 0x10000 [0] }) = true ∧
    nextSat (fun t => (t.slot 0).init && !decide ((t.slot 0).nprbDecl = (reState.slot 0).nprbDecl))
      (step { wideState with pending := some 0x02000000 }) = true := by
  refine ⟨?_, ?_, ?_, ?_, ?_, ?_, ?_, ?_⟩ <;> decide +kernel

theorem reState_inv : reState.Inv := by
  refine ⟨fun r => by cases r <;> decide +kernel, by unfold LenRegs.legal; decide +kernel, fun _ => by decide +kernel,
    by decide +kernel, fun inp h => by cases h⟩

theorem witness_StepKeepsInvariant :
    reState.Inv ∧ reState.slotsLegal ∧ reState.buffersFit ∧ reState.slotsFilled ∧ ∃ t, step reState = .next t :=
  ⟨reState_inv, reState_slotsLegal, reState_buffersFit, reState_slotsFilled, _, rfl⟩

theorem witness_HardwareReset : ({ reState with turns := [.hardwareReset] } : State).turns = .hardwareReset :: [] ∧
    ∃ t, step { reState with turns := [.hardwareReset] } = .next t := ⟨rfl, _, rfl⟩

theorem witness_CrcParityIsTheRemainder : ([8, 7, 4, 3, 1, 0], 0x19B, 8) ∈ crcGenerators := by decide

theorem witness_SegmentationSizes : (25 ≤ 25 ∧ 25 ≤ 75400) ∧ 25 ≤ 75400 ∧ 75400 ≤ 75400 := by decide

theorem witness_SegmentationPlacesEveryBit : 25 ≤ (List.replicate 25 true).length ∧
    (List.replicate 25 true).length ≤ 75400 ∧ 25 ≤ (List.replicate 75400 true).length ∧
    (List.replicate 75400 true).length ≤ 75400 := by
  simp only [List.length_replicate]; decide

theorem witness_QppIsAPermutation : 40 ∈ kTable ∧ 6144 ∈ kTable ∧ (List.replicate 40 true).length = 40 ∧ 39 < 40 := by
  decide +kernel

/-- The streams of the impulse. -/
theorem witness_CircularBufferKeepsBits : (turboEncode impulse).d0.length = (turboEncode impulse).d1.length ∧
    (turboEncode impulse).d1.length = (turboEncode impulse).d2.length := by simp

/-- A buffer with a bit; sizes where γ is 0 and where it is C − 1. -/
theorem witness_SelectReadsCircularly : (∃ b, some b ∈ circularBuffer (turboEncode impulse)) ∧
    (0 < 2 ∧ 0 < 1 ∧ 288 % 2 = 0 ∧ 288 / 2 % 1 = 0) ∧ (0 < 6 ∧ 0 < 13 ∧ 150 % 6 = 0 ∧ 150 / 6 % 13 + 1 = 13) ∧
    [circularBuffer (turboEncode impulse)].length = [(0 : Nat)].length ∧
    ∀ w ∈ [circularBuffer (turboEncode impulse)], ∃ b, some b ∈ w := by
  refine ⟨some_mem_circularBuffer impulse, by decide, by decide, rfl, fun w h => ?_⟩
  rw [List.mem_singleton.1 h]
  exact some_mem_circularBuffer impulse

/-- The longest block-coded field and the shortest convolutional one, and streams for ConvRateMatch. -/
theorem witness_BudgetFormulas : (List.replicate 11 true).length ≤ 11 ∧ 1 ≤ (List.replicate 1 true).length ∧
    11 < (List.replicate 12 true).length ∧ 6 ≤ (List.replicate 6 true).length ∧ 2 ≤ Modulation.qpsk.order ∧
    (bitsOf 33 5).length = (bitsOf 33 7).length := by decide

theorem witness_BudgetsMonotone : 96 ≤ 97 ∧ betaX8 txRegs.betaCqi ≤ betaX8 65535 ∧ betaX8 txRegs.betaRi ≤ betaX8 16 := by
  decide +kernel

theorem witness_ScrambleResolvesPlaceholders :
    (encodeAckRi [true] 4 8)[0]? ≠ some .y ∧ 1 < (encodeAckRi [true] 4 8).length := by decide

theorem witness_ControlPlacement : (List.replicate 48 [CtlBit.x]).length ≤ 4 * 12 ∧
    (List.replicate 48 [CtlBit.y]).length ≤ 4 * 12 := by decide

theorem witness_DataPlacement : (List.replicate 48 [CtlBit.x]).length ≤ 4 * 12 ∧
    (List.replicate 96 [CtlBit.y]).length + (List.replicate 48 [CtlBit.x]).length = 12 * CyclicPrefix.normal.nSymbPusch := by
  decide

/-- The sizes of 44_multiplexer.md R322. -/
theorem witness_InterleaverOutput : 0 < 2 ∧ 3 + 2 ≤ 12 * CyclicPrefix.normal.nSymbPusch ∧ 2 ≤ 4 * 12 ∧ 5 ≤ 4 * 12 ∧
    (List.replicate 278 true).length = 2 * (12 * CyclicPrefix.normal.nSymbPusch - 3 - 2) ∧
    (List.replicate 6 true).length = 2 * 3 ∧ (List.replicate 4 (CtlBit.bit true)).length = 2 * 2 ∧
    (List.replicate 10 CtlBit.x).length = 2 * 5 := by
  simp only [List.length_replicate]; decide

theorem witness_ModulationRoundTrip : (List.replicate 12 true).length % Modulation.qam64.order = 0 ∧
    (List.replicate 5 true).length % Modulation.qpsk.order ≠ 0 := by decide

theorem witness_GridPlacement : 0 + 6 ≤ sixRb.nRb.nRb ∧
    (List.replicate 864 ((0, 0) : Point)).length = 12 * 6 * sixRb.cp.nSymbPusch ∧
    [3, 10] = [3, 10] ∧ 71 < 12 * sixRb.nRb.nRb ∧ 13 < 2 * sixRb.cp.nSymb ∧ 12 * (0 + 5) ≤ 71 := by
  rw [List.length_replicate]; decide

theorem witness_PrefixIsNegated : (List.replicate 72 GridValue.empty).length = 12 * Bandwidth.rb6.nRb ∧
    0 < cpLength .normal Bandwidth.rb6.nfft 0 ∧ 9 < cpLength .normal Bandwidth.rb6.nfft 0 := by decide

theorem witness_WaveformLength : (List.replicate 14 (emptyColumn 72)).length = 2 * sixRb.cp.nSymb := by
  rw [List.length_replicate]; decide

/-- The clause on the LEN registers: nothing is pending. -/
theorem witness_IdentityAndStatus : txState.pending = none ∧ ∃ t, hostAccess (.read .w32 0x034) txState = .next t :=
  ⟨rfl, _, rfl⟩

theorem witness_CommandWrite : txState.pending = none ∧ (pendingState 7).pending = some 7 ∧
    ∃ t, hostAccess (.write .w32 0x00C 7) txState = .next t := ⟨rfl, rfl, _, rfl⟩

theorem witness_SoftReset : (1 : Word).getLsbD 0 = true ∧ (0xFFFFFFFE : Word).getLsbD 0 = false := by decide

/-- Accesses that R86 forbids and allows, at the boundary of the register file: a half-word and a misaligned word of a
register, a misaligned word of TB_MEM; the last register word, the first half-word above, and a byte never written. -/
theorem witness_AccessLegality :
    (¬ (Width.w16 = .w32 ∧ (0xFFC#32).toNat % 4 = 0) ∧ (0xFFE#32).toNat < 0x1000 ∧ ¬ (0xFFE#32).toNat % 4 = 0) ∧
    (¬ (0x10002#32).toNat < 0x1000 ∧ ¬ (0x10002#32).toNat % 4 = 0) ∧
    ((0xFFC#32).toNat < 0x1000 ∧ (0xFFC#32).toNat % 4 = 0) ∧
    (¬ (0x1000#32).toNat < 0x1000 ∧ (0x1000#32).toNat % 2 = 0) ∧
    hostAccess (.read .w8 0x10001) txState = .fault .neverWrittenRead ∧
      inputByte ((0x10001#32).toNat + 0) ∧ txState.mem.markAt ((0x10001#32).toNat + 0) = 0 := by
  refine ⟨by decide, by decide, by decide, by decide, rfl, ?_, by decide +kernel⟩
  unfold inputByte; decide

/-- An output byte at each end of a window, aligned for a word; a step that changes a mark there. -/
theorem witness_OutputMemoriesAreThePtcs :
    (outputByte (0x00040000#32).toNat ∧ (0x00040000#32).toNat % 4 = 0) ∧
    (outputByte (0x0023BFFC#32).toNat ∧ (0x0023BFFC#32).toNat % 4 = 0) ∧
    outputByte 0x80000 ∧ ∃ t,
      step { txState with mem := Memory.reset.writeBytes 0x80000 [1], turns := [.hardwareReset] } = .next t ∧
      t.mem.markAt 0x80000 ≠ (Memory.reset.writeBytes 0x80000 [1]).markAt 0x80000 := by
  unfold outputByte
  exact ⟨by decide, by decide, by decide, _, rfl, by decide +kernel⟩

theorem witness_UnmappedOffsets :
    (0x1000 ≤ (0x000124D0#32).toNat ∧ (0x000124D0#32).toNat % 4 = 0 ∧
      ∀ i, i < 4 → ¬ inputByte ((0x000124D0#32).toNat + i) ∧ ¬ outputByte ((0x000124D0#32).toNat + i)) ∧
    (0x044 ≤ (0x044#32).toNat ∧ (0x044#32).toNat < 0x1000 ∧ (0x044#32).toNat % 4 = 0) ∧ (0xFFC#32).toNat < 0x1000 := by
  unfold inputByte outputByte; decide +kernel

theorem witness_ArgumentRegisters : txState.pending = none := rfl

/-- The first and the last place of an access in TB_MEM, the last in CQI_MEM, and RI_MEM and ACK_MEM whole. -/
theorem witness_MemoryAccess : txState.pending = none ∧
    ((∀ i, i < 4 → inputByte ((0x00010000#32).toNat + i)) ∧ (0x00010000#32).toNat % 4 = 0) ∧
    ((∀ i, i < 2 → inputByte ((0x000124CC#32).toNat + i)) ∧ (0x000124CC#32).toNat % 2 = 0) ∧
    ((∀ i, i < 4 → inputByte ((0x0002007C#32).toNat + i)) ∧ (0x0002007C#32).toNat % 4 = 0) ∧
    ((∀ i, i < 2 → inputByte ((0x00020100#32).toNat + i)) ∧ (0x00020100#32).toNat % 2 = 0) ∧
    (∀ i, i < 1 → inputByte ((0x00020201#32).toNat + i)) ∧ (0x00020201#32).toNat % 1 = 0 := by
  unfold inputByte
  refine ⟨rfl, ?_, ?_, ?_, ?_, ?_⟩ <;> decide

theorem witness_BitStringWrite : BitMem.ack ≠ .bits ∧ (List.replicate 16 true).length ≤ 8 * BitMem.ack.size := by decide

theorem witness_RacingWrites : (pendingState newWord).pending.isSome = true ∧ (0, 16) ∈ ArgReg.rnti.fields ∧
    (∃ t, hostAccess (.write .w32 (BitVec.ofNat 32 ArgReg.rnti.offset) 0x1234) (pendingState newWord) = .next t) ∧
    0x1000 ≤ (0x00010000#32).toNat ∧
    ∃ t, hostAccess (.write .w8 0x00010000 0x55) (pendingState newWord) = .next t :=
  ⟨rfl, by decide, ⟨_, rfl⟩, by decide, _, rfl⟩

/-- A never-written byte of TB_MEM, and the written one. -/
theorem witness_UnwrittenReadFaults : txState.pending = none ∧ 0x1000 ≤ (0x00010001#32).toNat ∧
    (inputByte (0x00010001#32).toNat ∧ txState.mem.markAt (0x00010001#32).toNat = 0) ∧
    txState.mem.markAt (0x00010000#32).toNat ≠ 0 := by
  unfold inputByte; decide +kernel

end Sys2Proof.Tests
end

section
/-! PROOFS. The sizes of segmentation (41_tb_coder.md R205 to R207): what the search of the K table finds, the sums
of the block sizes, and the length of every code block and circular buffer of an initial transmission. -/

namespace Sys2Proof.Machine

/-! ## The K table (R205, R206) -/

theorem kTable_rising : kTable.Pairwise (· < ·) := by decide +kernel

theorem kTable_le {k : Nat} (h : k ∈ kTable) : k ≤ 6144 := by
  have hall : ∀ k ∈ kTable, k ≤ 6144 := by decide +kernel
  exact hall k h

/-- K+ is the least K of the table with c·K ≥ b', whenever the largest K is large enough. -/
theorem kPlusFor_spec {c b' : Nat} (h : b' ≤ c * 6144) :
    kPlusFor c b' ∈ kTable ∧ b' ≤ c * kPlusFor c b' ∧ ∀ k ∈ kTable, k < kPlusFor c b' → c * k < b' := by
  unfold kPlusFor
  cases hf : kTable.find? (fun k => decide (b' ≤ c * k)) with
  | none =>
    have hlargest := List.find?_eq_none.1 hf 6144 (by decide +kernel)
    simp only [decide_eq_true_eq] at hlargest
    exact absurd h hlargest
  | some kPlus =>
    obtain ⟨hk, before, after, htable, hbefore⟩ := List.find?_eq_some_iff_append.1 hf
    have hrising := kTable_rising
    rw [htable, List.pairwise_append] at hrising
    refine ⟨List.mem_of_find?_eq_some hf, by simpa using hk, fun k hmem hlt => ?_⟩
    simp only [Option.getD_some] at hlt
    rw [htable, List.mem_append, List.mem_cons] at hmem
    rcases hmem with hmem | rfl | hmem
    · simpa using hbefore k hmem
    · exact absurd hlt (lt_irrefl _)
    · have := (List.pairwise_cons.1 hrising.2.1).1 k hmem
      omega

theorem kPlusFor_le (c b' : Nat) : kPlusFor c b' ≤ 6144 := by
  unfold kPlusFor
  cases hf : kTable.find? (fun k => decide (b' ≤ c * k)) with
  | none => simp
  | some k => exact kTable_le (List.mem_of_find?_eq_some hf)

/-- K− is the K of the table just below K+, at most 64 less. -/
theorem kMinusFor_spec {kPlus : Nat} (hmem : kPlus ∈ kTable) (h : 40 < kPlus) :
    kMinusFor kPlus ∈ kTable ∧ kMinusFor kPlus < kPlus ∧ kPlus ≤ kMinusFor kPlus + 64 := by
  have hall : ∀ k ∈ kTable, 40 < k → kMinusFor k ∈ kTable ∧ kMinusFor k < k ∧ k ≤ kMinusFor k + 64 := by
    decide +kernel
  exact hall kPlus hmem h

theorem kMinusFor_le (kPlus : Nat) : kMinusFor kPlus ≤ 6144 := by
  unfold kMinusFor
  cases hl : (kTable.filter fun k => decide (k < kPlus)).getLast? with
  | none => simp
  | some k => exact kTable_le (List.mem_of_mem_filter (List.mem_of_getLast? hl))

/-! ## The segmentation record (R205) -/

theorem segmentation_of_le {b : Nat} (h : b ≤ maxBlock) :
    segmentation b =
      { c := 1, cPlus := 1, cMinus := 0, kPlus := kPlusFor 1 b, kMinus := 0, f := kPlusFor 1 b - b, l := 0 } := by
  simp [segmentation, h]

theorem ceilDiv_maxBlock_bounds {b : Nat} (h : maxBlock < b) :
    2 ≤ ceilDiv b 6120 ∧ b ≤ 6120 * ceilDiv b 6120 ∧ 6120 * ceilDiv b 6120 < b + 6120 := by
  unfold ceilDiv
  simp only [maxBlock] at h
  omega

theorem segmentation_of_gt {b : Nat} (h : maxBlock < b) :
    segmentation b =
      let c := ceilDiv b 6120
      let b' := b + c * 24
      let kPlus := kPlusFor c b'
      let kMinus := kMinusFor kPlus
      let cMinus := (c * kPlus - b') / (kPlus - kMinus)
      { c := c, cPlus := c - cMinus, cMinus := cMinus, kPlus := kPlus, kMinus := kMinus,
        f := (c - cMinus) * kPlus + cMinus * kMinus - b', l := 24 } := by
  have hc : ceilDiv b (maxBlock - 24) ≠ 1 := by
    have := (ceilDiv_maxBlock_bounds h).1
    show ceilDiv b 6120 ≠ 1
    omega
  simp only [segmentation, Nat.not_le.2 h, if_false, hc]
  rfl

/-- What the record of a transport block of `b` bits satisfies (R205): the blocks hold exactly the bits, the CRCs and
the fillers, and each block has room for its CRC and its fillers. -/
structure Segmentation.Covers (seg : Segmentation) (b : Nat) : Prop where
  c_pos : 0 < seg.c
  cMinus_le : seg.cMinus ≤ seg.c
  cPlus_eq : seg.cPlus = seg.c - seg.cMinus
  l_eq : seg.l = if seg.c > 1 then 24 else 0
  total : (seg.c - seg.cMinus) * seg.kPlus + seg.cMinus * seg.kMinus = b + seg.c * seg.l + seg.f
  room : ∀ r, seg.l + seg.filler r ≤ seg.blockSize r

theorem segmentation_covers_of_le {b : Nat} (h : b ≤ maxBlock) : (segmentation b).Covers b := by
  have hk := (kPlusFor_spec (c := 1) (b' := b) (by simpa [maxBlock] using h)).2.1
  rw [segmentation_of_le h]
  constructor <;> simp only [Segmentation.filler, Segmentation.blockSize]
  case c_pos => decide
  case cMinus_le => decide
  case l_eq => simp
  case total => omega
  case room => intro r; split <;> simp

/-- The division of R205: `q` blocks of size K− save as much as whole gaps K+ − K− fit into the excess, and what is left
of the excess are the fillers. -/
theorem excess_div_gap {c kMinus gap total : Nat} (hfit : total ≤ c * (kMinus + gap))
    (hmiss : c * kMinus < total) :
    let q := (c * (kMinus + gap) - total) / gap
    q < c ∧ (c - q) * (kMinus + gap) + q * kMinus = total + (c * (kMinus + gap) - total) % gap := by
  intro q
  have hexpand : c * (kMinus + gap) = c * kMinus + gap * c := by ring
  have hquot : q < c := Nat.div_lt_of_lt_mul (by omega)
  refine ⟨hquot, ?_⟩
  have hdiv : gap * q + _ = _ := Nat.div_add_mod (c * (kMinus + gap) - total) gap
  obtain ⟨d, hd⟩ := Nat.exists_eq_add_of_le hquot.le
  have hsaved : c * (kMinus + gap) = (c - q) * (kMinus + gap) + q * kMinus + gap * q := by
    rw [hd, Nat.add_sub_cancel_left]; ring
  omega

/-- For several blocks: at most c − 1 of them are of size K−, and fewer than K+ − K− bits are fillers. -/
theorem segmentation_covers_of_gt {b : Nat} (h : maxBlock < b) : (segmentation b).Covers b := by
  obtain ⟨hc2, hcb, hcb'⟩ := ceilDiv_maxBlock_bounds h
  rw [segmentation_of_gt h]
  simp only [maxBlock] at h
  simp only
  generalize ceilDiv b 6120 = c at hc2 hcb hcb' ⊢
  obtain ⟨hmem, hfit, hleast⟩ := kPlusFor_spec (c := c) (b' := b + c * 24) (by omega)
  generalize kPlusFor c (b + c * 24) = kPlus at hmem hfit hleast ⊢
  have hlarge : 3060 < kPlus := by
    by_contra hsmall
    have : c * kPlus ≤ c * 3060 := Nat.mul_le_mul_left c (by omega)
    omega
  obtain ⟨hmem', hlt, hgap⟩ := kMinusFor_spec hmem (by omega)
  have hmiss := hleast _ hmem' hlt
  generalize kMinusFor kPlus = kMinus at hlt hgap hmiss ⊢
  obtain ⟨gap, rfl⟩ : ∃ gap, kPlus = kMinus + gap := ⟨kPlus - kMinus, by omega⟩
  obtain ⟨hquot, hsum⟩ := excess_div_gap hfit hmiss
  have hrest := Nat.mod_lt (c * (kMinus + gap) - (b + c * 24)) (show gap > 0 by omega)
  rw [Nat.add_sub_cancel_left, hsum, Nat.add_sub_cancel_left]
  constructor <;> simp only [Segmentation.filler, Segmentation.blockSize]
  case c_pos => omega
  case cMinus_le => exact hquot.le
  case l_eq => rw [if_pos (by omega)]
  case total => exact hsum
  case room => intro r; split <;> split <;> omega

theorem segmentation_covers (b : Nat) : (segmentation b).Covers b := by
  rcases Nat.lt_or_ge maxBlock b with h | h
  · exact segmentation_covers_of_gt h
  · exact segmentation_covers_of_le h

theorem blockSize_segmentation_le (b r : Nat) : (segmentation b).blockSize r ≤ 6144 := by
  rcases Nat.lt_or_ge maxBlock b with h | h
  · rw [segmentation_of_gt h]
    simp only [Segmentation.blockSize]
    split
    · exact kMinusFor_le _
    · exact kPlusFor_le _ _
  · rw [segmentation_of_le h]
    exact kPlusFor_le _ _

theorem segmentation_c_le {b : Nat} (h : b ≤ Config.maxTbSize) : (segmentation b).c ≤ 13 := by
  rw [segmentation_c]
  split
  · omega
  · simp only [ceilDiv, maxBlock, Config.maxTbSize] at *
    omega

/-! ## Sums over the blocks -/

theorem Segmentation.sumK_eq {seg : Segmentation} {b : Nat} (h : seg.Covers b) :
    seg.sumK = seg.cMinus * seg.kMinus + (seg.c - seg.cMinus) * seg.kPlus := by
  have hsplit := sum_range_split seg.c (seg.c - seg.cMinus) seg.kMinus seg.kPlus (Nat.sub_le _ _)
  rw [Nat.sub_sub_self h.cMinus_le] at hsplit
  rw [← hsplit, Segmentation.sumK, Segmentation.blockSizes]
  congr 1
  refine List.map_congr_left fun r _ => ?_
  have := h.cMinus_le
  exact if_congr (by omega) rfl rfl

theorem sum_filler {seg : Segmentation} (h : 0 < seg.c) : ((List.range seg.c).map seg.filler).sum = seg.f := by
  obtain ⟨n, hn⟩ := Nat.exists_eq_succ_of_ne_zero h.ne'
  rw [hn, List.range_succ_eq_map]
  simp [Segmentation.filler, Function.comp_def]

/-- The data bits of all blocks are the bits of the transport block (R207). -/
theorem sum_dataBits {seg : Segmentation} {b : Nat} (h : seg.Covers b) :
    ((List.range seg.c).map seg.dataBits).sum = b := by
  have hpart : seg.sumK = ((List.range seg.c).map fun r => seg.dataBits r + (seg.l + seg.filler r)).sum := by
    rw [Segmentation.sumK, Segmentation.blockSizes]
    congr 1
    refine List.map_congr_left fun r _ => ?_
    have := h.room r
    simp only [Segmentation.dataBits]
    omega
  have htotal := h.total
  rw [List.sum_map_add, List.sum_map_add, sum_filler h.c_pos, Segmentation.sumK_eq h, List.map_const',
    List.sum_replicate, List.length_range, smul_eq_mul] at hpart
  omega

/-! ## Code blocks and circular buffers (R207, R244) -/

@[simp] theorem length_crcParity (g l : Nat) (bits : List Bool) : (crcParity g l bits).length = l := by
  simp [crcParity]

/-- A block that gets all its data bits has K_r elements (R207). -/
theorem length_codeBlock {seg : Segmentation} {b : Nat} (h : seg.Covers b) (r : Nat) {data : List Bool}
    (hdata : data.length = seg.dataBits r) : (codeBlock seg r data).length = seg.blockSize r := by
  have hroom := h.room r
  have hl := h.l_eq
  unfold codeBlock
  simp only [Segmentation.dataBits] at hdata
  split <;> rename_i hc
  · rw [if_pos hc] at hl
    simp only [List.length_append, List.length_replicate, List.length_map, length_crcParity]
    omega
  · rw [if_neg hc] at hl
    simp only [List.length_append, List.length_replicate, List.length_map]
    omega

theorem lengths_codeBlocksFrom {seg : Segmentation} {b : Nat} (h : seg.Covers b) (n r : Nat) (bits : List Bool)
    (hbits : bits.length = ((List.range' r n).map seg.dataBits).sum) :
    (codeBlocksFrom seg n r bits).map List.length = (List.range' r n).map seg.blockSize := by
  induction n generalizing r bits with
  | zero => rfl
  | succ n ih =>
    rw [List.range'_succ, List.map_cons, List.sum_cons] at hbits
    rw [codeBlocksFrom, List.range'_succ, List.map_cons, List.map_cons,
      length_codeBlock h r (by rw [List.length_take]; omega), ih (r + 1) _ (by rw [List.length_drop]; omega)]

theorem lengths_codeBlocks {seg : Segmentation} {bits : List Bool} (h : seg.Covers bits.length) :
    (codeBlocks seg bits).map List.length = seg.blockSizes := by
  rw [Segmentation.blockSizes, List.range_eq_range']
  refine lengths_codeBlocksFrom h seg.c 0 bits ?_
  rw [← List.range_eq_range', sum_dataBits h]

/-- An initial transmission of A = B − 24 payload bits leaves one buffer of 3·K_Π,r entries per block (R244). -/
theorem lengths_tbEncode {seg : Segmentation} {a : List Bool} (h : seg.Covers (a.length + 24)) :
    ((tbEncode seg a).map circularBuffer).map List.length = seg.blockSizes.map fun k => 3 * kPi k := by
  have hcrc : (crcAttach24A a).length = a.length + 24 := by simp [crcAttach24A]
  rw [← lengths_codeBlocks (bits := crcAttach24A a) (by rwa [hcrc]), tbEncode]
  simp only [List.map_map]
  exact List.map_congr_left fun c _ => length_circularBuffer c

theorem some_mem_tbEncode {seg : Segmentation} {a : List Bool} {w : List Trit}
    (h : w ∈ (tbEncode seg a).map circularBuffer) : ∃ b, some b ∈ w := by
  simp only [tbEncode, List.mem_map] at h
  obtain ⟨_, ⟨c, _, rfl⟩, rfl⟩ := h
  exact some_mem_circularBuffer c

theorem kPi_le {k : Nat} (h : k ≤ 6144) : kPi k ≤ 6176 := by
  simp only [kPi, subblockRows, ceilDiv]
  omega

/-- All buffers of a transport block together fit the length register HARQ_LEN (10_state.md R47). -/
theorem length_flatten_buffers_lt {b : Nat} {w : List (List Trit)} (hb : b ≤ Config.maxTbSize)
    (hw : w.map List.length = (segmentation b).blockSizes.map fun k => 3 * kPi k) : w.flatten.length < 2 ^ 20 := by
  have hc := segmentation_c_le hb
  rw [List.length_flatten, hw]
  have hsum := List.sum_le_card_nsmul ((segmentation b).blockSizes.map fun k => 3 * kPi k) 18528 (by
    intro n hn
    simp only [Segmentation.blockSizes, List.mem_map, exists_exists_and_eq_and] at hn
    obtain ⟨r, _, rfl⟩ := hn
    have := kPi_le (blockSize_segmentation_le b r)
    omega)
  simp only [List.length_map, Segmentation.blockSizes, List.length_range, smul_eq_mul] at hsum ⊢
  omega

end Sys2Proof.Machine
end

section
/-! PROOFS. The machine's invariant: the state after reset meets it and every step keeps it (10_state.md R32, R45 to
R48, R50, R53, R54, R62; 70_reset_and_hazards.md R444). -/

namespace Sys2Proof.Machine

/-! ## Argument registers -/

theorem ArgRegs.reservedZero_reset : ArgRegs.reset.reservedZero := fun r => by cases r <;> decide

theorem ArgRegs.reservedZero_put {regs : ArgRegs} (h : regs.reservedZero) {r : ArgReg} {w : Word}
    (hw : w &&& ~~~ r.mask = 0) : (regs.put r w).reservedZero := by
  intro q
  by_cases hq : q = r
  · subst hq; rwa [ArgRegs.get_put]
  · rw [ArgRegs.get_put_ne regs w hq]; exact h q

theorem and_mask_reserved (data mask : Word) : (data &&& mask) &&& ~~~ mask = 0 := by
  rw [BitVec.and_assoc, BitVec.and_not_self]
  exact BitVec.and_zero

theorem ArgRegs.reservedZero_write {regs : ArgRegs} (h : regs.reservedZero) (r : ArgReg) (data : Word) :
    (regs.write r data).reservedZero :=
  ArgRegs.reservedZero_put h (and_mask_reserved data r.mask)

/-- A mix of two values with reserved bits 0 has them 0 (20_memory.md R93). -/
theorem mixFields_reserved {old new mask : Word} (hold : old &&& ~~~ mask = 0) (hnew : new &&& ~~~ mask = 0)
    (choice : Word) (fields : List (Nat × Nat)) : mixFields choice fields old new &&& ~~~ mask = 0 := by
  unfold mixFields
  simp only
  generalize fieldsMask (fields.filter fun field => choice.getLsbD field.1) = chosen
  apply BitVec.eq_of_getLsbD_eq
  intro i hi
  have hold' := congrArg (fun w => w.getLsbD i) hold
  have hnew' := congrArg (fun w => w.getLsbD i) hnew
  simp only [BitVec.getLsbD_and, BitVec.getLsbD_or, BitVec.getLsbD_not, hi, decide_true, Bool.true_and] at hold' hnew' ⊢
  cases hm : mask.getLsbD i with
  | true => simp
  | false => simp_all

/-! ## What a command reads is in form -/

theorem State.Inv.inputs_regs {s : State} (h : s.Inv) : s.inputs.regs.reservedZero := by
  cases hr : s.raced with
  | none => rw [State.inputs_of_raced_none hr]; exact h.regs
  | some inp => rw [State.inputs_of_raced_some hr]; exact (h.raced inp hr).2.1

theorem State.Inv.inputs_mem {s : State} (h : s.Inv) : s.inputs.mem.wf := by
  cases hr : s.raced with
  | none => rw [State.inputs_of_raced_none hr]; exact h.mem
  | some inp => rw [State.inputs_of_raced_some hr]; exact (h.raced inp hr).2.2

/-! ## Resets and the epilogue keep the form -/

theorem LenRegs.legal_reset : LenRegs.reset.legal := by unfold LenRegs.legal; decide

theorem State.racedLegal_of_none {s : State} (h : s.raced = none) : s.racedLegal := by
  intro inp hi
  rw [h] at hi
  cases hi

theorem State.Inv.reset : State.reset.Inv where
  regs := ArgRegs.reservedZero_reset
  lens := LenRegs.legal_reset
  cell := fun h => absurd h (by decide)
  mem := Memory.wf_reset
  raced := State.racedLegal_of_none rfl

theorem State.Inv.hardwareReset (s : State) : s.hardwareReset.Inv :=
  ⟨State.Inv.reset.regs, State.Inv.reset.lens, State.Inv.reset.cell, State.Inv.reset.mem, State.racedLegal_of_none rfl⟩

theorem State.Inv.softReset {s : State} (h : s.Inv) : s.softReset.Inv where
  regs := ArgRegs.reservedZero_reset
  lens := LenRegs.legal_reset
  cell := fun hc => absurd hc (by simp)
  mem := h.mem
  raced := State.racedLegal_of_none rfl

theorem State.Inv.complete {s : State} (h : s.Inv) (op : BitVec 8) (proc : BitVec 4) (code : ErrCode) :
    (s.complete op proc code).Inv :=
  ⟨h.regs, h.lens, h.cell, h.mem, State.racedLegal_of_none rfl⟩

/-- The form speaks of neither the schedule, nor the free values drawn, nor the last read. -/
theorem State.Inv.bookkeeping {s : State} (h : s.Inv) (draws : Nat) (turns : List Turn) (readData : Option ReadData) :
    State.Inv { s with draws := draws, turns := turns, readData := readData } :=
  ⟨h.regs, h.lens, h.cell, h.mem, h.raced⟩

/-! ## Host writes keep the form -/

theorem State.Inv.writeArg {s : State} (h : s.Inv) (r : ArgReg) (data : Word) : (s.writeArg r data).Inv := by
  have hregs := ArgRegs.reservedZero_write h.regs r data
  unfold State.writeArg
  cases hb : s.busy with
  | false => exact ⟨hregs, h.lens, h.cell, h.mem, h.raced⟩
  | true =>
    refine ⟨hregs, h.lens, h.cell, h.mem, ?_⟩
    rintro inp ⟨⟩
    exact ⟨hb, ArgRegs.reservedZero_put h.inputs_regs (mixFields_reserved (h.inputs_regs r) (hregs r) _ _),
      h.inputs_mem⟩

theorem State.Inv.writeCmd {s : State} (h : s.Inv) (w : Word) : (s.writeCmd w).Inv := by
  unfold State.writeCmd
  split
  · exact ⟨h.regs, h.lens, h.cell, h.mem, h.raced⟩
  · exact ⟨h.regs, h.lens, h.cell, h.mem, State.racedLegal_of_none rfl⟩

theorem State.Inv.writeReg {s : State} (h : s.Inv) (offset : Nat) (data : Word) : (s.writeReg offset data).Inv := by
  rcases s.writeReg_cases offset data with e | ⟨-, e⟩ | ⟨-, e⟩ | ⟨-, e⟩ | ⟨r, -, e⟩ <;> rw [e]
  · exact h
  · exact h.softReset
  · exact ⟨h.regs, h.lens, h.cell, h.mem, h.raced⟩
  · exact h.writeCmd data
  · exact h.writeArg r data

theorem State.Inv.storeMasked {s : State} (h : s.Inv) (a : Nat) (vks : List (Byte × Byte)) :
    (s.storeMasked a vks).Inv := by
  rcases s.storeMasked_cases a vks with e | ⟨-, e⟩ | ⟨hb, e⟩ <;> rw [e]
  · exact h
  · exact ⟨h.regs, h.lens, h.cell, Memory.wf_writeMasked h.mem _ _, h.raced⟩
  · refine ⟨h.regs, h.lens, h.cell, Memory.wf_writeMasked h.mem _ _, ?_⟩
    rintro inp ⟨⟩
    exact ⟨hb, h.inputs_regs, Memory.wf_writeMasked h.inputs_mem _ _⟩

theorem State.Inv.hostAccess {access : HostAccess} {s t : State} (h : s.Inv) (hstep : hostAccess access s = .next t) :
    t.Inv := by
  rcases hostAccess_cases hstep with ⟨width, value, written, draws, rfl⟩ | ⟨offset, data, rfl⟩ | ⟨a, vks, rfl⟩
  · exact h.bookkeeping draws s.turns _
  · exact h.writeReg offset data
  · exact h.storeMasked a vks

/-! ## Legal operands of a PUSCH_TX -/

theorem Bandwidth.nRb_le (b : Bandwidth) : b.nRb ≤ 100 := by cases b <;> decide

theorem CyclicPrefix.nSymbPusch_eq (cp : CyclicPrefix) : cp.nSymbPusch = 12 ∨ cp.nSymbPusch = 10 := by
  cases cp <;> decide

theorem legalAlloc_width {alloc : Word} {cell : CellConfig} (h : legalAlloc alloc cell = true) :
    1 ≤ (nPrbOf alloc).toNat ∧ (nPrbOf alloc).toNat ≤ 100 := by
  simp only [legalAlloc, Bool.and_eq_true, decide_eq_true_eq] at h
  have := cell.nRb.nRb_le
  omega

theorem legalTbSize_bounds {tbSize tbLen : Word} (h : legalTbSize tbSize tbLen = true) :
    25 ≤ tbSizeOf tbSize ∧ tbSizeOf tbSize ≤ Config.maxTbSize ∧ tbLenOf tbLen + 24 = tbSizeOf tbSize := by
  simp only [legalTbSize, Bool.and_eq_true, decide_eq_true_eq, beq_iff_eq] at h
  omega

theorem cellOf_cellId_le {cfg : Word} {cell : CellConfig} (h : cellOf cfg = some cell) : cell.cellId.toNat ≤ 503 := by
  unfold cellOf at h
  split at h
  · split at h <;> cases h
    assumption
  · cases h

/-- What a plan says of an initial transmission's operands (40_commands.md R159; 30_encoding.md R121, R122). -/
theorem puschPlan_initial {cmd : TxCommand} {s : State} {plan : TxPlan} (h : puschPlan cmd s = .ok plan)
    (hn : cmd.ndi = true) :
    legalTbSize s.inputs.regs.tbSize s.inputs.regs.tbLen = true ∧ legalAlloc s.inputs.regs.alloc s.cell = true ∧
      plan.src = txSource true s.inputs.regs s.cell (s.slot plan.target.p) := by
  obtain ⟨htarget, hsrc, -⟩ := puschPlan_eq_ok h
  obtain ⟨-, -, -, -, halloc, -, htb⟩ := puschTarget_eq_some_iff.1 htarget
  rw [hn] at hsrc
  exact ⟨htb hn, halloc, hsrc⟩

theorem puschPlan_configured {cmd : TxCommand} {s : State} {plan : TxPlan} (h : puschPlan cmd s = .ok plan) :
    s.cell.configured = true := by
  obtain ⟨htarget, -⟩ := puschPlan_eq_ok h
  obtain ⟨-, -, -, hc, -⟩ := puschTarget_eq_some_iff.1 htarget
  exact hc

/-! ## The buffers and sizes of a PUSCH_TX -/

/-- The segmentation and the buffers that a transmission works with are those of some legal transport block: the block
of an initial transmission, or the one its slot records (40_commands.md R160, R170, R171). -/
structure BuffersOf (seg : Segmentation) (w : List (List Trit)) (b : Nat) : Prop where
  legal : 25 ≤ b ∧ b ≤ Config.maxTbSize
  seg_eq : seg = segmentation b
  lengths : w.map List.length = seg.blockSizes.map fun k => 3 * kPi k
  bits : ∀ x ∈ w, ∃ b, some b ∈ x

theorem buffersOf_initial {regs : ArgRegs} {a : List Bool} (slot : HarqSlot)
    (hb : legalTbSize regs.tbSize regs.tbLen = true) (ha : a.length = tbLenOf regs.tbLen) :
    BuffersOf (segmentation (tbSizeOf regs.tbSize))
      (txBuffers true (segmentation (tbSizeOf regs.tbSize)) a slot) (tbSizeOf regs.tbSize) := by
  obtain ⟨hlow, hhigh, hlen⟩ := legalTbSize_bounds hb
  have hcovers := segmentation_covers (tbSizeOf regs.tbSize)
  refine ⟨⟨hlow, hhigh⟩, rfl, lengths_tbEncode (by rwa [ha, hlen]), fun w hw => some_mem_tbEncode hw⟩

theorem buffersOf_slot {slot : HarqSlot} (hlegal : slot.legal) (hfit : slot.buffersFit) (hinit : slot.init = true) :
    BuffersOf slot.seg slot.w slot.b := by
  obtain ⟨hlow, hhigh, hseg, -⟩ := hlegal hinit
  obtain ⟨hlen, hbits⟩ := hfit hinit
  exact ⟨⟨hlow, hhigh⟩, hseg, hlen, hbits⟩

theorem puschTx_buffers {cmd : TxCommand} {s : State} {plan : TxPlan} {bits : TxBits} (hlegal : s.slotsLegal)
    (hfit : s.buffersFit) (hplan : puschPlan cmd s = .ok plan) (hbits : readTxBits cmd.ndi s.inputs = some bits) :
    ∃ b, BuffersOf plan.src.seg (txBuffers cmd.ndi plan.src.seg bits.tb (s.slot plan.target.p)) b := by
  cases hn : cmd.ndi with
  | true =>
    obtain ⟨htb, -, hsrc⟩ := puschPlan_initial hplan hn
    have hread := (readTxBits_eq_some hbits).1
    rw [hn, if_pos rfl] at hread
    rw [hsrc]
    exact ⟨_, buffersOf_initial _ htb (Memory.length_of_readBits hread)⟩
  | false =>
    obtain ⟨-, hsrc, -, hretx, -⟩ := puschPlan_eq_ok hplan
    rw [hn] at hsrc
    rw [hsrc]
    exact ⟨_, buffersOf_slot (hlegal _) (hfit _) (hretx hn).1⟩

/-- G of any sizing step fits BITS_LEN (10_state.md R46). -/
theorem txSizes_g_lt (src : TxSource) (regs : ArgRegs) (cell : CellConfig) (m : Modulation) :
    (txSizes src regs cell m).g < 2 ^ 20 := by
  have horder : m.order ≤ 6 := by cases m <;> decide
  have hwidth := (nPrbOf regs.alloc).isLt
  have hsymbols : 12 * (nPrbOf regs.alloc).toNat * cell.cp.nSymbPusch ≤ 1524 * 12 :=
    Nat.mul_le_mul (by omega) (by have := cell.cp.nSymbPusch_eq; omega)
  have hg := Nat.mul_le_mul horder (Nat.le_trans (Nat.sub_le _ (txSizes src regs cell m).qpRi)
    (Nat.le_trans (Nat.sub_le _ (txSizes src regs cell m).qpCqi) hsymbols))
  exact Nat.lt_of_le_of_lt hg (by decide)

theorem puschPlan_g_lt {cmd : TxCommand} {s : State} {plan : TxPlan} (h : puschPlan cmd s = .ok plan) :
    plan.sizes.g < 2 ^ 20 := by
  obtain ⟨-, -, hsizes, -⟩ := puschPlan_eq_ok h
  rw [hsizes]
  exact txSizes_g_lt _ _ _ _

/-! ## The commit keeps the form -/

theorem toNat_ofNat_lt {n k : Nat} (h : n < 2 ^ k) : (BitVec.ofNat 32 n).toNat < 2 ^ k := by
  rw [BitVec.toNat_ofNat]
  exact Nat.lt_of_le_of_lt (Nat.mod_le _ _) h

theorem committedLens_legal {lens : LenRegs} (h : lens.legal) (cmd : TxCommand) (cell : CellConfig) {plan : TxPlan}
    {out : TxResult} (hg : plan.sizes.g < 2 ^ 20) (hw : out.w.flatten.length < 2 ^ 20) :
    (committedLens cmd cell plan out lens).legal := by
  obtain ⟨-, hbits, hharq, hgrid⟩ := h
  have hwave : 15 * cell.nRb.nfft < 2 ^ 18 := by cases cell.nRb <;> decide
  have hentries : cell.nRb.nSc * (2 * cell.cp.nSymb) < 2 ^ 18 := by cases cell.nRb <;> cases cell.cp <;> decide
  refine ⟨toNat_ofNat_lt hwave, ?_, ?_, ?_⟩ <;> simp only [committedLens] <;> split
  · exact toNat_ofNat_lt hg
  · exact hbits
  · exact toNat_ofNat_lt (by rwa [TxResult.harqBytes, List.length_map])
  · exact hharq
  · exact toNat_ofNat_lt hentries
  · exact hgrid

theorem committedMem_wf {mem : Memory} (h : mem.wf) (cmd : TxCommand) (draw : Nat) (out : TxResult) :
    (committedMem cmd draw out mem).wf := by
  have keep : ∀ {m : Memory}, m.wf → ∀ (c : Bool) (base : Nat) (bs : List Byte),
      (if c then m.writeBytes base bs else m).wf := by
    intro m hm c base bs
    split
    · exact Memory.wf_writeBytes hm base bs
    · exact hm
  exact keep (keep (keep (Memory.wf_writeBytes h _ _) _ _ _) _ _ _) _ _ _

theorem CommandEffect.inv {i : Instr} {s u : State} (he : CommandEffect i s u) (h : s.Inv) (hlegal : s.slotsLegal)
    (hfit : s.buffersFit) : u.Inv := by
  cases he with
  | nop => exact h
  | cellConfig _ cell hs hc => exact ⟨h.regs, h.lens, fun _ => cellOf_cellId_le hc, h.mem, h.raced⟩
  | procConfig _ proc p hp hs ha => exact ⟨h.regs, h.lens, h.cell, h.mem, h.raced⟩
  | procFlush _ proc p hp => exact ⟨h.regs, h.lens, h.cell, h.mem, h.raced⟩
  | puschTx _ cmd plan bits out hplan hbits hout =>
    obtain ⟨b, hbuf⟩ := puschTx_buffers hlegal hfit hplan hbits
    have hw : out.w.flatten.length < 2 ^ 20 := by
      rw [(txPipeline_eq_ok hout).1]
      exact length_flatten_buffers_lt hbuf.legal.2 (by rw [← hbuf.seg_eq]; exact hbuf.lengths)
    exact ⟨h.regs, committedLens_legal h.lens cmd s.cell (puschPlan_g_lt hplan) hw, h.cell,
      committedMem_wf h.mem cmd _ out, h.raced⟩

/-! ## Slots -/

theorem State.forall_slot_setSlot {P : HarqSlot → Prop} {s : State} (h : ∀ q, P (s.slot q)) (p : Fin 8)
    {slot : HarqSlot} (hslot : P slot) : ∀ q, P ((s.setSlot p slot).slot q) := by
  intro q
  by_cases hq : q = p
  · subst hq; rwa [State.slot_setSlot]
  · rw [State.slot_setSlot_ne s slot hq]; exact h q

theorem init_slot_reset (p : Fin 8) : (State.reset.slot p).init = false := by
  rw [State.slot_reset]
  rfl

theorem State.slot_hardwareReset (s : State) (p : Fin 8) : s.hardwareReset.slot p = State.reset.slot p :=
  State.slot_eq_of_procs rfl p

/-! ## What a host access does to slots and cell -/

/-- A register write leaves slots and cell as they are, or is the soft reset (70_reset_and_hazards.md R442). -/
theorem State.writeReg_slots (s : State) (offset : Nat) (data : Word) :
    ((s.writeReg offset data).procs = s.procs ∧ (s.writeReg offset data).cell = s.cell) ∨
      (offset = 0x004 ∧ data.getLsbD 0 = true ∧ s.writeReg offset data = s.softReset) := by
  rcases s.writeReg_cases offset data with e | ⟨rfl, e⟩ | ⟨-, e⟩ | ⟨-, e⟩ | ⟨r, -, e⟩
  · rw [e]; exact .inl ⟨rfl, rfl⟩
  · cases hd : data.getLsbD 0 with
    | true => exact .inr ⟨rfl, rfl, e⟩
    | false =>
      have hkeep : s.writeReg 0x004 data = s := by
        simp only [State.writeReg, hd, if_true, Bool.false_eq_true, if_false]
      rw [hkeep]; exact .inl ⟨rfl, rfl⟩
  · rw [e]; exact .inl ⟨rfl, rfl⟩
  · rw [e, State.writeCmd]; split <;> exact .inl ⟨rfl, rfl⟩
  · rw [e, State.writeArg]; simp only; split <;> exact .inl ⟨rfl, rfl⟩

theorem State.storeMasked_slots (s : State) (a : Nat) (vks : List (Byte × Byte)) :
    (s.storeMasked a vks).procs = s.procs ∧ (s.storeMasked a vks).cell = s.cell := by
  rcases s.storeMasked_cases a vks with e | ⟨-, e⟩ | ⟨-, e⟩ <;> rw [e] <;> exact ⟨rfl, rfl⟩

/-- A host read changes what the last read returned, and at most the count of free values drawn besides. -/
theorem hostAccess_read {width : Width} {offset : Word} {s t : State}
    (h : hostAccess (.read width offset) s = .next t) :
    ∃ value written draws, t = { s.withRead width value written with draws := draws } := by
  simp only [hostAccess] at h
  split at h
  · rename_i hlegal
    split at h
    · rename_i hreg
      obtain rfl : width = .w32 := by
        simp only [accessLegal, if_pos hreg, Bool.and_eq_true, beq_iff_eq] at hlegal
        exact hlegal.1
      cases h
      exact s.readReg_cases offset.toNat
    · exact State.readMem_cases h
  · cases h

/-- A host access leaves every slot and the cell as they are, or is the soft reset. -/
theorem hostAccess_slots {access : HostAccess} {s t : State} (h : hostAccess access s = .next t) :
    (t.procs = s.procs ∧ t.cell = s.cell) ∨
      (t = s.softReset ∧ ∃ data : Word, access = .write .w32 0x004 data ∧ data.getLsbD 0 = true) := by
  cases access with
  | read width offset =>
    obtain ⟨value, written, draws, rfl⟩ := hostAccess_read h
    exact .inl ⟨rfl, rfl⟩
  | writeBits mem bits =>
    cases h
    exact .inl (s.storeMasked_slots _ _)
  | write width offset data =>
    simp only [hostAccess] at h
    split at h
    · rename_i hlegal
      split at h <;> cases h
      · rename_i hreg
        rcases s.writeReg_slots offset.toNat data with hkeep | ⟨hoffset, hbit, e⟩
        · exact .inl hkeep
        · obtain rfl : offset = 0x004 := BitVec.eq_of_toNat_eq hoffset
          obtain rfl : width = .w32 := by simpa [accessLegal] using hlegal
          exact .inr ⟨e, data, rfl, hbit⟩
      · exact .inl (s.storeMasked_slots _ _)
    · cases h

/-! ## Slots stay legal and their buffers fit -/

/-- What every step keeps of one slot: the sizes it records are legal and its buffers have these sizes. -/
def HarqSlot.sound (slot : HarqSlot) : Prop := slot.legal ∧ slot.buffersFit

theorem HarqSlot.sound_of_init_false {slot : HarqSlot} (h : slot.init = false) : slot.sound :=
  ⟨fun hi => absurd hi (by simp [h]), fun hi => absurd hi (by simp [h])⟩

/-- A re-declared width is that of a legal allocation (40_commands.md R154). -/
theorem HarqSlot.sound_redeclared {slot : HarqSlot} {alloc : Word} {cell : CellConfig} (h : slot.sound)
    (ha : legalAlloc alloc cell = true) : HarqSlot.sound { slot with nprbDecl := nPrbOf alloc } := by
  refine ⟨fun hinit => ?_, h.2⟩
  obtain ⟨hlow, hhigh, hseg, hsum, -, hmsc, hsymb⟩ := h.1 hinit
  exact ⟨hlow, hhigh, hseg, hsum, legalAlloc_width ha, hmsc, hsymb⟩

theorem committedSlot_sound {cmd : TxCommand} {s : State} {plan : TxPlan} {bits : TxBits}
    (h : (s.slot plan.target.p).sound) (hplan : puschPlan cmd s = .ok plan)
    (hbits : readTxBits cmd.ndi s.inputs = some bits) :
    (committedSlot cmd s.inputs.regs plan (txBuffers cmd.ndi plan.src.seg bits.tb (s.slot plan.target.p))
      (s.slot plan.target.p)).sound := by
  cases hn : cmd.ndi with
  | true =>
    obtain ⟨htb, halloc, hsrc⟩ := puschPlan_initial hplan hn
    have hread := (readTxBits_eq_some hbits).1
    rw [hn, if_pos rfl] at hread
    have hbuf := buffersOf_initial (s.slot plan.target.p) htb (Memory.length_of_readBits hread)
    have hwidth := legalAlloc_width halloc
    simp only [committedSlot, hn, if_true, hsrc, txSource]
    exact ⟨fun _ => ⟨hbuf.legal.1, hbuf.legal.2, rfl, rfl, hwidth, ⟨_, hwidth.1, hwidth.2, rfl⟩,
      s.cell.cp.nSymbPusch_eq⟩, fun _ => ⟨hbuf.lengths, hbuf.bits⟩⟩
  | false =>
    simp only [committedSlot, hn, Bool.false_eq_true, if_false]
    exact h

theorem CommandEffect.slots_sound {i : Instr} {s u : State} (he : CommandEffect i s u) (h : ∀ p, (s.slot p).sound) :
    ∀ p, (u.slot p).sound := by
  cases he with
  | nop => exact h
  | cellConfig => exact h
  | procConfig _ proc p hp hs ha => exact State.forall_slot_setSlot h p (HarqSlot.sound_redeclared (h p) ha)
  | procFlush _ proc p hp => exact State.forall_slot_setSlot h p (HarqSlot.sound_of_init_false rfl)
  | puschTx _ cmd plan bits out hplan hbits hout =>
    have hslot := committedSlot_sound (h plan.target.p) hplan hbits
    rw [← (txPipeline_eq_ok hout).1] at hslot
    exact State.forall_slot_setSlot h plan.target.p hslot

/-! ## Slots stay filled -/

theorem HarqSlot.filled_of_init_false {slot : HarqSlot} {cell : CellConfig} (h : slot.init = false) :
    slot.filled cell := fun hi => absurd hi (by simp [h])

/-- Before CELL_CONFIG no slot is initialised: a transmission needs a configured cell (40_commands.md R159). -/
theorem HarqSlot.init_of_filled_unconfigured {slot : HarqSlot} {cell : CellConfig} (h : slot.filled cell)
    (hcell : cell.configured = false) : slot.init = false := by
  by_contra hinit
  obtain ⟨s, cmd, plan, bits, rfl, -, hplan, -⟩ := h (by simpa using hinit)
  rw [puschPlan_configured hplan] at hcell
  cases hcell

theorem committedSlot_filled {cmd : TxCommand} {s : State} {plan : TxPlan} {bits : TxBits}
    (h : (s.slot plan.target.p).filled s.cell) (hplan : puschPlan cmd s = .ok plan)
    (hbits : readTxBits cmd.ndi s.inputs = some bits) :
    (committedSlot cmd s.inputs.regs plan (txBuffers cmd.ndi plan.src.seg bits.tb (s.slot plan.target.p))
      (s.slot plan.target.p)).filled s.cell := by
  cases hn : cmd.ndi with
  | true =>
    intro _
    refine ⟨s, cmd, plan, bits, rfl, hn, hplan, hbits, ?_⟩
    simp [committedSlot, hn, txSource, txBuffers]
  | false =>
    simp only [committedSlot, hn, Bool.false_eq_true, if_false]
    exact h

theorem CommandEffect.slotsFilled {i : Instr} {s u : State} (he : CommandEffect i s u) (h : s.slotsFilled) :
    u.slotsFilled := by
  cases he with
  | nop => exact h
  | cellConfig _ cell hs hc =>
    exact fun p => HarqSlot.filled_of_init_false (HarqSlot.init_of_filled_unconfigured (h p) hs)
  | procConfig _ proc p hp hs ha => exact State.forall_slot_setSlot (P := (·.filled s.cell)) h p (h p)
  | procFlush _ proc p hp =>
    exact State.forall_slot_setSlot (P := (·.filled s.cell)) h p (HarqSlot.filled_of_init_false rfl)
  | puschTx _ cmd plan bits out hplan hbits hout =>
    have hslot := committedSlot_filled (h plan.target.p) hplan hbits
    rw [← (txPipeline_eq_ok hout).1] at hslot
    exact State.forall_slot_setSlot (P := (·.filled s.cell)) h plan.target.p hslot

/-! ## Every step keeps the invariant -/

/-- The whole invariant of a state. -/
structure State.Sound (s : State) : Prop where
  inv : s.Inv
  slots : ∀ p, (s.slot p).sound

/-- A transition keeps the invariant, and keeps the slots filled. -/
def KeepsInvariant (s t : State) : Prop := (s.Sound → t.Sound) ∧ (s.slotsFilled → t.slotsFilled)

theorem State.Sound.slotsLegal {s : State} (h : s.Sound) : s.slotsLegal := fun p => (h.slots p).1

theorem State.Sound.buffersFit {s : State} (h : s.Sound) : s.buffersFit := fun p => (h.slots p).2

/-- Where no slot is initialised, the form of the rest is the whole invariant. -/
theorem keepsInvariant_of_uninitialised {s t : State} (hinv : s.Inv → t.Inv) (h : ∀ p, (t.slot p).init = false) :
    KeepsInvariant s t :=
  ⟨fun hs => ⟨hinv hs.inv, fun p => HarqSlot.sound_of_init_false (h p)⟩,
    fun _ p => HarqSlot.filled_of_init_false (h p)⟩

theorem softReset_keepsInvariant (s : State) : KeepsInvariant s s.softReset :=
  keepsInvariant_of_uninitialised State.Inv.softReset fun p => by rw [State.slot_softReset]

theorem hardwareReset_keepsInvariant (s : State) : KeepsInvariant s s.hardwareReset := by
  refine keepsInvariant_of_uninitialised (fun _ => State.Inv.hardwareReset s) fun p => ?_
  rw [State.slot_hardwareReset]
  exact init_slot_reset p

theorem hostAccess_keepsInvariant {access : HostAccess} {s t : State} (h : hostAccess access s = .next t) :
    KeepsInvariant s t := by
  rcases hostAccess_slots h with ⟨hprocs, hcell⟩ | ⟨rfl, -⟩
  · have hslot := State.slot_eq_of_procs hprocs
    refine ⟨fun hs => ⟨hs.inv.hostAccess h, fun p => ?_⟩, fun hs p => ?_⟩
    · rw [hslot]; exact hs.slots p
    · rw [hslot, hcell]; exact hs p
  · exact softReset_keepsInvariant s

theorem complete_keepsInvariant (s : State) (op : BitVec 8) (proc : BitVec 4) (code : ErrCode) :
    KeepsInvariant s (s.complete op proc code) :=
  ⟨fun h => ⟨h.inv.complete op proc code, h.slots⟩, fun h => h⟩

theorem exec_keepsInvariant {i : Instr} {s t : State} (h : exec i s = .next t) : KeepsInvariant s t := by
  rcases exec_cases h with ⟨code, -, rfl⟩ | ⟨u, he, rfl⟩
  · exact complete_keepsInvariant s _ _ _
  · obtain ⟨hsound, hfilled⟩ := complete_keepsInvariant u i.opcode i.procBits .ok
    exact ⟨fun hs => hsound ⟨he.inv hs.inv hs.slotsLegal hs.buffersFit, he.slots_sound hs.slots⟩,
      fun hs => hfilled (he.slotsFilled hs)⟩

theorem ptcTurn_keepsInvariant {s t : State} (h : ptcTurn s = .next t) : KeepsInvariant s t := by
  rcases ptcTurn_cases h with ⟨-, rfl⟩ | ⟨w, i, -, -, hexec⟩ | ⟨w, e, -, -, rfl⟩
  · exact ⟨id, id⟩
  · exact exec_keepsInvariant hexec
  · exact complete_keepsInvariant s _ _ _

theorem setTurns_keepsInvariant (s : State) (rest : List Turn) : KeepsInvariant s { s with turns := rest } :=
  ⟨fun h => ⟨h.inv.bookkeeping s.draws rest s.readData, h.slots⟩, fun h => h⟩

theorem KeepsInvariant.trans {s t u : State} (hst : KeepsInvariant s t) (htu : KeepsInvariant t u) :
    KeepsInvariant s u :=
  ⟨fun h => htu.1 (hst.1 h), fun h => htu.2 (hst.2 h)⟩

theorem step_keepsInvariant {s t : State} (h : step s = .next t) : KeepsInvariant s t := by
  rcases step_cases h with ⟨-, hptc⟩ | ⟨turn, rest, -, hturn⟩
  · exact ptcTurn_keepsInvariant hptc
  · refine (setTurns_keepsInvariant s rest).trans ?_
    rcases hturn with ⟨-, hptc⟩ | ⟨-, rfl⟩ | ⟨access, -, hhost⟩
    · exact ptcTurn_keepsInvariant hptc
    · exact hardwareReset_keepsInvariant _
    · exact hostAccess_keepsInvariant hhost

/-- Settles O28: every kind of turn keeps the invariant, from one lemma per transition and one per command's effect. -/
theorem stepKeepsInvariant : Obligations.StepKeepsInvariant := by
  intro s t hinv hlegal hfit hstep
  obtain ⟨hsound, hfilled⟩ := step_keepsInvariant hstep
  have ht := hsound ⟨hinv, fun p => ⟨hlegal p, hfit p⟩⟩
  exact ⟨ht.inv, ht.slotsLegal, ht.buffersFit, hfilled⟩

/-- Settles O29: registers, lengths and memory at reset are in form, and no slot is initialised. -/
theorem resetMeetsInvariant : Obligations.ResetMeetsInvariant :=
  ⟨State.Inv.reset, fun p => (HarqSlot.sound_of_init_false (init_slot_reset p)).1,
    fun p => (HarqSlot.sound_of_init_false (init_slot_reset p)).2,
    fun p => HarqSlot.filled_of_init_false (init_slot_reset p)⟩

end Sys2Proof.Machine
end

section
/-! PROOFS. What a command leaves unchanged, and which events change a slot (10_state.md R49, R50, R52, R55, R58;
70_reset_and_hazards.md R443). -/

namespace Sys2Proof.Machine

/-! ## The decoder, once per row of the opcode table -/

/-- What a word that decodes says: the command of its OPCODE, with its unused bits 0 (30_encoding.md R112, R113). -/
theorem decode_eq_ok {w : Word} {i : Instr} (h : decode w = .ok i) :
    (i = .nop ∧ opcodeField w = opcodeNop ∧ w &&& unusedMaskNone = 0) ∨
      (i = .cellConfig ∧ opcodeField w = opcodeCellConfig ∧ w &&& unusedMaskNone = 0) ∨
      (i = .procConfig (procField w) ∧ opcodeField w = opcodeProcConfig ∧ w &&& unusedMaskProc = 0) ∨
      (i = .procFlush (procField w) ∧ opcodeField w = opcodeProcFlush ∧ w &&& unusedMaskProc = 0) ∨
      (i = .puschTx (procField w) (rvField w) (ndiField w) (modField w) (sfField w) (dumpGridField w)
          (dumpBitsField w) (dumpHarqField w) ∧ opcodeField w = opcodePuschTx ∧ w &&& unusedMaskPusch = 0) := by
  unfold decode at h
  split at h
  next hop => split at h <;> cases h; exact .inl ⟨rfl, hop, ‹_›⟩
  split at h
  next hop => split at h <;> cases h; exact .inr (.inl ⟨rfl, hop, ‹_›⟩)
  split at h
  next hop => split at h <;> cases h; exact .inr (.inr (.inl ⟨rfl, hop, ‹_›⟩))
  split at h
  next hop => split at h <;> cases h; exact .inr (.inr (.inr (.inl ⟨rfl, hop, ‹_›⟩)))
  split at h
  next hop => split at h <;> cases h; exact .inr (.inr (.inr (.inr ⟨rfl, hop, ‹_›⟩)))
  cases h

theorem procField_of_unused {w : Word} (h : w &&& unusedMaskNone = 0) : procField w = 0 := by
  have hmask : procField unusedMaskNone = BitVec.allOnes 4 := by decide
  have hfield : procField (w &&& unusedMaskNone) = 0 := by rw [h]; decide
  rwa [procField, BitVec.extractLsb'_and, ← procField, ← procField, hmask, BitVec.and_allOnes] at hfield

/-- A word that decodes holds the OPCODE and the PROC field of its command (30_encoding.md R110, R112). -/
theorem decode_fields {w : Word} {i : Instr} (h : decode w = .ok i) :
    opcodeField w = i.opcode ∧ procField w = i.procBits := by
  rcases decode_eq_ok h with ⟨rfl, hop, hunused⟩ | ⟨rfl, hop, hunused⟩ | ⟨rfl, hop, -⟩ | ⟨rfl, hop, -⟩ | ⟨rfl, hop, -⟩
  · exact ⟨hop, procField_of_unused hunused⟩
  · exact ⟨hop, procField_of_unused hunused⟩
  · exact ⟨hop, rfl⟩
  · exact ⟨hop, rfl⟩
  · exact ⟨hop, rfl⟩

theorem decode_puschTx_ndi {w : Word} {proc : BitVec 4} {rv : BitVec 2} {ndi : Bool} {mod : BitVec 2} {sf : BitVec 4}
    {dumpGrid dumpBits dumpHarq : Bool}
    (h : decode w = .ok (.puschTx proc rv ndi mod sf dumpGrid dumpBits dumpHarq)) : w.getLsbD 17 = ndi := by
  rcases decode_eq_ok h with ⟨e, -⟩ | ⟨e, -⟩ | ⟨e, -⟩ | ⟨e, -⟩ | ⟨e, -⟩ <;> cases e
  rfl

/-! ## What a command leaves unchanged -/

theorem CommandEffect.frame {i : Instr} {s u : State} (h : CommandEffect i s u) :
    u.regs = s.regs ∧ u.status = s.status ∧ u.turns = s.turns ∧ u.readData = s.readData := by
  cases h <;> exact ⟨rfl, rfl, rfl, rfl⟩

/-- Only CELL_CONFIG writes CELL (40_commands.md R152). -/
theorem CommandEffect.cell_eq {i : Instr} {s u : State} (h : CommandEffect i s u) (hi : i ≠ .cellConfig) :
    u.cell = s.cell := by
  cases h with
  | cellConfig => exact absurd rfl hi
  | nop | procConfig | procFlush | puschTx => rfl

/-- Only PUSCH_TX writes memory and length registers (20_memory.md R89). -/
theorem CommandEffect.stores_nothing {i : Instr} {s u : State} (h : CommandEffect i s u) (hi : i.opcode ≠ 0x10) :
    u.lens = s.lens ∧ u.mem = s.mem ∧ u.draws = s.draws := by
  cases h with
  | puschTx => exact absurd rfl hi
  | nop | cellConfig | procConfig | procFlush => exact ⟨rfl, rfl, rfl⟩

theorem CommandEffect.procs_eq {i : Instr} {s u : State} (h : CommandEffect i s u) (hi : i = .nop ∨ i = .cellConfig) :
    u.procs = s.procs := by
  cases h with
  | nop | cellConfig => rfl
  | procConfig | procFlush | puschTx => simp at hi

/-- Settles O26, from the frame of every command's effect and of the epilogue. -/
theorem commandFrame : Obligations.CommandFrame := by
  intro i s t h
  rcases exec_cases h with ⟨code, -, rfl⟩ | ⟨u, he, rfl⟩
  · exact ⟨rfl, rfl, rfl, rfl, fun _ => rfl, fun _ => ⟨rfl, rfl, rfl, fun _ => ⟨rfl, rfl⟩⟩, fun _ => rfl⟩
  · obtain ⟨hregs, hstatus, hturns, hread⟩ := he.frame
    refine ⟨hregs, by simp [hstatus], hturns, hread, he.cell_eq, fun hi => ?_, he.procs_eq⟩
    obtain ⟨hlens, hmem, hdraws⟩ := he.stores_nothing hi
    refine ⟨hlens, hmem, hdraws, fun a => ?_⟩
    rw [State.complete_mem, hmem]
    exact ⟨rfl, rfl⟩

/-! ## How a command changes the slot it names -/

/-- What a successful command makes of the slot its PROC field names (40_commands.md R154, R156, R170 to R172). -/
inductive SlotChange (old : HarqSlot) : Instr → HarqSlot → Prop
  | redeclared (proc : BitVec 4) (width : BitVec 7) : SlotChange old (.procConfig proc) { old with nprbDecl := width }
  | flushed (proc : BitVec 4) : SlotChange old (.procFlush proc) { old with init := false }
  | filled (proc : BitVec 4) (rv : BitVec 2) (mod : BitVec 2) (sf : BitVec 4) (dumpGrid dumpBits dumpHarq : Bool)
      (new : HarqSlot) (hinit : new.init = true) :
      SlotChange old (.puschTx proc rv true mod sf dumpGrid dumpBits dumpHarq) new
  | resent (proc : BitVec 4) (rv : BitVec 2) (mod : BitVec 2) (sf : BitVec 4) (dumpGrid dumpBits dumpHarq : Bool)
      (m : Modulation) (rbStart : BitVec 7) :
      SlotChange old (.puschTx proc rv false mod sf dumpGrid dumpBits dumpHarq)
        { old with rv := rv, mod := m, rbStart := rbStart }

theorem State.slot_setSlot_cases (s : State) {proc : BitVec 4} {p : Fin 8} (hp : procIndex proc = some p)
    (slot : HarqSlot) (q : Fin 8) :
    (s.setSlot p slot).slot q = s.slot q ∨ (q.val = proc.toNat ∧ q = p ∧ (s.setSlot p slot).slot q = slot) := by
  by_cases hq : q = p
  · exact .inr ⟨by rw [hq]; exact procIndex_eq_some_iff.1 hp, hq, by rw [hq, State.slot_setSlot]⟩
  · exact .inl (State.slot_setSlot_ne s slot hq)

theorem committedSlot_change (cmd : TxCommand) (regs : ArgRegs) (plan : TxPlan) (w : List (List Trit))
    (old : HarqSlot) :
    SlotChange old (.puschTx cmd.proc cmd.rv cmd.ndi cmd.mod cmd.sf cmd.dumpGrid cmd.dumpBits cmd.dumpHarq)
      (committedSlot cmd regs plan w old) := by
  unfold committedSlot
  cases cmd.ndi with
  | true => exact .filled _ _ _ _ _ _ _ _ rfl
  | false => exact .resent _ _ _ _ _ _ _ _ _

theorem puschPlan_proc {cmd : TxCommand} {s : State} {plan : TxPlan} (h : puschPlan cmd s = .ok plan) :
    procIndex cmd.proc = some plan.target.p := by
  obtain ⟨htarget, -⟩ := puschPlan_eq_ok h
  exact (puschTarget_eq_some_iff.1 htarget).1

/-- A successful command leaves a slot as it is, or names it and changes it in its own way. -/
theorem CommandEffect.slot_cases {i : Instr} {s u : State} (h : CommandEffect i s u) (q : Fin 8) :
    u.slot q = s.slot q ∨ (q.val = i.procBits.toNat ∧ SlotChange (s.slot q) i (u.slot q)) := by
  cases h with
  | nop | cellConfig => exact .inl rfl
  | procConfig _ proc p hp hs ha =>
    rcases s.slot_setSlot_cases hp { s.slot p with nprbDecl := nPrbOf s.inputs.regs.alloc } q with h | ⟨hq, rfl, h⟩
    · exact .inl h
    · rw [h]; exact .inr ⟨hq, .redeclared proc _⟩
  | procFlush _ proc p hp =>
    rcases s.slot_setSlot_cases hp { s.slot p with init := false } q with h | ⟨hq, rfl, h⟩
    · exact .inl h
    · rw [h]; exact .inr ⟨hq, .flushed proc⟩
  | puschTx _ cmd plan bits out hplan hbits hout =>
    by_cases hq : q = plan.target.p
    · subst hq
      rw [slot_commitTx]
      exact .inr ⟨procIndex_eq_some_iff.1 (puschPlan_proc hplan), committedSlot_change cmd _ plan _ _⟩
    · exact .inl (slot_commitTx_ne cmd plan out s hq)

/-- A command that completes leaves a slot as it is, or succeeds, names the slot and changes it in its own way. -/
theorem exec_slot_cases {i : Instr} {s t : State} (h : exec i s = .next t) (q : Fin 8) :
    t.slot q = s.slot q ∨ (q.val = i.procBits.toNat ∧ SlotChange (s.slot q) i (t.slot q) ∧
      t.pending = none ∧ t.status.err = .ok) := by
  rcases exec_cases h with ⟨code, -, rfl⟩ | ⟨u, he, rfl⟩
  · exact .inl rfl
  · rcases he.slot_cases q with h | ⟨hq, h⟩
    · exact .inl h
    · exact .inr ⟨hq, h, rfl, rfl⟩

/-- Settles O25: a command changes at most the slot it names, and NOP and CELL_CONFIG change none. -/
theorem otherSlotsUntouched : Obligations.OtherSlotsUntouched := by
  constructor
  · intro i s t q h hq
    rcases exec_slot_cases h q with hsame | ⟨hnamed, -⟩
    · exact hsame
    · exact absurd hnamed hq
  · intro i s t q hi h
    obtain ⟨-, -, -, -, -, -, hprocs⟩ := commandFrame i s t h
    exact State.slot_eq_of_procs (hprocs hi) q

/-! ## Which steps change a slot -/

/-- The pending command of this step succeeds on the slot and changes it. -/
def CommandChanges (s t : State) (p : Fin 8) : Prop :=
  ∃ w i, s.pending = some w ∧ decode w = .ok i ∧ p.val = i.procBits.toNat ∧ SlotChange (s.slot p) i (t.slot p) ∧
    t.pending = none ∧ t.status.err = .ok

theorem ptcTurn_slot_cases {s t : State} (h : ptcTurn s = .next t) (p : Fin 8) :
    t.slot p = s.slot p ∨ CommandChanges s t p := by
  rcases ptcTurn_cases h with ⟨-, rfl⟩ | ⟨w, i, hw, hi, hexec⟩ | ⟨w, e, -, -, rfl⟩
  · exact .inl rfl
  · rcases exec_slot_cases hexec p with h | ⟨hp, hchange, hpending, hok⟩
    · exact .inl h
    · exact .inr ⟨w, i, hw, hi, hp, hchange, hpending, hok⟩
  · exact .inl rfl

/-- A step leaves a slot as it is, completes a command that changes it, or is one of the two resets. -/
theorem step_slot_cases {s t : State} (h : step s = .next t) (p : Fin 8) :
    t.slot p = s.slot p ∨ CommandChanges s t p ∨
      ((t.slot p).init = false ∧ ((∃ rest, s.turns = .hardwareReset :: rest) ∨
        ∃ rest data, s.turns = .host (.write .w32 0x004 data) :: rest ∧ data.getLsbD 0 = true)) := by
  rcases step_cases h with ⟨-, hptc⟩ | ⟨turn, rest, hturns, hturn⟩
  · rcases ptcTurn_slot_cases hptc p with h | h
    · exact .inl h
    · exact .inr (.inl h)
  rcases hturn with ⟨-, hptc⟩ | ⟨rfl, rfl⟩ | ⟨access, rfl, hhost⟩
  · rcases ptcTurn_slot_cases hptc p with h | h
    · exact .inl h
    · exact .inr (.inl h)
  · exact .inr (.inr ⟨by rw [State.slot_hardwareReset]; exact init_slot_reset p, .inl ⟨rest, hturns⟩⟩)
  · rcases hostAccess_slots hhost with ⟨hprocs, -⟩ | ⟨rfl, data, rfl, hbit⟩
    · exact .inl (State.slot_eq_of_procs hprocs p)
    · exact .inr (.inr ⟨by rw [State.slot_softReset], .inr ⟨rest, data, hturns, hbit⟩⟩)

theorem completesOn_of_decode {s t : State} {p : Fin 8} {w : Word} {i : Instr} (hw : s.pending = some w)
    (hi : decode w = .ok i) (hp : p.val = i.procBits.toNat) (hpending : t.pending = none) (hok : t.status.err = .ok) :
    CompletesOn s t i.opcode p := by
  obtain ⟨hop, hproc⟩ := decode_fields hi
  exact ⟨w, hw, hop, by rw [hp, ← hproc]; rfl, hpending, hok⟩

/-- Settles O27: a command changes the slot in one of the four ways of `SlotChange`, and a reset leaves it
uninitialised. -/
theorem slotLifetime : Obligations.SlotLifetime := by
  intro s t p h
  have clash : ∀ {b : Bool}, b = false → b ≠ true := Bool.eq_false_iff.1
  rcases step_slot_cases h p with hsame | ⟨w, i, hw, hi, hp, hchange, hpending, hok⟩ | ⟨hinit, hreset⟩
  · rw [hsame]
    exact ⟨fun h0 h1 => absurd h1 (clash h0), fun h1 h0 => absurd h1 (clash h0),
      fun _ hne => absurd rfl hne, fun _ hne => absurd rfl hne⟩
  · have hcompletes := completesOn_of_decode hw hi hp hpending hok
    generalize t.slot p = new at hchange
    cases hchange with
    | redeclared proc width =>
      exact ⟨fun h0 h1 => absurd h1 (clash h0), fun h1 h0 => absurd h1 (clash h0),
        fun _ hne => absurd rfl hne, fun _ _ => .inr hcompletes⟩
    | flushed proc =>
      exact ⟨fun _ h1 => absurd h1 (clash rfl), fun _ _ => .inl hcompletes, fun h1 => absurd h1 (clash rfl),
        fun h1 => absurd h1 (clash rfl)⟩
    | filled proc rv mod sf dumpGrid dumpBits dumpHarq new hinit =>
      have hinitial : InitialTransmissionOn s t p := ⟨hcompletes, w, hw, decode_puschTx_ndi hi⟩
      exact ⟨fun _ _ => hinitial, fun _ h0 => absurd hinit (clash h0), fun _ _ => hinitial,
        fun _ _ => .inl hinitial⟩
    | resent proc rv mod sf dumpGrid dumpBits dumpHarq m rbStart =>
      exact ⟨fun h0 h1 => absurd h1 (clash h0), fun h1 h0 => absurd h1 (clash h0),
        fun _ hne => absurd rfl hne, fun _ hne => absurd rfl hne⟩
  · exact ⟨fun _ h1 => absurd h1 (clash hinit), fun _ _ => .inr hreset, fun h1 => absurd h1 (clash hinit),
      fun h1 => absurd h1 (clash hinit)⟩

end Sys2Proof.Machine
end

section
/-! PROOFS. The dump of the rate-matched bits (20_memory.md R81; 40_commands.md R175; 42_rate_matcher.md R252, R253):
the packing of bits into bytes, what the commit stores in BITS_MEM, and the length of f. -/

namespace Sys2Proof.Machine

/-! ## Bits packed into bytes (20_memory.md R81) -/

/-- Eight bits as a byte, the first most significant: bit j is bit 7 − j of the byte. -/
theorem getLsbD_packByte (bits : List Bool) {j : Nat} (hj : j < 8) :
    (packByte bits).getLsbD (7 - j) = bits.getD j false := by
  have hall : ∀ b0 b1 b2 b3 b4 b5 b6 b7 : Bool, ∀ j : Fin 8,
      (BitVec.ofNat 8 ([b0, b1, b2, b3, b4, b5, b6, b7].foldl (fun acc b => 2 * acc + b.toNat) 0)).getLsbD (7 - j) =
        [b0, b1, b2, b3, b4, b5, b6, b7].getD j false := by decide +kernel
  have hfold : packByte bits =
      BitVec.ofNat 8 (((List.range 8).map fun i => bits.getD i false).foldl (fun acc b => 2 * acc + b.toNat) 0) := by
    rw [packByte, List.foldl_map]
  rw [hfold]
  refine (hall _ _ _ _ _ _ _ _ ⟨j, hj⟩).trans ?_
  change ((List.range 8).map fun i => bits.getD i false).getD j false = _
  rw [List.getD_eq_getElem _ _ (by simpa using hj)]
  simp

@[simp] theorem length_packBytes (n : Nat) (bits : List Bool) : (packBytes n bits).length = n := by
  induction n generalizing bits with
  | zero => rfl
  | succ n ih => simp [packBytes, ih]

@[simp] theorem length_packBits (bits : List Bool) : (packBits bits).length = (bits.length + 7) / 8 :=
  length_packBytes _ _

theorem getD_packBytes {n k : Nat} (h : k < n) (bits : List Bool) :
    (packBytes n bits).getD k 0 = packByte (bits.drop (8 * k)) := by
  induction n generalizing k bits with
  | zero => omega
  | succ n ih =>
    cases k with
    | zero => rfl
    | succ k => rw [packBytes, List.getD_cons_succ, ih (by omega), List.drop_drop, Nat.mul_succ, Nat.add_comm 8]

/-- Bit i of a packed vector is its i-th bit, and 0 past its end in the last byte. -/
theorem getLsbD_packBits {bits : List Bool} {i : Nat} (h : i < 8 * ((bits.length + 7) / 8)) :
    ((packBits bits).getD (i / 8) 0).getLsbD (7 - i % 8) = bits.getD i false := by
  rw [packBits, getD_packBytes (by omega), getLsbD_packByte _ (Nat.mod_lt i (by decide)), List.getD_eq_getElem?_getD,
    List.getElem?_drop, Nat.div_add_mod, ← List.getD_eq_getElem?_getD]

/-- Every bit of a byte whose marks are all set can be read. -/
theorem Memory.bitAt_of_marked {m : Memory} {base i : Nat} (h : m.markAt (base + i / 8) = 0xFF) :
    m.bitAt base i = some ((m.byteAt (base + i / 8)).getLsbD (7 - i % 8)) := by
  have hall : ∀ j : Fin 8, (0xFF : Byte).getLsbD (7 - j) = true := by decide
  rw [Memory.bitAt, h]
  exact if_pos (hall ⟨i % 8, Nat.mod_lt i (by decide)⟩)

/-! ## What the commit stores in BITS_MEM -/

theorem Memory.reads_writeBytes_below (m : Memory) {base a : Nat} (h : a < base) (bs : List Byte) :
    (m.writeBytes base bs).byteAt a = m.byteAt a ∧ (m.writeBytes base bs).markAt a = m.markAt a := by
  rw [Memory.byteAt_writeBytes, Memory.markAt_writeBytes, if_neg (by omega), if_neg (by omega)]
  exact ⟨rfl, rfl⟩

theorem Memory.reads_writeBytes_if_below (m : Memory) (c : Bool) {base a : Nat} (h : a < base) (bs : List Byte) :
    (if c then m.writeBytes base bs else m).byteAt a = m.byteAt a ∧
      (if c then m.writeBytes base bs else m).markAt a = m.markAt a := by
  split
  · exact m.reads_writeBytes_below h bs
  · exact ⟨rfl, rfl⟩

/-- The later dumps lie above BITS_MEM, so its bytes are the packed f, every bit marked (40_commands.md R175). -/
theorem committedMem_bits {cmd : TxCommand} (hdump : cmd.dumpBits = true) (draw : Nat) (out : TxResult) (mem : Memory)
    {n : Nat} (hn : n < (packBits out.f).length) (hroom : BitMem.bits.base + n < harqBase) :
    (committedMem cmd draw out mem).byteAt (BitMem.bits.base + n) = (packBits out.f).getD n 0 ∧
      (committedMem cmd draw out mem).markAt (BitMem.bits.base + n) = 0xFF := by
  unfold committedMem
  simp only [hdump, if_true]
  generalize mem.writeBytes waveBase (samplesBytes out.waveEntries draw) = m
  have hgrid := Memory.reads_writeBytes_if_below
    (if cmd.dumpHarq then (m.writeBytes BitMem.bits.base (packBits out.f)).writeBytes harqBase out.harqBytes
      else m.writeBytes BitMem.bits.base (packBits out.f)) cmd.dumpGrid
    (Nat.lt_trans hroom (show harqBase < gridBase by decide)) (samplesBytes out.gridEntries (draw + out.wave.length))
  have hharq := Memory.reads_writeBytes_if_below (m.writeBytes BitMem.bits.base (packBits out.f)) cmd.dumpHarq hroom
    out.harqBytes
  rw [hgrid.1, hgrid.2, hharq.1, hharq.2, Memory.byteAt_writeBytes, Memory.markAt_writeBytes, if_pos (by omega),
    if_pos (by omega), Nat.add_sub_cancel_left]
  exact ⟨rfl, rfl⟩

/-! ## The length of f (R252, R253) -/

/-- The rate matcher gives exactly G bits of the buffers of a legal transport block (R249, R252). -/
theorem length_rateMatch_buffers {src : TxSource} {regs : ArgRegs} {cell : CellConfig} {m : Modulation}
    {w : List (List Trit)} {b : Nat} (h : BuffersOf src.seg w b) (rv : Nat) :
    (rateMatch w (txSizes src regs cell m).e rv).length = (txSizes src regs cell m).g := by
  have hblocks : w.length = src.seg.c := by
    have := congrArg List.length h.lengths
    simpa [Segmentation.blockSizes] using this
  have hc : 0 < src.seg.c := by rw [h.seg_eq]; exact segmentation_c_pos b
  rw [length_rateMatch h.bits _ _ (by rw [hblocks]; exact (length_blockLengths _ _ _).symm)]
  exact sum_blockLengths _ m.order_pos hc

/-- Settles O23: f has G bits, and the commit packs it into BITS_MEM. -/
theorem rateMatchedBitsDump : Obligations.RateMatchedBitsDump := by
  intro s t cmd hlegal hfit hdump hrun hok
  rcases runPuschTx_cases cmd s with ⟨code, hcode, e⟩ | e | ⟨plan, bits, out, hplan, hbits, hout, e⟩
  all_goals rw [e] at hrun; cases hrun
  · exact absurd hok hcode
  obtain ⟨b, hbuf⟩ := puschTx_buffers hlegal hfit hplan hbits
  obtain ⟨-, -, hsizes, -⟩ := puschPlan_eq_ok hplan
  obtain ⟨-, hf, -⟩ := txPipeline_eq_ok hout
  have hg := puschPlan_g_lt hplan
  have hlen : out.f.length = plan.sizes.g := by
    rw [hf, hsizes]
    exact length_rateMatch_buffers hbuf _
  have hbyte : ∀ i, i < 8 * ((plan.sizes.g + 7) / 8) →
      (committedMem cmd s.draws out s.mem).byteAt (0x40000 + i / 8) = (packBits out.f).getD (i / 8) 0 ∧
        (committedMem cmd s.draws out s.mem).markAt (0x40000 + i / 8) = 0xFF := by
    intro i hi
    refine committedMem_bits hdump s.draws out s.mem (by rw [length_packBits, hlen]; omega) ?_
    simp only [BitMem.base, harqBase]
    omega
  have hbit : ∀ i, i < 8 * ((plan.sizes.g + 7) / 8) →
      ((committedMem cmd s.draws out s.mem).byteAt (0x40000 + i / 8)).getLsbD (7 - i % 8) = out.f.getD i false := by
    intro i hi
    rw [(hbyte i hi).1, getLsbD_packBits (by rwa [hlen])]
  refine ⟨plan, bits, out.f, hplan, hbits, hf, hlen, ?_, ?_, ?_⟩
  · simp only [State.complete_lens, commitTx_lens, committedLens, hdump, if_true, BitVec.toNat_ofNat]
    exact Nat.mod_eq_of_lt (by omega)
  · intro i b hi
    have hi' : i < out.f.length := (List.getElem?_eq_some_iff.1 hi).1
    have hin : i < 8 * ((plan.sizes.g + 7) / 8) := by omega
    rw [State.complete_mem, commitTx_mem, Memory.bitAt_of_marked (hbyte i hin).2, hbit i hin,
      List.getD_eq_getElem?_getD, hi, Option.getD_some]
  · intro i hpast hi
    rw [State.complete_mem, commitTx_mem, hbit i hi, List.getD_eq_default _ _ (by omega)]

end Sys2Proof.Machine
end

section
/-! PROOFS. Register accesses of the host: the argument registers, ID, CTRL, STATUS, CMD and the length registers
(10_state.md R32 to R48). -/

namespace Sys2Proof.Machine

/-! ## A word access of the register file (20_memory.md R86) -/

theorem accessLegal_register {offset : Word} (hreg : offset.toNat < 0x1000) (halign : offset.toNat % 4 = 0) :
    accessLegal .w32 offset = true := by
  simp [accessLegal, hreg, halign]

theorem hostAccess_writeReg {offset : Word} (hreg : offset.toNat < 0x1000) (halign : offset.toNat % 4 = 0)
    (data : Word) (s : State) :
    hostAccess (.write .w32 offset data) s = .next (s.writeReg offset.toNat data) := by
  rw [hostAccess, if_pos (accessLegal_register hreg halign), if_pos hreg]

theorem hostAccess_readReg {offset : Word} (hreg : offset.toNat < 0x1000) (halign : offset.toNat % 4 = 0) (s : State) :
    hostAccess (.read .w32 offset) s = .next (s.readReg offset.toNat) := by
  rw [hostAccess, if_pos (accessLegal_register hreg halign), if_pos hreg]

theorem State.readReg_plain (s : State) {offset : Nat} (h : lenRegAt s.lens offset = none) :
    s.readReg offset = s.withRead .w32 (s.plainReg offset) 0xFFFFFFFF := by
  rw [State.readReg, h]

/-- With nothing pending a length register reads its value (20_memory.md R93 speaks of BUSY only). -/
theorem State.readReg_length (s : State) {offset : Nat} {len mask : Word}
    (h : lenRegAt s.lens offset = some (len, mask)) (hpending : s.pending = none) :
    s.readReg offset = s.withRead .w32 len 0xFFFFFFFF := by
  have hbusy : s.busy = false := by rw [State.busy, hpending]; rfl
  simp [State.readReg, h, hbusy]

/-! ## Argument registers -/

theorem argRegAt_offset (r : ArgReg) : argRegAt r.offset = some r := by cases r <;> rfl

theorem ArgReg.offset_bounds (r : ArgReg) : 0x010 ≤ r.offset ∧ r.offset ≤ 0x030 ∧ r.offset % 4 = 0 := by
  cases r <;> decide

theorem ArgReg.toNat_offset (r : ArgReg) : (BitVec.ofNat 32 r.offset).toNat = r.offset := by cases r <;> rfl

theorem State.writeReg_offset (s : State) (r : ArgReg) (data : Word) :
    s.writeReg r.offset data = s.writeArg r data := by
  obtain ⟨hlow, -, -⟩ := r.offset_bounds
  simp only [State.writeReg, argRegAt_offset, show r.offset ≠ 0x004 by omega, show r.offset ≠ 0x008 by omega,
    show r.offset ≠ 0x00C by omega, if_false]

theorem hostAccess_writeArg (s : State) (r : ArgReg) (data : Word) :
    hostAccess (.write .w32 (BitVec.ofNat 32 r.offset) data) s = .next (s.writeArg r data) := by
  obtain ⟨-, hhigh, halign⟩ := r.offset_bounds
  have h := hostAccess_writeReg (offset := BitVec.ofNat 32 r.offset) (by rw [r.toNat_offset]; omega)
    (by rw [r.toNat_offset]; exact halign) data s
  rwa [r.toNat_offset, State.writeReg_offset] at h

theorem State.readReg_offset (s : State) (r : ArgReg) :
    s.readReg r.offset = s.withRead .w32 (s.regs.get r) 0xFFFFFFFF := by
  have hlen : lenRegAt s.lens r.offset = none := by cases r <;> rfl
  have hplain : s.plainReg r.offset = s.regs.get r := by cases r <;> rfl
  rw [s.readReg_plain hlen, hplain]

theorem hostAccess_readArg (s : State) (r : ArgReg) :
    hostAccess (.read .w32 (BitVec.ofNat 32 r.offset)) s = .next (s.withRead .w32 (s.regs.get r) 0xFFFFFFFF) := by
  obtain ⟨-, hhigh, halign⟩ := r.offset_bounds
  have h := hostAccess_readReg (offset := BitVec.ofNat 32 r.offset) (by rw [r.toNat_offset]; omega)
    (by rw [r.toNat_offset]; exact halign) s
  rwa [r.toNat_offset, State.readReg_offset] at h

@[simp] theorem State.writeArg_regs (s : State) (r : ArgReg) (data : Word) :
    (s.writeArg r data).regs = s.regs.write r data := by
  unfold State.writeArg
  simp only
  split <;> rfl

/-- With nothing pending a write of an argument register races with no command. -/
theorem State.writeArg_idle (s : State) (r : ArgReg) (data : Word) (h : s.pending = none) :
    s.writeArg r data = { s with regs := s.regs.write r data } := by
  have hbusy : s.busy = false := by rw [State.busy, h]; rfl
  simp only [State.writeArg, hbusy, Bool.false_eq_true, if_false]

theorem argReg_write_read (s : State) (r : ArgReg) (data : Word) :
    (∃ t, hostAccess (.write .w32 (BitVec.ofNat 32 r.offset) data) s = .next t ∧
      t.regs.get r = data &&& r.mask ∧ (∀ q, q ≠ r → t.regs.get q = s.regs.get q) ∧
      (s.pending = none → t = { s with regs := t.regs })) ∧
    hostAccess (.read .w32 (BitVec.ofNat 32 r.offset)) s =
      .next { s with readData := some { width := .w32, value := s.regs.get r, written := 0xFFFFFFFF } } := by
  refine ⟨⟨s.writeArg r data, hostAccess_writeArg s r data, ?_, fun q hq => ?_, fun h => ?_⟩, hostAccess_readArg s r⟩
  · rw [State.writeArg_regs, ArgRegs.get_write]
  · rw [State.writeArg_regs, ArgRegs.get_write_ne _ _ hq]
  · rw [State.writeArg_idle s r data h]

/-- Settles O56: the rows of 10_state.md R32 are the model's offsets and masks. -/
theorem argumentRegisters : Obligations.ArgumentRegisters := by
  intro r row s data
  have hrow : row = (r.offset, r.mask) := by cases r <;> rfl
  rw [hrow]
  exact argReg_write_read s r data

/-! ## STATUS (10_state.md R35) -/

theorem State.getLsbD_statusWord (s : State) :
    s.statusWord.getLsbD 0 = s.pending.isSome ∧ s.statusWord.getLsbD 1 = s.cell.configured ∧
      s.statusWord.getLsbD 2 = s.status.cmdDropped ∧ s.statusWord.getLsbD 3 = false := by
  refine ⟨?_, ?_, ?_, ?_⟩ <;> simp only [State.statusWord, BitVec.getLsbD_append] <;> simp [State.busy]

theorem State.extractLsb'_statusWord (s : State) :
    s.statusWord.extractLsb' 4 4 = s.status.err.code ∧ s.statusWord.extractLsb' 8 8 = s.status.lastOp ∧
      s.statusWord.extractLsb' 16 4 = s.status.lastProc ∧ s.statusWord.extractLsb' 20 12 = 0 := by
  refine ⟨?_, ?_, ?_, ?_⟩ <;>
    simp (disch := decide) only [State.statusWord, BitVec.extractLsb'_append_eq_of_le, Nat.reduceSub,
      BitVec.extractLsb'_append_eq_right, BitVec.extractLsb'_eq_self]

theorem ErrCode.toNat_code (code : ErrCode) :
    code.code.toNat =
      (match code with
        | .ok => 0 | .invalidConfiguration => 1 | .processNotInitialized => 2 | .allocationTooSmall => 3
        | .allocationMismatch => 4 | .controlOverflow => 5 | .invalidBitLength => 6) := by
  cases code <;> rfl

theorem State.writeReg_status (s : State) (data : Word) :
    s.writeReg 0x008 data =
      { s with status := { s.status with cmdDropped := s.status.cmdDropped && !data.getLsbD 2 } } := by
  cases hd : data.getLsbD 2 <;>
    simp only [State.writeReg, hd, Nat.reduceEqDiff, if_false, if_true, Bool.false_eq_true, Bool.not_true,
      Bool.not_false, Bool.and_false, Bool.and_true]

/-- ID reads PTC_ID and ignores writes (10_state.md R33). -/
theorem hostAccess_id (s : State) (data : Word) :
    (∃ t r, hostAccess (.read .w32 0x000) s = .next t ∧ t.readData = some r ∧ r.value = Config.ptcId) ∧
      hostAccess (.write .w32 0x000 data) s = .next s :=
  ⟨⟨_, _, hostAccess_readReg (by decide) (by decide) s, rfl, rfl⟩, hostAccess_writeReg (by decide) (by decide) data s⟩

/-- The write-only registers CTRL and CMD read 0 (10_state.md R34, R37). -/
theorem hostAccess_read_writeOnly (s : State) {offset : Word} (h : offset ∈ ([0x004, 0x00C] : List Word)) :
    hostAccess (.read .w32 offset) s = .next (s.withRead .w32 0 0xFFFFFFFF) := by
  simp only [List.mem_cons, List.not_mem_nil, or_false] at h
  rcases h with rfl | rfl <;> exact hostAccess_readReg (by decide) (by decide) s

/-- The length registers at their offsets. -/
theorem hostAccess_length (s : State) (data : Word) {offset len : Word}
    (h : (offset, len) ∈
      [((0x034 : Word), s.lens.wave), (0x038, s.lens.bits), (0x03C, s.lens.harq), (0x040, s.lens.grid)]) :
    hostAccess (.write .w32 offset data) s = .next s ∧
      (s.pending = none → hostAccess (.read .w32 offset) s = .next (s.withRead .w32 len 0xFFFFFFFF)) := by
  simp only [List.mem_cons, List.not_mem_nil, or_false, Prod.mk.injEq] at h
  rcases h with ⟨rfl, rfl⟩ | ⟨rfl, rfl⟩ | ⟨rfl, rfl⟩ | ⟨rfl, rfl⟩ <;>
    refine ⟨hostAccess_writeReg (by decide) (by decide) data s, fun hpending => ?_⟩ <;>
    rw [hostAccess_readReg (by decide) (by decide)] <;>
    exact congrArg _ (s.readReg_length rfl hpending)

/-- Settles O50: the reads and writes of each register, with the fields of STATUS where R35 puts them. -/
theorem identityAndStatus : Obligations.IdentityAndStatus := by
  intro s data
  obtain ⟨hread, hwrite⟩ := hostAccess_id s data
  obtain ⟨hbusy, hconfigured, hdropped, hreserved⟩ := s.getLsbD_statusWord
  obtain ⟨herr, hop, hproc, hzero⟩ := s.extractLsb'_statusWord
  refine ⟨hread, hwrite, ⟨_, _, hostAccess_readReg (by decide) (by decide) s, rfl, hbusy, hconfigured, hdropped,
    hreserved, ?_, hop, hproc, hzero⟩, ?_, fun offset h => hostAccess_read_writeOnly s h,
    fun row h => hostAccess_length s data h⟩
  · exact (congrArg BitVec.toNat herr).trans (ErrCode.toNat_code _)
  · rw [hostAccess_writeReg (by decide) (by decide)]
    exact congrArg _ (s.writeReg_status data)

end Sys2Proof.Machine
end

section
/-! PROOFS. The commands' order and words: the CMD latch, the step that runs a pending command, and the stop of a
PUSCH_TX at an input bit never written (20_memory.md R90, R91, R99; 30_encoding.md R115; 70_reset_and_hazards.md
R444). -/

namespace Sys2Proof.Machine

/-! ## The CMD latch (20_memory.md R91) -/

theorem hostAccess_writeCmd (s : State) (w : Word) :
    hostAccess (.write .w32 0x00C w) s = .next (s.writeCmd w) :=
  hostAccess_writeReg (by decide) (by decide) w s

theorem State.writeCmd_idle {s : State} (h : s.pending = none) (w : Word) :
    s.writeCmd w = { s with pending := some w, raced := none } := by
  have hbusy : s.busy = false := by rw [State.busy, h]; rfl
  simp only [State.writeCmd, hbusy, Bool.false_eq_true, if_false]

theorem State.writeCmd_busy {s : State} {held : Word} (h : s.pending = some held) (w : Word) :
    s.writeCmd w = { s with status := { s.status with cmdDropped := true } } := by
  have hbusy : s.busy = true := by rw [State.busy, h]; rfl
  simp only [State.writeCmd, hbusy, if_true]

/-- Settles O51: the latch with PENDING EMPTY, and the drop otherwise. -/
theorem commandWrite : Obligations.CommandWrite := by
  intro s w
  rw [hostAccess_writeCmd]
  refine ⟨fun h => by rw [State.writeCmd_idle h], fun h t ht => ?_, fun held h => by rw [State.writeCmd_busy h]⟩
  rw [State.writeCmd_idle h] at ht
  cases ht
  rw [(State.getLsbD_statusWord _).1]
  rfl

/-! ## A step runs the pending command (20_memory.md R90) -/

theorem ptcTurn_of_decode {s : State} {w : Word} {i : Instr} (hp : s.pending = some w) (hi : decode w = .ok i) :
    ptcTurn s = exec i s := by
  simp only [ptcTurn, hp, hi]

theorem step_of_no_turn {s : State} (h : s.turns = []) : step s = ptcTurn s := by
  simp only [step, h]

theorem step_of_turn {s : State} {turn : Turn} {rest : List Turn} (h : s.turns = turn :: rest) :
    step s = takeTurn turn { s with turns := rest } := by
  simp only [step, h]

/-- Settles O6: the PTC's turn comes, by its place in the schedule or with no turn left, and runs the decoded word. -/
theorem stepRunsDecoded : Obligations.StepRunsDecoded := by
  intro s w i hi _
  refine ⟨fun hp ht => ?_, fun rest hp ht => ?_, ?_⟩
  · rw [step_of_no_turn ht, ptcTurn_of_decode hp hi]
  · rw [step_of_turn ht]
    exact ptcTurn_of_decode (s := { s with turns := rest }) hp hi
  · have hword : BitVec.ofNat 32 (w.toNat % 2 ^ 32) = w := by
      rw [Nat.mod_eq_of_lt w.isLt, BitVec.ofNat_toNat, BitVec.setWidth_eq]
    rw [step_of_no_turn rfl]
    exact ptcTurn_of_decode (congrArg some hword) hi

/-! ## Legal operands are admitted (30_encoding.md R121; 40_commands.md R159) -/

theorem stripFactor_pow_mul {p m : Nat} (hp : 0 < p) (hm : ¬ p ∣ m) {fuel a : Nat} (h : a ≤ fuel) :
    stripFactor p fuel (p ^ a * m) = m := by
  induction fuel generalizing a with
  | zero =>
    obtain rfl : a = 0 := by omega
    simp [stripFactor]
  | succ fuel ih =>
    cases a with
    | zero => simp [stripFactor, ← Nat.dvd_iff_mod_eq_zero, hm]
    | succ a =>
      have hfactor : p ^ (a + 1) * m = p * (p ^ a * m) := by ring
      rw [hfactor, stripFactor, if_pos (Nat.mul_mod_right _ _), Nat.mul_div_cancel_left _ hp, ih (by omega)]

/-- The exponents of a 7-bit number stay below the fuel of `isSmooth`. -/
theorem exponent_le_of_dvd {p a n : Nat} (hp : 2 ≤ p) (hn : 1 ≤ n) (hlt : n < 2 ^ 7) (h : p ^ a ∣ n) : a ≤ 7 := by
  by_contra hc
  have hle : 2 ^ 7 ≤ p ^ a := calc
    2 ^ 7 ≤ 2 ^ a := Nat.pow_le_pow_right (by decide) (by omega)
    _ ≤ p ^ a := Nat.pow_le_pow_left hp a
  have := Nat.le_of_dvd hn h
  omega

/-- The test of R121 accepts every product of powers of 2, 3 and 5 that ALLOC can hold. -/
theorem isSmooth_of_factors {n a2 a3 a5 : Nat} (hn : 1 ≤ n) (hlt : n < 2 ^ 7) (h : n = 2 ^ a2 * 3 ^ a3 * 5 ^ a5) :
    isSmooth n = true := by
  have h2 : a2 ≤ 7 := exponent_le_of_dvd (p := 2) (by decide) hn hlt (h ▸ Dvd.intro _ (Nat.mul_assoc _ _ _).symm)
  have h3 : a3 ≤ 7 := exponent_le_of_dvd (p := 3) (by decide) hn hlt
    (h ▸ Dvd.dvd.mul_right (Nat.dvd_mul_left _ _) _)
  have h5 : a5 ≤ 7 := exponent_le_of_dvd (p := 5) (by decide) hn hlt (h ▸ Nat.dvd_mul_left _ _)
  have hodd : ¬ 2 ∣ 3 ^ a3 * 5 ^ a5 := by
    rw [← Nat.Prime.coprime_iff_not_dvd Nat.prime_two]
    exact Nat.Coprime.mul_right (Nat.Coprime.pow_right _ (by decide)) (Nat.Coprime.pow_right _ (by decide))
  have hthree : ¬ 3 ∣ 5 ^ a5 := by
    rw [← Nat.Prime.coprime_iff_not_dvd Nat.prime_three]
    exact Nat.Coprime.pow_right _ (by decide)
  have hfive : stripFactor 5 7 (5 ^ a5) = 1 := by
    have := stripFactor_pow_mul (p := 5) (m := 1) (by decide) (by decide) h5
    rwa [Nat.mul_one] at this
  rw [isSmooth, h, Nat.mul_assoc, stripFactor_pow_mul (by decide) hodd h2, stripFactor_pow_mul (by decide) hthree h3,
    hfive]
  rfl

theorem legalAlloc_of_allocLegal {alloc : Word} {cell : CellConfig} (h : AllocLegal alloc cell) :
    legalAlloc alloc cell = true := by
  obtain ⟨hpos, hfit, a2, a3, a5, hfactors⟩ := h
  simp only [legalAlloc, Bool.and_eq_true, decide_eq_true_eq]
  exact ⟨⟨hpos, hfit⟩, isSmooth_of_factors hpos (nPrbOf alloc).isLt hfactors⟩

/-- Operands that meet R159 name their slot and modulation. -/
theorem State.TxLegal.puschTarget_eq_some {s : State} {cmd : TxCommand} (h : s.TxLegal cmd.proc cmd.ndi cmd.mod cmd.sf)
    {p : Fin 8} {m : Modulation} (hp : p.val = cmd.proc.toNat) (hm : modulationOf cmd.mod = some m) :
    puschTarget cmd s.inputs.regs s.cell = some ⟨p, m⟩ := by
  rw [puschTarget_eq_some_iff]
  refine ⟨procIndex_eq_some_iff.2 hp, hm, h.sf, h.cell, legalAlloc_of_allocLegal h.alloc, ?_, fun hn => ?_⟩
  · simpa [legalUciLen, Config.maxCqiBits, Config.maxRiBits, Config.maxAckBits, and_assoc] using h.uci
  · simpa [legalTbSize, Config.maxTbSize, and_assoc] using h.tb hn

/-- The checks before stage 1 let such a command pass, where a retransmission finds its slot (R163, R164). -/
theorem State.TxLegal.puschAdmit_eq_ok {s : State} {cmd : TxCommand} (h : s.TxLegal cmd.proc cmd.ndi cmd.mod cmd.sf)
    {p : Fin 8} {m : Modulation} (hp : p.val = cmd.proc.toNat) (hm : modulationOf cmd.mod = some m)
    (hslot : cmd.ndi = false → (s.slot p).init = true ∧ nPrbOf s.inputs.regs.alloc = (s.slot p).nprbDecl) :
    puschAdmit cmd s = .ok ⟨p, m⟩ := by
  rw [puschAdmit, h.puschTarget_eq_some hp hm]
  cases hn : cmd.ndi with
  | true => simp
  | false =>
    obtain ⟨hinit, hwidth⟩ := hslot hn
    simp [hinit, hwidth]

/-- The sizing step lets a command pass whose budgets and data fit (R166, R167). -/
theorem puschSizing_of_fits {s : State} {cmd : TxCommand} {p : Fin 8} {m : Modulation}
    (hcontrol : s.ControlFits p cmd.ndi m) (hdata : s.DataFits p cmd.ndi m) :
    puschSizing cmd s ⟨p, m⟩ =
      .ok { target := ⟨p, m⟩, src := s.sourceOf p cmd.ndi, sizes := s.sizesOf p cmd.ndi m } := by
  have hroom : tooSmall (s.sourceOf p cmd.ndi).seg (s.sizesOf p cmd.ndi m).e = false := by
    simpa [tooSmall, State.DataFits] using hdata
  exact (if_neg (Nat.not_lt.2 hcontrol)).trans (if_neg (Bool.eq_false_iff.1 hroom))

/-! ## Input bits never written (20_memory.md R99, 70_reset_and_hazards.md R444) -/

theorem Memory.readBits_eq_none {m : Memory} {bm : BitMem} {n : Nat} (h : ¬ m.written bm n) :
    m.readBits bm n = none := by
  rw [← Memory.readBits_isSome_iff] at h
  exact Option.eq_none_iff_forall_ne_some.2 fun bs hbs => h ⟨bs, hbs⟩

theorem readPayload_eq_none {s : State} {ndi : Bool} (h : ¬ s.PayloadWritten ndi) :
    readPayload ndi s.inputs = none := by
  obtain ⟨rfl, hbits⟩ := Classical.not_imp.1 h
  exact Memory.readBits_eq_none hbits

theorem readTxBits_eq_none {s : State} {ndi : Bool} (h : ¬ s.InputsWritten ndi) : readTxBits ndi s.inputs = none := by
  refine Option.eq_none_iff_forall_ne_some.2 fun bits hbits => h ?_
  obtain ⟨htb, hcqi, hri, hack⟩ := readTxBits_eq_some hbits
  refine ⟨?_, (Memory.readBits_isSome_iff _ _ _).1 ⟨_, hcqi⟩, (Memory.readBits_isSome_iff _ _ _).1 ⟨_, hri⟩,
    (Memory.readBits_isSome_iff _ _ _).1 ⟨_, hack⟩⟩
  rintro rfl
  exact (Memory.readBits_isSome_iff _ _ _).1 ⟨_, htb⟩

/-- An admitted command without its payload stops, before the sizing step (log 10). -/
theorem runPuschTx_of_payload_none {cmd : TxCommand} {s : State} {target : TxTarget}
    (ha : puschAdmit cmd s = .ok target) (hb : readPayload cmd.ndi s.inputs = none) :
    runPuschTx cmd s = .fault .neverWrittenInput := by
  simp only [runPuschTx, ha, hb]

/-- A command that passes every check and lacks a bit it reads stops. -/
theorem runPuschTx_of_bits_none {cmd : TxCommand} {s : State} {plan : TxPlan} (hplan : puschPlan cmd s = .ok plan)
    (hbits : readTxBits cmd.ndi s.inputs = none) : runPuschTx cmd s = .fault .neverWrittenInput := by
  unfold puschPlan at hplan
  split at hplan
  · cases hplan
  rename_i target ha
  unfold readTxBits at hbits
  split at hbits
  next tb hb => simp only [runPuschTx, ha, hb, hplan, hbits]
  next hb => exact runPuschTx_of_payload_none ha hb

/-- Settles O20: the payload is read right after the first checks, and the UCI bits after the last. -/
theorem unwrittenInputFaults : Obligations.UnwrittenInputFaults := by
  intro s proc rv ndi mod sf dg db dh p m hp hm hlegal hslot
  have hadmit : puschAdmit ⟨proc, rv, ndi, mod, sf, dg, db, dh⟩ s = .ok ⟨p, m⟩ := hlegal.puschAdmit_eq_ok hp hm hslot
  refine ⟨fun hpayload => runPuschTx_of_payload_none hadmit (readPayload_eq_none hpayload),
    fun hcontrol hdata hinputs => ?_⟩
  refine runPuschTx_of_bits_none (plan := ⟨⟨p, m⟩, s.sourceOf p ndi, s.sizesOf p ndi m⟩) ?_
    (readTxBits_eq_none hinputs)
  rw [puschPlan, hadmit]
  exact puschSizing_of_fits hcontrol hdata

end Sys2Proof.Machine
end

section
/-! PROOFS. Host accesses of the data memories: which accesses are legal, what a masked write leaves in each byte and
bit, what a read finds, and who may change an output memory (20_memory.md R81, R84 to R86, R89, R93; 30_encoding.md
R131). -/

namespace Sys2Proof.Machine

/-! ## Regions and legal accesses (20_memory.md R80, R86) -/

theorem within_iff {base size a : Nat} : within base size a = true ↔ base ≤ a ∧ a < base + size := by
  simp [within]

theorem regionOf_eq_input_iff {a : Nat} : regionOf a = .input ↔ inputByte a := by
  unfold regionOf inputByte
  simp only [Bool.or_eq_true, BitMem.holds, within_iff, BitMem.base, BitMem.size]
  split
  · simp only [reduceCtorEq, false_iff]
    omega
  · split
    · simp only [true_iff]
      omega
    · split <;> simp only [reduceCtorEq, false_iff] <;> omega

theorem regionOf_eq_output_iff {a : Nat} : regionOf a = .output ↔ outputByte a := by
  unfold regionOf outputByte
  simp only [Bool.or_eq_true, BitMem.holds, within_iff, BitMem.base, BitMem.size, harqBase, harqSize, gridBase, gridSize,
    waveBase, waveSize]
  split
  · simp only [reduceCtorEq, false_iff]
    omega
  · split
    · simp only [reduceCtorEq, false_iff]
      omega
    · split
      · simp only [true_iff]
        omega
      · simp only [reduceCtorEq, false_iff]
        omega

theorem outputByte_not_input {a : Nat} (h : outputByte a) : ¬ inputByte a := by
  rw [← regionOf_eq_input_iff, regionOf_eq_output_iff.2 h]
  decide

theorem not_register_of_inputByte {a : Nat} (h : inputByte a) : ¬ a < 0x1000 := by
  unfold inputByte at h
  omega

theorem not_register_of_outputByte {a : Nat} (h : outputByte a) : ¬ a < 0x1000 := by
  unfold outputByte at h
  omega

theorem Width.bytes_pos (width : Width) : 0 < width.bytes := by cases width <;> decide

theorem accessLegal_iff (width : Width) (offset : Word) :
    accessLegal width offset = true ↔
      if offset.toNat < 0x1000 then width = .w32 ∧ offset.toNat % 4 = 0 else offset.toNat % width.bytes = 0 := by
  unfold accessLegal
  split <;> simp

theorem accessLegal_memory {width : Width} {offset : Word} (hmem : ¬ offset.toNat < 0x1000)
    (halign : offset.toNat % width.bytes = 0) : accessLegal width offset = true := by
  rw [accessLegal_iff, if_neg hmem]
  exact halign

theorem hostAccess_writeMem {width : Width} {offset : Word} (hmem : ¬ offset.toNat < 0x1000)
    (halign : offset.toNat % width.bytes = 0) (data : Word) (s : State) :
    hostAccess (.write width offset data) s = .next (s.storeMasked offset.toNat (dataBytes width data)) := by
  rw [hostAccess, if_pos (accessLegal_memory hmem halign), if_neg hmem]

theorem hostAccess_readMem {width : Width} {offset : Word} (hmem : ¬ offset.toNat < 0x1000)
    (halign : offset.toNat % width.bytes = 0) (s : State) :
    hostAccess (.read width offset) s = s.readMem width offset.toNat := by
  rw [hostAccess, if_pos (accessLegal_memory hmem halign), if_neg hmem]

theorem hostAccess_illegal {width : Width} {offset : Word} (h : ¬ accessLegal width offset = true) (data : Word)
    (s : State) :
    hostAccess (.read width offset) s = .fault .hostAccess ∧
      hostAccess (.write width offset data) s = .fault .hostAccess := by
  rw [hostAccess, hostAccess, if_neg h, if_neg h]
  exact ⟨rfl, rfl⟩

/-! ## Masked bytes -/

theorem merge_mask_zero (old new : Byte) : (old &&& ~~~(0 : Byte)) ||| (new &&& 0) = old := by
  change (old &&& ~~~(0#8)) ||| (new &&& 0#8) = old
  rw [BitVec.not_zero, BitVec.and_allOnes, BitVec.and_zero, BitVec.or_zero]

theorem merge_mask_full (old new : Byte) : (old &&& ~~~(0xFF : Byte)) ||| (new &&& 0xFF) = new := by
  change (old &&& ~~~(BitVec.allOnes 8)) ||| (new &&& BitVec.allOnes 8) = new
  rw [BitVec.not_allOnes, BitVec.and_allOnes, BitVec.and_zero, BitVec.zero_or]

/-- What a masked write of `vks` from `base` on brings to the byte at `a`: the value and the mask, which is 0 outside the
run. -/
def maskedAt (base : Nat) (vks : List (Byte × Byte)) (a : Nat) : Byte × Byte :=
  if base ≤ a then vks.getD (a - base) (0, 0) else (0, 0)

theorem maskedAt_add (base : Nat) (vks : List (Byte × Byte)) (i : Nat) :
    maskedAt base vks (base + i) = vks.getD i (0, 0) := by
  rw [maskedAt, if_pos (Nat.le_add_right _ _), Nat.add_sub_cancel_left]

theorem maskedAt_outside {base a : Nat} {vks : List (Byte × Byte)} (h : a < base ∨ base + vks.length ≤ a) :
    maskedAt base vks a = (0, 0) := by
  unfold maskedAt
  split
  · exact List.getD_eq_default _ _ (by omega)
  · rfl

theorem Memory.byteAt_writeMasked_eq (m : Memory) (base : Nat) (vks : List (Byte × Byte)) (a : Nat) :
    (m.writeMasked base vks).byteAt a =
      (m.byteAt a &&& ~~~ (maskedAt base vks a).2) ||| ((maskedAt base vks a).1 &&& (maskedAt base vks a).2) := by
  rw [Memory.byteAt_writeMasked]
  split
  · rename_i h
    rw [maskedAt, if_pos h.1]
  · rw [maskedAt_outside (by omega), merge_mask_zero]

theorem Memory.markAt_writeMasked_eq (m : Memory) (base : Nat) (vks : List (Byte × Byte)) (a : Nat) :
    (m.writeMasked base vks).markAt a = m.markAt a ||| (maskedAt base vks a).2 := by
  rw [Memory.markAt_writeMasked]
  split
  · rename_i h
    rw [maskedAt, if_pos h.1]
  · rw [maskedAt_outside (by omega)]
    simp

/-- A byte that no mask bit reaches keeps value and marks. -/
theorem Memory.reads_writeMasked_of_mask_zero {m : Memory} {base a : Nat} {vks : List (Byte × Byte)}
    (h : (maskedAt base vks a).2 = 0) :
    (m.writeMasked base vks).byteAt a = m.byteAt a ∧ (m.writeMasked base vks).markAt a = m.markAt a := by
  rw [Memory.byteAt_writeMasked_eq, Memory.markAt_writeMasked_eq, h, merge_mask_zero]
  exact ⟨rfl, BitVec.or_zero⟩

/-- A masked bit takes the written value and is marked. -/
theorem Memory.bit_writeMasked_of_mask {m : Memory} {base a j : Nat} {vks : List (Byte × Byte)}
    (h : (maskedAt base vks a).2.getLsbD j = true) :
    ((m.writeMasked base vks).byteAt a).getLsbD j = (maskedAt base vks a).1.getLsbD j ∧
      ((m.writeMasked base vks).markAt a).getLsbD j = true := by
  rw [Memory.byteAt_writeMasked_eq, Memory.markAt_writeMasked_eq]
  simp [h]

/-- A bit outside the mask keeps value and mark. -/
theorem Memory.bit_writeMasked_of_not_mask {m : Memory} {base a j : Nat} {vks : List (Byte × Byte)}
    (h : (maskedAt base vks a).2.getLsbD j = false) :
    ((m.writeMasked base vks).byteAt a).getLsbD j = (m.byteAt a).getLsbD j ∧
      ((m.writeMasked base vks).markAt a).getLsbD j = (m.markAt a).getLsbD j := by
  rw [Memory.byteAt_writeMasked_eq, Memory.markAt_writeMasked_eq]
  simp only [BitVec.getLsbD_or, BitVec.getLsbD_and, BitVec.getLsbD_not, h, Bool.not_false, Bool.and_true, Bool.and_false,
    Bool.or_false, and_true]
  by_cases hj : j < 8
  · simp [hj]
  · simp [BitVec.getLsbD_of_ge _ j (Nat.not_lt.1 hj)]

@[simp] theorem length_writableMasks (a : Nat) (vks : List (Byte × Byte)) :
    (writableMasks a vks).length = vks.length := by
  induction vks generalizing a with
  | nil => rfl
  | cons vk vks ih => simp [writableMasks, ih]

/-- Only a byte of an input memory keeps its mask (20_memory.md R84, R89). -/
theorem getD_writableMasks (a i : Nat) (vks : List (Byte × Byte)) :
    (writableMasks a vks).getD i (0, 0) =
      ((vks.getD i (0, 0)).1, if regionOf (a + i) = .input then (vks.getD i (0, 0)).2 else 0) := by
  induction vks generalizing a i with
  | nil => simp [writableMasks]
  | cons vk vks ih =>
    cases i with
    | zero => rfl
    | succ i =>
      simp only [writableMasks, List.getD_cons_succ]
      rw [ih, Nat.add_right_comm, Nat.add_assoc]

theorem maskedAt_writableMasks_input {x : Nat} (h : inputByte x) (a : Nat) (vks : List (Byte × Byte)) :
    maskedAt a (writableMasks a vks) x = maskedAt a vks x := by
  unfold maskedAt
  split
  · rename_i hle
    rw [getD_writableMasks, Nat.add_sub_cancel' hle, if_pos (regionOf_eq_input_iff.2 h)]
  · rfl

theorem maskedAt_writableMasks_ignored {x : Nat} (h : ¬ inputByte x) (a : Nat) (vks : List (Byte × Byte)) :
    (maskedAt a (writableMasks a vks) x).2 = 0 := by
  unfold maskedAt
  split
  · rename_i hle
    rw [getD_writableMasks, Nat.add_sub_cancel' hle, if_neg (mt regionOf_eq_input_iff.1 h)]
  · rfl

/-- A racing write lets each masked bit through or not, by a free choice (20_memory.md R93). -/
theorem getD_racedMasks (draw i : Nat) (vks : List (Byte × Byte)) :
    ∃ choice : Byte, (racedMasks draw vks).getD i (0, 0) =
      ((vks.getD i (0, 0)).1, (vks.getD i (0, 0)).2 &&& choice) := by
  induction vks generalizing draw i with
  | nil => exact ⟨0, by simp [racedMasks]⟩
  | cons vk vks ih =>
    cases i with
    | zero => exact ⟨_, rfl⟩
    | succ i => exact ih (draw + 1) i

theorem maskedAt_racedMasks (draw base a : Nat) (vks : List (Byte × Byte)) :
    ∃ choice : Byte, maskedAt base (racedMasks draw vks) a =
      ((maskedAt base vks a).1, (maskedAt base vks a).2 &&& choice) := by
  unfold maskedAt
  split
  · exact getD_racedMasks draw _ vks
  · exact ⟨0, by simp⟩

/-! ## Masked host writes (20_memory.md R84, R85, R89) -/

/-- A write that reaches no byte of an input memory is ignored. -/
theorem State.storeMasked_ignored {s : State} {a : Nat} {vks : List (Byte × Byte)}
    (h : ∀ i, i < vks.length → ¬ inputByte (a + i)) : s.storeMasked a vks = s := by
  have hzero : ∀ vk ∈ writableMasks a vks, vk.2 = 0 := by
    intro vk hvk
    obtain ⟨i, hi, rfl⟩ := List.mem_iff_getElem.1 hvk
    have hmask := maskedAt_writableMasks_ignored (h i (by simpa using hi)) a vks
    rwa [maskedAt_add, List.getD_eq_getElem _ _ hi] at hmask
  have hall : (writableMasks a vks).all (fun vk => vk.2 == 0) = true := by simpa using hzero
  simp only [State.storeMasked, hall, if_true]

/-- After any masked write a byte reads as after the write of its writable bits; a write that is ignored has none. -/
theorem State.reads_storeMasked (s : State) (a : Nat) (vks : List (Byte × Byte)) (x : Nat) :
    (s.storeMasked a vks).mem.byteAt x = (s.mem.writeMasked a (writableMasks a vks)).byteAt x ∧
      (s.storeMasked a vks).mem.markAt x = (s.mem.writeMasked a (writableMasks a vks)).markAt x := by
  unfold State.storeMasked
  simp only
  split
  · rename_i hall
    have hzero : (maskedAt a (writableMasks a vks) x).2 = 0 := by
      by_cases hin : a ≤ x ∧ x - a < (writableMasks a vks).length
      · rw [maskedAt, if_pos hin.1, List.getD_eq_getElem _ _ hin.2]
        exact eq_of_beq (List.all_eq_true.1 hall _ (List.getElem_mem hin.2))
      · rw [maskedAt_outside (by omega)]
    obtain ⟨hbyte, hmark⟩ := s.mem.reads_writeMasked_of_mask_zero hzero
    exact ⟨hbyte.symm, hmark.symm⟩
  · split <;> exact ⟨rfl, rfl⟩

/-- A masked write of the host changes memory and nothing that a command, a register or the schedule holds. -/
theorem State.storeMasked_frame (s : State) (a : Nat) (vks : List (Byte × Byte)) :
    (s.storeMasked a vks).regs = s.regs ∧ (s.storeMasked a vks).status = s.status ∧
      (s.storeMasked a vks).lens = s.lens ∧ (s.storeMasked a vks).cell = s.cell ∧
      (s.storeMasked a vks).procs = s.procs ∧ (s.storeMasked a vks).pending = s.pending ∧
      (s.storeMasked a vks).turns = s.turns ∧ (s.storeMasked a vks).readData = s.readData := by
  rcases s.storeMasked_cases a vks with e | ⟨-, e⟩ | ⟨-, e⟩ <;> rw [e] <;> exact ⟨rfl, rfl, rfl, rfl, rfl, rfl, rfl, rfl⟩

/-- With nothing pending a masked write changes memory only. -/
theorem State.storeMasked_idle {s : State} (h : s.pending = none) (a : Nat) (vks : List (Byte × Byte)) :
    s.storeMasked a vks = { s with mem := (s.storeMasked a vks).mem } := by
  rcases s.storeMasked_cases a vks with e | ⟨-, e⟩ | ⟨hbusy, -⟩
  · rw [e]
  · rw [e]
  · rw [State.busy, h] at hbusy
    cases hbusy

/-- A byte outside the written run, or outside the input memories, keeps value and marks. -/
theorem State.storeMasked_keeps (s : State) {a x : Nat} {vks : List (Byte × Byte)}
    (h : (x < a ∨ a + vks.length ≤ x) ∨ ¬ inputByte x) :
    (s.storeMasked a vks).mem.byteAt x = s.mem.byteAt x ∧ (s.storeMasked a vks).mem.markAt x = s.mem.markAt x := by
  have hzero : (maskedAt a (writableMasks a vks) x).2 = 0 := by
    rcases h with hout | hregion
    · rw [maskedAt_outside (by simpa using hout)]
    · exact maskedAt_writableMasks_ignored hregion a vks
  obtain ⟨hbyte, hmark⟩ := s.reads_storeMasked a vks x
  rw [hbyte, hmark]
  exact s.mem.reads_writeMasked_of_mask_zero hzero

/-! ## Bytes and words (20_memory.md R85) -/

/-- Bit j of a word is bit j mod 8 of its byte floor(j/8). -/
theorem getLsbD_wordOfBytes (bs : List Byte) {j : Nat} (hj : j < 32) :
    (wordOfBytes bs).getLsbD j = (bs.getD (j / 8) 0).getLsbD (j % 8) := by
  induction bs generalizing j with
  | nil => simp [wordOfBytes]
  | cons b bs ih =>
    simp only [wordOfBytes, BitVec.getLsbD_or, BitVec.getLsbD_shiftLeft, BitVec.truncate_eq_setWidth,
      BitVec.getLsbD_setWidth, hj, decide_true, Bool.true_and]
    rcases Nat.lt_or_ge j 8 with h | h
    · simp [h, Nat.div_eq_of_lt h, Nat.mod_eq_of_lt h]
    · have hdiv : j / 8 = (j - 8) / 8 + 1 := by omega
      have hmod : j % 8 = (j - 8) % 8 := by omega
      rw [ih (by omega), hdiv, hmod, List.getD_cons_succ, BitVec.getLsbD_of_ge b j h]
      simp [Nat.not_lt.2 h]

theorem wordOfBytes_replicate_zero (n : Nat) : wordOfBytes (List.replicate n 0) = 0 := by
  induction n with
  | zero => rfl
  | succ n ih => rw [List.replicate_succ, wordOfBytes, ih]; decide

/-- Byte i of a word. -/
theorem getD_wordBytes (w : Word) {i : Nat} (h : i < 4) : (wordBytes w).getD i 0 = w.extractLsb' (8 * i) 8 := by
  match i, h with
  | 0, _ => rfl
  | 1, _ => rfl
  | 2, _ => rfl
  | 3, _ => rfl

@[simp] theorem length_dataBytes (width : Width) (data : Word) : (dataBytes width data).length = width.bytes := by
  cases width <;> rfl

theorem getD_dataBytes {width : Width} {i : Nat} (h : i < width.bytes) (data : Word) :
    (dataBytes width data).getD i (0, 0) = (data.extractLsb' (8 * i) 8, 0xFF) := by
  match width, i, h with
  | .w8, 0, _ => rfl
  | .w16, 0, _ => rfl
  | .w16, 1, _ => rfl
  | .w32, 0, _ => rfl
  | .w32, 1, _ => rfl
  | .w32, 2, _ => rfl
  | .w32, 3, _ => rfl

/-- The bytes of an access, put together again, are the low bits of its datum. -/
theorem wordOfBytes_dataBytes (width : Width) (data : Word) :
    wordOfBytes ((dataBytes width data).map Prod.fst) = BitVec.ofNat 32 (data.toNat % 2 ^ (8 * width.bytes)) := by
  apply BitVec.eq_of_getLsbD_eq
  intro j hj
  have hfst : ((dataBytes width data).map Prod.fst).getD (j / 8) 0 = ((dataBytes width data).getD (j / 8) (0, 0)).1 := by
    simp only [List.getD_eq_getElem?_getD, List.getElem?_map]
    cases (dataBytes width data)[j / 8]? <;> rfl
  rw [getLsbD_wordOfBytes _ hj, hfst, BitVec.getLsbD_ofNat, Nat.testBit_mod_two_pow]
  simp only [hj, decide_true, Bool.true_and]
  by_cases hin : j / 8 < width.bytes
  · rw [getD_dataBytes hin, BitVec.getLsbD_extractLsb', Nat.div_add_mod]
    simp [Nat.mod_lt, show j < 8 * width.bytes by omega, BitVec.getLsbD]
  · rw [List.getD_eq_default _ _ (by rw [length_dataBytes]; omega)]
    simp [show ¬ j < 8 * width.bytes by omega]

theorem wordOfBytes_marks (width : Width) :
    wordOfBytes (List.replicate width.bytes 0xFF) = BitVec.ofNat 32 (2 ^ (8 * width.bytes) - 1) := by
  cases width <;> decide

/-! ## Host reads of memory (20_memory.md R84, R93; 70_reset_and_hazards.md R444) -/

theorem State.hostByte_input (s : State) {a : Nat} (h : inputByte a) (i : Nat) :
    s.hostByte a i = (s.mem.byteAt a, s.mem.markAt a) := by
  simp only [State.hostByte, regionOf_eq_input_iff.2 h]

theorem State.hostByte_unmapped (s : State) {a : Nat} (hin : ¬ inputByte a) (hout : ¬ outputByte a) (i : Nat) :
    s.hostByte a i = (0, 0xFF) := by
  rw [← regionOf_eq_input_iff] at hin
  rw [← regionOf_eq_output_iff] at hout
  unfold State.hostByte
  split
  · exact absurd ‹_› hin
  · exact absurd ‹_› hout
  · rfl

/-- A byte that a read finds without a written bit is one of a memory, never written. -/
theorem State.unwritten_of_hostByte {s : State} {a i : Nat} (h : (s.hostByte a i).2 = 0) :
    (inputByte a ∨ outputByte a) ∧ s.mem.markAt a = 0 := by
  unfold State.hostByte at h
  split at h
  next hin => exact ⟨.inl (regionOf_eq_input_iff.1 hin), h⟩
  next hout =>
    refine ⟨.inr (regionOf_eq_output_iff.1 hout), ?_⟩
    split at h
    · exact absurd (show (0xFF : Byte) = 0 from h) (by decide)
    · exact h
  next => exact absurd h (by decide)

theorem getElem_hostBytes (s : State) (a : Nat) {n i : Nat} (h : i < (s.hostBytes a n).length) :
    (s.hostBytes a n)[i] = s.hostByte (a + i) i := by
  simp [State.hostBytes]

@[simp] theorem length_hostBytes (s : State) (a n : Nat) : (s.hostBytes a n).length = n := by simp [State.hostBytes]

/-- A memory read answers a next state, or stops at a byte it finds without a written bit. -/
theorem State.readMem_total (s : State) (width : Width) (a : Nat) :
    (∃ t, s.readMem width a = .next t) ∨
      ((∃ i, i < width.bytes ∧ (s.hostByte (a + i) i).2 = 0) ∧ s.readMem width a = .fault .neverWrittenRead) := by
  unfold State.readMem
  simp only
  split
  · rename_i hany
    refine .inr ⟨?_, rfl⟩
    obtain ⟨b, hb, hzero⟩ := List.any_eq_true.1 hany
    obtain ⟨i, hi, rfl⟩ := List.mem_iff_getElem.1 hb
    rw [getElem_hostBytes] at hzero
    exact ⟨i, by simpa using hi, eq_of_beq hzero⟩
  · exact .inl ⟨_, rfl⟩

/-- A read that starts at no output memory and finds a written bit in every byte answers these bytes. -/
theorem State.readMem_eq_next {s : State} {width : Width} {a : Nat} {bytes : List (Byte × Byte)}
    (hbytes : s.hostBytes a width.bytes = bytes) (hmark : ∀ b ∈ bytes, b.2 ≠ 0) (hregion : ¬ outputByte a) :
    s.readMem width a =
      .next (s.withRead width (wordOfBytes (bytes.map Prod.fst)) (wordOfBytes (bytes.map Prod.snd))) := by
  have hany : bytes.any (fun b => b.2 == 0) = false := by simpa using hmark
  have hdraw : (regionOf a == .output) = false := by
    rw [← regionOf_eq_output_iff] at hregion
    simpa using hregion
  simp only [State.readMem, hbytes, hany, hdraw, Bool.and_false, Bool.false_eq_true, if_false]

/-! ## The statements about memory accesses -/

/-- Settles O53: the two alignment rules of R86, and the only stop of a legal access. -/
theorem accessLegality : Obligations.AccessLegality := by
  intro s width offset data bytes legal
  have hbytes : bytes = width.bytes := by cases width <;> rfl
  have hlegal : legal ↔ accessLegal width offset = true := by
    rw [accessLegal_iff, ← hbytes]
  refine ⟨fun h => hostAccess_illegal (mt hlegal.2 h) data s, fun h => ?_⟩
  rw [hlegal] at h
  by_cases hreg : offset.toNat < 0x1000
  · simp only [hostAccess, h, hreg, if_true]
    exact ⟨⟨_, rfl⟩, .inl ⟨_, rfl⟩⟩
  · have halign : offset.toNat % width.bytes = 0 := by
      rwa [accessLegal_iff, if_neg hreg] at h
    rw [hostAccess_writeMem hreg halign, hostAccess_readMem hreg halign, hbytes]
    refine ⟨⟨_, rfl⟩, ?_⟩
    rcases s.readMem_total width offset.toNat with hnext | ⟨⟨i, hi, hzero⟩, hfault⟩
    · exact .inl hnext
    · obtain ⟨hmapped, hmark⟩ := State.unwritten_of_hostByte hzero
      exact .inr ⟨⟨i, hi, hmapped, hmark⟩, hfault⟩

/-- An aligned access above the registers that reaches no byte of a memory (20_memory.md R84). -/
theorem hostAccess_unmapped {width : Width} {offset : Word} (hmem : ¬ offset.toNat < 0x1000)
    (halign : offset.toNat % width.bytes = 0)
    (hfree : ∀ i, i < width.bytes → ¬ inputByte (offset.toNat + i) ∧ ¬ outputByte (offset.toNat + i)) (data : Word)
    (s : State) :
    hostAccess (.write width offset data) s = .next s ∧
      ∃ written, hostAccess (.read width offset) s = .next (s.withRead width 0 written) := by
  have hbytes : s.hostBytes offset.toNat width.bytes = List.replicate width.bytes (0, 0xFF) := by
    refine List.ext_getElem (by simp) fun i hi _ => ?_
    obtain ⟨hin, hout⟩ := hfree i (by simpa using hi)
    rw [getElem_hostBytes, s.hostByte_unmapped hin hout, List.getElem_replicate]
  have hread := State.readMem_eq_next hbytes (by simp) (hfree 0 width.bytes_pos).2
  rw [hostAccess_writeMem hmem halign, hostAccess_readMem hmem halign, hread,
    State.storeMasked_ignored fun i hi => (hfree i (by simpa using hi)).1, List.map_replicate,
    wordOfBytes_replicate_zero]
  exact ⟨rfl, _, rfl⟩

/-- A word access of an offset that R32 does not list (20_memory.md R84). -/
theorem hostAccess_unlisted {offset : Word} (hlow : 0x044 ≤ offset.toNat) (hreg : offset.toNat < 0x1000)
    (halign : offset.toNat % 4 = 0) (data : Word) (s : State) :
    hostAccess (.write .w32 offset data) s = .next s ∧
      hostAccess (.read .w32 offset) s = .next (s.withRead .w32 0 0xFFFFFFFF) := by
  have harg : argRegAt offset.toNat = none := by
    unfold argRegAt
    repeat' rw [if_neg (by omega)]
  have hlen : lenRegAt s.lens offset.toNat = none := by
    unfold lenRegAt
    repeat' rw [if_neg (by omega)]
  have hplain : s.plainReg offset.toNat = 0 := by
    rw [State.plainReg, if_neg (by omega), if_neg (by omega), harg]
  have hwrite : s.writeReg offset.toNat data = s := by
    rw [State.writeReg, if_neg (by omega), if_neg (by omega), if_neg (by omega), harg]
  rw [hostAccess_writeReg hreg halign, hostAccess_readReg hreg halign, hwrite, s.readReg_plain hlen, hplain]
  exact ⟨rfl, rfl⟩

/-- Settles O55: unmapped bytes read 0 one by one, and no unlisted register is found. -/
theorem unmappedOffsets : Obligations.UnmappedOffsets := by
  refine ⟨fun s width offset data hmem halign hfree => ?_, fun s offset data hlow hreg halign => ?_⟩
  · have halign' : offset.toNat % width.bytes = 0 := by cases width <;> exact halign
    have hfree' : ∀ i, i < width.bytes → ¬ inputByte (offset.toNat + i) ∧ ¬ outputByte (offset.toNat + i) := by
      cases width <;> exact hfree
    obtain ⟨hwrite, written, hread⟩ := hostAccess_unmapped (Nat.not_lt.2 hmem) halign' hfree' data s
    exact ⟨hwrite, _, rfl, hread⟩
  · obtain ⟨hwrite, hread⟩ := hostAccess_unlisted hlow hreg halign data s
    exact ⟨hwrite, _, rfl, hread⟩

/-- What an access wrote into an input memory is what the same access finds there. -/
theorem hostBytes_storeMasked {s : State} {width : Width} {a : Nat} (hin : ∀ i, i < width.bytes → inputByte (a + i))
    (data : Word) :
    (∀ i, i < width.bytes →
      (s.storeMasked a (dataBytes width data)).mem.byteAt (a + i) = data.extractLsb' (8 * i) 8 ∧
        (s.storeMasked a (dataBytes width data)).mem.markAt (a + i) = 0xFF) ∧
      (s.storeMasked a (dataBytes width data)).hostBytes a width.bytes = dataBytes width data := by
  have hstored : ∀ i, i < width.bytes →
      (s.storeMasked a (dataBytes width data)).mem.byteAt (a + i) = data.extractLsb' (8 * i) 8 ∧
        (s.storeMasked a (dataBytes width data)).mem.markAt (a + i) = 0xFF := by
    intro i hi
    obtain ⟨hbyte, hmark⟩ := s.reads_storeMasked a (dataBytes width data) (a + i)
    rw [hbyte, hmark, Memory.byteAt_writeMasked_eq, Memory.markAt_writeMasked_eq,
      maskedAt_writableMasks_input (hin i hi), maskedAt_add, getD_dataBytes hi]
    exact ⟨merge_mask_full _ _, BitVec.or_allOnes⟩
  refine ⟨hstored, List.ext_getElem (by simp) fun i hi _ => ?_⟩
  have hi' : i < width.bytes := by simpa using hi
  obtain ⟨hbyte, hmark⟩ := hstored i hi'
  rw [getElem_hostBytes, State.hostByte_input _ (hin i hi'), hbyte, hmark, ← getD_dataBytes hi',
    List.getD_eq_getElem]

/-- Settles O57: each byte is stored whole and marked, and the read puts the bytes together again. -/
theorem memoryAccess : Obligations.MemoryAccess := by
  intro s width offset data bytes hin halign hpending
  have hbytes : bytes = width.bytes := by cases width <;> rfl
  rw [hbytes] at hin halign ⊢
  have hmem : ¬ offset.toNat < 0x1000 := not_register_of_inputByte (hin 0 width.bytes_pos)
  have hregion : ¬ outputByte offset.toNat := fun h => outputByte_not_input h (hin 0 width.bytes_pos)
  obtain ⟨hstored, hfound⟩ := hostBytes_storeMasked (s := s) hin data
  refine ⟨_, hostAccess_writeMem hmem halign data s, State.storeMasked_idle hpending _ _, hstored,
    fun a ha => s.storeMasked_keeps (.inl (by simpa using ha)), ?_⟩
  have hmarks : (dataBytes width data).map Prod.snd = List.replicate width.bytes 0xFF := by cases width <;> rfl
  have hmarked : ∀ b ∈ dataBytes width data, b.2 ≠ 0 := by
    intro b hb
    have hsnd := List.mem_map_of_mem (f := Prod.snd) hb
    rw [hmarks] at hsnd
    rw [List.eq_of_mem_replicate hsnd]
    decide
  rw [hostAccess_readMem hmem halign, State.readMem_eq_next hfound hmarked hregion, wordOfBytes_dataBytes, hmarks,
    wordOfBytes_marks]
  rfl

/-! ## The bit-string write (30_encoding.md R131) -/

theorem getD_bitStringBytes {bm : BitMem} {bits : List Bool} (h : bits.length ≤ 8 * bm.size) (k : Nat) :
    (bitStringBytes bm bits).getD k (0, 0) =
      ((packBits bits).getD k 0, (packBits (List.replicate bits.length true)).getD k 0) := by
  have hlen : (packBits (List.replicate bits.length true)).length = (packBits bits).length := by simp
  rw [bitStringBytes, List.take_of_length_le (by simp; omega)]
  by_cases hk : k < (packBits bits).length
  · rw [List.getD_eq_getElem _ _ (by simp only [List.length_zip, hlen]; omega), List.getElem_zip,
      List.getD_eq_getElem _ _ hk, List.getD_eq_getElem]
  · rw [List.getD_eq_default _ _ (by simp only [List.length_zip, hlen]; omega),
      List.getD_eq_default _ _ (Nat.not_lt.1 hk), List.getD_eq_default _ _ (by omega)]

theorem length_bitStringBytes_le (bm : BitMem) (bits : List Bool) :
    (bitStringBytes bm bits).length ≤ (bits.length + 7) / 8 := by
  simp [bitStringBytes]

/-- The mask of a bit string holds bit i exactly when the string has an i-th bit. -/
theorem getLsbD_bitStringMask (n i : Nat) :
    ((packBits (List.replicate n true)).getD (i / 8) 0).getLsbD (7 - i % 8) = decide (i < n) := by
  by_cases hin : i < 8 * ((n + 7) / 8)
  · rw [getLsbD_packBits (by simpa using hin), List.getD_eq_getElem?_getD, List.getElem?_replicate]
    split <;> simp [*]
  · rw [List.getD_eq_default _ _ (by rw [length_packBits, List.length_replicate]; omega)]
    simp
    omega

theorem inputByte_of_lt_size {bm : BitMem} (hbm : bm ≠ .bits) {k : Nat} (h : k < bm.size) : inputByte (bm.base + k) := by
  unfold inputByte
  cases bm <;> simp only [BitMem.size, BitMem.base] at h ⊢
  case bits => exact absurd rfl hbm
  all_goals omega

/-- What `wbits` brings to bit i of its memory: bit i of the string, and nothing past the string's end. -/
theorem bit_maskedAt_bitString {bm : BitMem} {bits : List Bool} (hbm : bm ≠ .bits) (h : bits.length ≤ 8 * bm.size)
    (i : Nat) :
    (maskedAt bm.base (writableMasks bm.base (bitStringBytes bm bits)) (bm.base + i / 8)).2.getLsbD (7 - i % 8) =
        decide (i < bits.length) ∧
      (i < bits.length →
        (maskedAt bm.base (writableMasks bm.base (bitStringBytes bm bits)) (bm.base + i / 8)).1.getLsbD (7 - i % 8) =
          bits.getD i false) := by
  rw [maskedAt_add, getD_writableMasks, getD_bitStringBytes h]
  simp only
  refine ⟨?_, fun hi => getLsbD_packBits (by omega)⟩
  by_cases hi : i < bits.length
  · rw [if_pos (regionOf_eq_input_iff.2 (inputByte_of_lt_size hbm (by omega))), getLsbD_bitStringMask]
  · split
    · exact getLsbD_bitStringMask _ _
    · simp [hi]

/-- Settles O58: one masked write whose mask holds exactly the string's bits. -/
theorem bitStringWrite : Obligations.BitStringWrite := by
  intro s bm bits hbm hlen
  obtain ⟨hregs, hstatus, hlens, hcell, hprocs, hpending, hturns, hread⟩ :=
    s.storeMasked_frame bm.base (bitStringBytes bm bits)
  refine ⟨_, rfl, fun i b hb => ?_, fun i hi => ?_, fun a ha => ?_, hregs, hstatus, hlens, hcell, hprocs, hpending,
    hturns, hread⟩
  · obtain ⟨hmask, hvalue⟩ := bit_maskedAt_bitString hbm hlen i
    obtain ⟨hbyte, hmark⟩ := s.reads_storeMasked bm.base (bitStringBytes bm bits) (bm.base + i / 8)
    have hi : i < bits.length := (List.getElem?_eq_some_iff.1 hb).1
    obtain ⟨hbit, hmarked⟩ := s.mem.bit_writeMasked_of_mask (by rw [hmask, decide_eq_true hi])
    simp only [Memory.bitAt]
    rw [hbyte, hmark, hmarked, hbit, hvalue hi, List.getD_eq_getElem?_getD, hb]
    rfl
  · obtain ⟨hmask, -⟩ := bit_maskedAt_bitString hbm hlen i
    obtain ⟨hbyte, hmark⟩ := s.reads_storeMasked bm.base (bitStringBytes bm bits) (bm.base + i / 8)
    obtain ⟨hbit, hmarked⟩ := s.mem.bit_writeMasked_of_not_mask (by rw [hmask, decide_eq_false (Nat.not_lt.2 hi)])
    simp only [Memory.bitAt]
    rw [hbyte, hmark, hmarked, hbit]
  · have hbound := length_bitStringBytes_le bm bits
    exact s.storeMasked_keeps (.inl (by omega))

/-! ## Who changes an output memory (20_memory.md R89) -/

theorem State.writeReg_mem (s : State) (offset : Nat) (data : Word) : (s.writeReg offset data).mem = s.mem := by
  rcases s.writeReg_cases offset data with e | ⟨-, e⟩ | ⟨-, e⟩ | ⟨-, e⟩ | ⟨r, -, e⟩ <;> rw [e]
  · exact s.softReset_mem
  · rw [State.writeCmd]; split <;> rfl
  · rw [State.writeArg]; simp only; split <;> rfl

/-- No host access changes a byte that is not one of an input memory. -/
theorem hostAccess_keeps {access : HostAccess} {s t : State} (h : hostAccess access s = .next t) {x : Nat}
    (hx : ¬ inputByte x) : t.mem.byteAt x = s.mem.byteAt x ∧ t.mem.markAt x = s.mem.markAt x := by
  rcases hostAccess_cases h with ⟨width, value, written, draws, rfl⟩ | ⟨offset, data, rfl⟩ | ⟨a, vks, rfl⟩
  · exact ⟨rfl, rfl⟩
  · rw [State.writeReg_mem]
    exact ⟨rfl, rfl⟩
  · exact s.storeMasked_keeps (.inr hx)

/-- A turn of the PTC keeps the memories, or completes a PUSCH_TX with OK. -/
theorem ptcTurn_mem {s t : State} (h : ptcTurn s = .next t) :
    t.mem = s.mem ∨
      ∃ w, s.pending = some w ∧ w.extractLsb' 24 8 = (0x10 : BitVec 8) ∧ t.pending = none ∧ t.status.err = .ok := by
  rcases ptcTurn_cases h with ⟨-, rfl⟩ | ⟨w, i, hw, hi, hexec⟩ | ⟨w, e, -, -, rfl⟩
  · exact .inl rfl
  · rcases exec_cases hexec with ⟨code, -, rfl⟩ | ⟨u, he, rfl⟩
    · exact .inl rfl
    · by_cases hop : i.opcode = 0x10
      · exact .inr ⟨w, hw, (decode_fields hi).1.trans hop, rfl, rfl⟩
      · exact .inl (he.stores_nothing hop).2.1
  · exact .inl rfl

/-- An aligned access that begins in an output memory reaches no input memory. -/
theorem aligned_outputByte_not_input {width : Width} {a : Nat} (hout : outputByte a)
    (halign : a % width.bytes = 0) (i : Nat) (hi : i < width.bytes) : ¬ inputByte (a + i) := by
  unfold outputByte at hout
  unfold inputByte
  cases width <;> simp only [Width.bytes] at halign hi <;> omega

/-- Settles O54: a host access keeps every byte outside the input memories, and of the PTC's turns only a PUSCH_TX that
ends with OK stores. -/
theorem outputMemoriesAreThePtcs : Obligations.OutputMemoriesAreThePtcs := by
  refine ⟨fun s width offset data hout halign => ?_, fun s t a hout hstep hchange => ?_⟩
  · have halign' : offset.toNat % width.bytes = 0 := by cases width <;> exact halign
    rw [hostAccess_writeMem (not_register_of_outputByte hout) halign', State.storeMasked_ignored fun i hi =>
      aligned_outputByte_not_input hout halign' i (by simpa using hi)]
  · have hptc : ∀ u : State, u.mem = s.mem → u.pending = s.pending → ptcTurn u = .next t →
        ∃ w, s.pending = some w ∧ w.extractLsb' 24 8 = 0x10 ∧ t.pending = none ∧ t.status.err = .ok := by
      intro u hmem hpending hturn
      rcases ptcTurn_mem hturn with hkeep | hok
      · rw [hkeep, hmem] at hchange
        simp at hchange
      · rwa [hpending] at hok
    rcases step_cases hstep with ⟨-, hturn⟩ | ⟨turn, rest, hturns, hturn⟩
    · exact .inr (hptc s rfl rfl hturn)
    rcases hturn with ⟨-, hturn⟩ | ⟨rfl, -⟩ | ⟨access, -, hhost⟩
    · exact .inr (hptc { s with turns := rest } rfl rfl hturn)
    · exact .inl ⟨rest, hturns⟩
    · obtain ⟨hbyte, hmark⟩ := hostAccess_keeps hhost (outputByte_not_input hout)
      rcases hchange with hne | hne
      · exact absurd hbyte hne
      · exact absurd hmark hne

/-! ## Racing writes (20_memory.md R93) -/

theorem getLsbD_fieldMask (field : Nat × Nat) {j : Nat} (hj : j < 32) :
    (fieldMask field).getLsbD j = decide (field.1 ≤ j ∧ j < field.1 + field.2) := by
  rw [fieldMask, BitVec.getLsbD_ofNat, Nat.testBit_mul_two_pow, Nat.testBit_two_pow_sub_one]
  simp only [hj, decide_true, Bool.true_and, ← Bool.decide_and]
  exact decide_eq_decide.2 (by omega)

/-- A place that lies in a field of the list lies in its mask, and no other does. -/
theorem getLsbD_fieldsMask (fields : List (Nat × Nat)) {j : Nat} (hj : j < 32) :
    (fieldsMask fields).getLsbD j = fields.any fun field => decide (field.1 ≤ j ∧ j < field.1 + field.2) := by
  induction fields with
  | nil => simp [fieldsMask]
  | cons field fields ih => rw [fieldsMask, BitVec.getLsbD_or, getLsbD_fieldMask field hj, ih, List.any_cons]

/-- The fields of a register are disjoint. -/
theorem ArgReg.fields_disjoint (r : ArgReg) :
    ∀ f ∈ r.fields, ∀ g ∈ r.fields, f = g ∨ f.1 + f.2 ≤ g.1 ∨ g.1 + g.2 ≤ f.1 := by
  cases r <;> decide

theorem ArgReg.field_le (r : ArgReg) : ∀ f ∈ r.fields, f.1 + f.2 ≤ 32 := by cases r <;> decide

/-- In a field of a register a mix is the new value where the free bit chooses it, and the old value otherwise. -/
theorem getLsbD_mixFields {r : ArgReg} {field : Nat × Nat} (hf : field ∈ r.fields) (choice old new : Word) {j : Nat}
    (hlow : field.1 ≤ j) (hhigh : j < field.1 + field.2) :
    (mixFields choice r.fields old new).getLsbD j =
      if choice.getLsbD field.1 then new.getLsbD j else old.getLsbD j := by
  have hj : j < 32 := Nat.lt_of_lt_of_le hhigh (r.field_le field hf)
  have hmask : (fieldsMask (r.fields.filter fun f => choice.getLsbD f.1)).getLsbD j = choice.getLsbD field.1 := by
    rw [getLsbD_fieldsMask _ hj, Bool.eq_iff_iff, List.any_eq_true]
    constructor
    · rintro ⟨g, hg, hin⟩
      obtain ⟨hmem, hchosen⟩ := List.mem_filter.1 hg
      have hin' := of_decide_eq_true hin
      rcases r.fields_disjoint field hf g hmem with rfl | h | h
      · exact hchosen
      · omega
      · omega
    · exact fun h => ⟨field, List.mem_filter.2 ⟨hf, h⟩, decide_eq_true ⟨hlow, hhigh⟩⟩
  simp only [mixFields, BitVec.getLsbD_or, BitVec.getLsbD_and, BitVec.getLsbD_not, hmask, hj, decide_true, Bool.true_and]
  cases choice.getLsbD field.1 <;> simp

/-- Each field of a register is mixed as a whole. -/
theorem extractLsb'_mixFields {r : ArgReg} {field : Nat × Nat} (hf : field ∈ r.fields) (choice old new : Word) :
    (mixFields choice r.fields old new).extractLsb' field.1 field.2 = old.extractLsb' field.1 field.2 ∨
      (mixFields choice r.fields old new).extractLsb' field.1 field.2 = new.extractLsb' field.1 field.2 := by
  have hbit : ∀ i, i < field.2 → (mixFields choice r.fields old new).getLsbD (field.1 + i) =
      if choice.getLsbD field.1 then new.getLsbD (field.1 + i) else old.getLsbD (field.1 + i) :=
    fun i hi => getLsbD_mixFields hf choice old new (by omega) (by omega)
  cases hc : choice.getLsbD field.1 with
  | false =>
    refine .inl (BitVec.eq_of_getLsbD_eq fun i hi => ?_)
    rw [BitVec.getLsbD_extractLsb', BitVec.getLsbD_extractLsb', hbit i hi, hc]
    rfl
  | true =>
    refine .inr (BitVec.eq_of_getLsbD_eq fun i hi => ?_)
    rw [BitVec.getLsbD_extractLsb', BitVec.getLsbD_extractLsb', hbit i hi, hc]
    rfl

/-- A write of an argument register while BUSY: the register takes the new value, and the command's copy a mix. -/
theorem State.writeArg_busy {s : State} (h : s.busy = true) (r : ArgReg) (data : Word) :
    s.writeArg r data =
      { s with
        regs := s.regs.write r data
        raced := some { s.inputs with regs := s.inputs.regs.put r (mixFields (Config.freeWord s.draws) r.fields
          (s.inputs.regs.get r) ((s.regs.write r data).get r)) }
        draws := s.draws + 1 } := by
  simp only [State.writeArg, h, if_true]

/-- A bit that a racing masked write lets the command see is as the memory now holds it, and any other as before. -/
theorem Memory.bit_writeMasked_raced (seen now : Memory) (draw base a j : Nat) (ws : List (Byte × Byte)) :
    (((seen.writeMasked base (racedMasks draw ws)).byteAt a).getLsbD j = (seen.byteAt a).getLsbD j ∧
        ((seen.writeMasked base (racedMasks draw ws)).markAt a).getLsbD j = (seen.markAt a).getLsbD j) ∨
      (((seen.writeMasked base (racedMasks draw ws)).byteAt a).getLsbD j = ((now.writeMasked base ws).byteAt a).getLsbD j ∧
        ((seen.writeMasked base (racedMasks draw ws)).markAt a).getLsbD j =
          ((now.writeMasked base ws).markAt a).getLsbD j) := by
  obtain ⟨choice, hraced⟩ := maskedAt_racedMasks draw base a ws
  have hmask : (maskedAt base (racedMasks draw ws) a).2.getLsbD j =
      ((maskedAt base ws a).2.getLsbD j && choice.getLsbD j) := by rw [hraced, BitVec.getLsbD_and]
  cases hseen : (maskedAt base (racedMasks draw ws) a).2.getLsbD j with
  | false => exact .inl (seen.bit_writeMasked_of_not_mask hseen)
  | true =>
    rw [hseen, eq_comm, Bool.and_eq_true] at hmask
    obtain ⟨hbyte, hmark⟩ := seen.bit_writeMasked_of_mask hseen
    obtain ⟨hbyte', hmark'⟩ := now.bit_writeMasked_of_mask hmask.1
    exact .inr ⟨by rw [hbyte, hbyte', hraced], by rw [hmark, hmark']⟩

/-- Settles O59: what the command reads after a race is a mix per field of a register, and per bit of a memory. -/
theorem racingWrites : Obligations.RacingWrites := by
  refine ⟨fun s r data hpending => ?_, fun s t width offset data hpending hmem hwrite => ?_⟩
  · refine ⟨_, hostAccess_writeArg s r data, ?_⟩
    rw [State.writeArg_busy hpending]
    refine ⟨rfl, ArgRegs.get_write _ _ _, rfl, rfl, fun q hq => ⟨ArgRegs.get_put_ne _ _ hq, ArgRegs.get_write_ne _ _ hq⟩,
      fun field hf => ?_⟩
    have hseen := extractLsb'_mixFields hf (Config.freeWord s.draws) (s.inputs.regs.get r) ((s.regs.write r data).get r)
    rwa [← ArgRegs.get_put s.inputs.regs r (mixFields _ _ _ _)] at hseen
  · have ht : t = s.storeMasked offset.toNat (dataBytes width data) := by
      simp only [hostAccess, if_neg (Nat.not_lt.2 hmem)] at hwrite
      split at hwrite <;> cases hwrite
      rfl
    subst ht
    rcases s.storeMasked_cases offset.toNat (dataBytes width data) with e | ⟨hidle, -⟩ | ⟨-, e⟩
    · rw [e]
      exact ⟨rfl, rfl, fun a j _ => .inl ⟨rfl, rfl⟩⟩
    · rw [State.busy, hpending] at hidle
      cases hidle
    · rw [e]
      exact ⟨rfl, rfl, fun a j _ => Memory.bit_writeMasked_raced _ _ _ _ _ _ _⟩

end Sys2Proof.Machine
end

section
/-! PROOFS. What a successful PUSCH_TX leaves in HARQ_MEM, WAVE_MEM and GRID_MEM (20_memory.md R82, R83, R88, R100;
40_commands.md R175): the windows of the commit, the sizes of the buffers, of the grid and of the waveform, and the
stored words. -/

namespace Sys2Proof.Machine

/-! ## A command that completes with OK -/

theorem runPuschTx_ok {cmd : TxCommand} {s t : State} (hrun : runPuschTx cmd s = .next t) (hok : t.status.err = .ok) :
    ∃ plan bits out, puschPlan cmd s = .ok plan ∧ readTxBits cmd.ndi s.inputs = some bits ∧
      txPipeline cmd s.inputs.regs s.cell plan bits
        (txBuffers cmd.ndi plan.src.seg bits.tb (s.slot plan.target.p)) = .ok out ∧
      t = (commitTx cmd plan out s).complete opcodePuschTx cmd.proc .ok := by
  rcases runPuschTx_cases cmd s with ⟨code, hcode, e⟩ | e | ⟨plan, bits, out, hplan, hbits, hout, e⟩
  all_goals rw [e] at hrun; cases hrun
  · exact absurd hok hcode
  · exact ⟨plan, bits, out, hplan, hbits, hout, rfl⟩

/-! ## The windows of the commit (20_memory.md R80, R100) -/

theorem Memory.reads_writeBytes_at (m : Memory) {base n : Nat} {bs : List Byte} (h : n < bs.length) :
    (m.writeBytes base bs).byteAt (base + n) = bs.getD n 0 ∧ (m.writeBytes base bs).markAt (base + n) = 0xFF := by
  rw [Memory.byteAt_writeBytes, Memory.markAt_writeBytes, if_pos (by omega), if_pos (by omega), Nat.add_sub_cancel_left]
  exact ⟨rfl, rfl⟩

theorem Memory.byteAt_writeBytes_if_above (m : Memory) (c : Bool) {base a : Nat} {bs : List Byte}
    (h : base + bs.length ≤ a) : (if c then m.writeBytes base bs else m).byteAt a = m.byteAt a := by
  split
  · rw [Memory.byteAt_writeBytes, if_neg (by omega)]
  · rfl

/-- Only the grid dump is stored after the HARQ dump, and it lies above. -/
theorem committedMem_harq {cmd : TxCommand} (hdump : cmd.dumpHarq = true) (draw : Nat) (out : TxResult) (mem : Memory)
    {n : Nat} (hn : n < out.harqBytes.length) (hroom : harqBase + n < gridBase) :
    (committedMem cmd draw out mem).byteAt (harqBase + n) = out.harqBytes.getD n 0 ∧
      (committedMem cmd draw out mem).markAt (harqBase + n) = 0xFF := by
  simp only [committedMem, hdump, if_true]
  generalize (if cmd.dumpBits = true then _ else _ : Memory) = m
  obtain ⟨hbyte, hmark⟩ := (m.writeBytes harqBase out.harqBytes).reads_writeBytes_if_below cmd.dumpGrid hroom
    (samplesBytes out.gridEntries (draw + out.wave.length))
  rw [hbyte, hmark]
  exact m.reads_writeBytes_at hn

/-- The grid dump is stored last. -/
theorem committedMem_grid {cmd : TxCommand} (hdump : cmd.dumpGrid = true) (draw : Nat) (out : TxResult) (mem : Memory)
    {n : Nat} (hn : n < (samplesBytes out.gridEntries (draw + out.wave.length)).length) :
    (committedMem cmd draw out mem).byteAt (gridBase + n) =
      (samplesBytes out.gridEntries (draw + out.wave.length)).getD n 0 := by
  simp only [committedMem, hdump, if_true]
  exact (Memory.reads_writeBytes_at _ hn).1

/-- The samples of WAVE_MEM are stored first; dumps of at most the sizes of their memories lie below. -/
theorem committedMem_wave (cmd : TxCommand) (draw : Nat) (out : TxResult) (mem : Memory)
    (hbits : BitMem.bits.base + (packBits out.f).length ≤ waveBase) (hharq : harqBase + out.harqBytes.length ≤ waveBase)
    (hgrid : gridBase + (samplesBytes out.gridEntries (draw + out.wave.length)).length ≤ waveBase) {n : Nat}
    (hn : n < (samplesBytes out.waveEntries draw).length) :
    (committedMem cmd draw out mem).byteAt (waveBase + n) = (samplesBytes out.waveEntries draw).getD n 0 := by
  unfold committedMem
  simp only
  rw [Memory.byteAt_writeBytes_if_above _ _ (by omega), Memory.byteAt_writeBytes_if_above _ _ (by omega),
    Memory.byteAt_writeBytes_if_above _ _ (by omega)]
  exact (Memory.reads_writeBytes_at _ hn).1

/-! ## HARQ_MEM (20_memory.md R83) -/

/-- The buffers of a legal transport block fit HARQ_MEM: at most 13 of them, of at most 3·6176 entries. -/
theorem BuffersOf.length_flatten_le {seg : Segmentation} {w : List (List Trit)} {b : Nat} (h : BuffersOf seg w b) :
    w.flatten.length ≤ harqSize := by
  have hblocks : w.length = seg.c := by simpa [Segmentation.blockSizes] using congrArg List.length h.lengths
  have hcount : w.length ≤ 13 := by
    rw [hblocks, h.seg_eq]
    exact segmentation_c_le h.legal.2
  have hsize : ∀ n ∈ w.map List.length, n ≤ 18528 := by
    rw [h.lengths, Segmentation.blockSizes, List.map_map, h.seg_eq]
    intro n hn
    obtain ⟨r, -, rfl⟩ := List.mem_map.1 hn
    have := kPi_le (blockSize_segmentation_le b r)
    simp only [Function.comp]
    omega
  have hsum := List.sum_le_card_nsmul _ _ hsize
  rw [List.length_map, smul_eq_mul] at hsum
  rw [List.length_flatten, harqSize]
  omega

@[simp] theorem TxResult.length_harqBytes (out : TxResult) : out.harqBytes.length = out.w.flatten.length := by
  rw [TxResult.harqBytes, List.length_map]

/-- The committed slot holds the buffers and the segmentation that the transmission worked with (40_commands.md R170,
R171). -/
theorem committedSlot_buffers {cmd : TxCommand} {s : State} {plan : TxPlan} {bits : TxBits}
    (hplan : puschPlan cmd s = .ok plan) :
    (committedSlot cmd s.inputs.regs plan (txBuffers cmd.ndi plan.src.seg bits.tb (s.slot plan.target.p))
        (s.slot plan.target.p)).w = txBuffers cmd.ndi plan.src.seg bits.tb (s.slot plan.target.p) ∧
      (committedSlot cmd s.inputs.regs plan (txBuffers cmd.ndi plan.src.seg bits.tb (s.slot plan.target.p))
        (s.slot plan.target.p)).seg = plan.src.seg := by
  obtain ⟨-, hsrc, -⟩ := puschPlan_eq_ok hplan
  cases hn : cmd.ndi with
  | true =>
    simp only [committedSlot, hn, if_true, and_self]
  | false =>
    rw [hn] at hsrc
    simp only [committedSlot, hn, Bool.false_eq_true, if_false, hsrc]
    exact ⟨rfl, rfl⟩

/-- Settles O24: the commit stores the buffers that the slot then holds, entry by entry, and no later store reaches
them. -/
theorem harqDumpEncoding : Obligations.HarqDumpEncoding := by
  intro s t cmd p hlegal hfit hdump hp hrun hok
  obtain ⟨plan, bits, out, hplan, hbits, hout, rfl⟩ := runPuschTx_ok hrun hok
  obtain ⟨b, hbuf⟩ := puschTx_buffers hlegal hfit hplan hbits
  obtain ⟨hw, -⟩ := txPipeline_eq_ok hout
  obtain ⟨hslotw, hslotseg⟩ := committedSlot_buffers (bits := bits) hplan
  obtain rfl : p = plan.target.p := Fin.ext (hp.trans (procIndex_eq_some_iff.1 (puschPlan_proc hplan)).symm)
  rw [← hw] at hbuf hslotw hslotseg
  have hlen := hbuf.length_flatten_le
  rw [harqSize] at hlen
  rw [State.slot_complete, slot_commitTx, hslotw, hslotseg]
  refine ⟨hbuf.lengths, ?_, fun n e he => ?_⟩
  · simp only [State.complete_lens, commitTx_lens, committedLens, hdump, if_true, TxResult.length_harqBytes]
    rw [BitVec.toNat_ofNat]
    exact Nat.mod_eq_of_lt (by omega)
  · obtain ⟨hn, -⟩ := List.getElem?_eq_some_iff.1 he
    obtain ⟨hbyte, hmark⟩ := committedMem_harq hdump s.draws out s.mem (n := n)
      (by rwa [TxResult.length_harqBytes]) (by simp only [harqBase, gridBase]; omega)
    have hentry : out.harqBytes.getD n 0 = tritByte e := by
      rw [List.getD_eq_getElem?_getD, TxResult.harqBytes, List.getElem?_map, he]
      rfl
    rw [hentry] at hbyte
    refine ⟨hbyte.trans ?_, hmark⟩
    match e with
    | none => rfl
    | some false => rfl
    | some true => rfl

/-! ## Stored samples (20_memory.md R82, R88) -/

theorem wordOfBytes_wordBytes (w : Word) : wordOfBytes (wordBytes w) = w := by
  apply BitVec.eq_of_getLsbD_eq
  intro j hj
  rw [getLsbD_wordOfBytes _ hj, getD_wordBytes w (by omega), BitVec.getLsbD_extractLsb', Nat.div_add_mod]
  simp [Nat.mod_lt]

theorem Memory.wordAt_eq {mem : Memory} {a : Nat} {w : Word}
    (h : ∀ i, i < 4 → mem.byteAt (a + i) = (wordBytes w).getD i 0) : mem.wordAt a = w := by
  have hbytes : [mem.byteAt a, mem.byteAt (a + 1), mem.byteAt (a + 2), mem.byteAt (a + 3)] = wordBytes w := by
    rw [show mem.byteAt a = _ from h 0 (by decide), h 1 (by decide), h 2 (by decide), h 3 (by decide)]
    rfl
  rw [Memory.wordAt, hbytes, wordOfBytes_wordBytes]

@[simp] theorem length_sampleBytes (x : SampleValue) (draw : Nat) : (sampleBytes x draw).length = 8 := rfl

@[simp] theorem length_samplesBytes (xs : List SampleValue) (draw : Nat) :
    (samplesBytes xs draw).length = 8 * xs.length := by
  induction xs generalizing draw with
  | nil => rfl
  | cons x xs ih => rw [samplesBytes, List.length_append, ih, length_sampleBytes, List.length_cons]; omega

/-- Sample n stands in bytes 8n to 8n + 7. -/
theorem getD_samplesBytes {xs : List SampleValue} {n : Nat} {x : SampleValue} (h : xs[n]? = some x) (draw : Nat)
    {k : Nat} (hk : k < 8) : (samplesBytes xs draw).getD (8 * n + k) 0 = (sampleBytes x (draw + n)).getD k 0 := by
  induction xs generalizing n draw with
  | nil => simp at h
  | cons y ys ih =>
    cases n with
    | zero =>
      obtain rfl : y = x := by simpa using h
      rw [samplesBytes, Nat.mul_zero, Nat.zero_add, List.getD_append _ _ _ _ hk, Nat.add_zero]
    | succ n =>
      rw [samplesBytes, List.getD_append_right _ _ _ _ (by rw [length_sampleBytes]; omega), length_sampleBytes,
        show 8 * (n + 1) + k - 8 = 8 * n + k by omega, ih (by simpa using h), Nat.add_right_comm, Nat.add_assoc]

/-- Eight stored bytes of a value that the PTC stores hold it: both words finite and within EPS_SAMPLE. -/
theorem Memory.holdsSample_of_bytes {mem : Memory} {base n draw : Nat} {x : SampleValue} (hx : x.stored)
    (h : ∀ k, k < 8 → mem.byteAt (base + (8 * n + k)) = (sampleBytes x draw).getD k 0) : mem.holdsSample base n x := by
  have hre : mem.wordAt (base + 8 * n) = sampleFormat.store x .re draw := Memory.wordAt_eq fun i hi => by
    rw [Nat.add_assoc, h i (by omega)]
    exact List.getD_append _ _ _ _ hi
  have him : mem.wordAt (base + 8 * n + 4) = sampleFormat.store x .im draw := Memory.wordAt_eq fun i hi => by
    rw [Nat.add_assoc, Nat.add_assoc, ← Nat.add_assoc (8 * n), Nat.add_assoc (8 * n), h (4 + i) (by omega)]
    refine (List.getD_append_right _ _ _ _ (Nat.le_add_right 4 i)).trans ?_
    exact congrArg (List.getD _ · 0) (Nat.add_sub_cancel_left 4 i)
  intro part w
  have hw : w = sampleFormat.store x part draw := by
    cases part
    · exact hre
    · exact him
  rw [hw]
  exact ⟨sampleFormat.finite x part draw, sampleFormat.close x part draw hx⟩

/-! ## The sizes of grid and waveform (46_grid_mapper.md R365; 47_waveform.md R386) -/

@[simp] theorem length_mapToGrid (norm : Nat) (points : List Point) (rbStart nPrb : Nat) (cell : CellConfig) :
    (mapToGrid norm points rbStart nPrb cell).length = 2 * cell.cp.nSymb := by
  simp [mapToGrid]

theorem length_getD_pointBlocks_le (m count : Nat) (points : List Point) (c : Nat) :
    ((pointBlocks m count points).getD c []).length ≤ m := by
  rcases Nat.lt_or_ge c (pointBlocks m count points).length with h | h
  · rw [List.getD_eq_getElem _ _ h]
    exact (mem_pointBlocks (List.getElem_mem h)).1
  · rw [List.getD_eq_default _ _ h]
    exact Nat.zero_le m

/-- An allocation inside the bandwidth leaves columns of N_sc elements. -/
theorem length_of_mem_mapToGrid {norm : Nat} {points : List Point} {rbStart nPrb : Nat} {cell : CellConfig}
    (hfit : rbStart + nPrb ≤ cell.nRb.nRb) {column : List GridValue}
    (h : column ∈ mapToGrid norm points rbStart nPrb cell) : column.length = cell.nRb.nSc := by
  obtain ⟨l, -, rfl⟩ := List.mem_map.1 h
  cases (dataSymbols cell.cp).idxOf? l with
  | none => simp [emptyColumn]
  | some c =>
    have hblock := length_getD_pointBlocks_le (12 * nPrb) cell.cp.nSymbPusch points c
    simp only [dataColumn, precodeBlock, List.length_append, List.length_replicate, List.length_map,
      List.length_range, Bandwidth.nSc]
    omega

theorem length_synthesizeFrom (cp : CyclicPrefix) (nfft l : Nat) (columns : List (List GridValue)) :
    (synthesizeFrom cp nfft l columns).length =
      ((List.range' l columns.length).map fun i => cpLength cp nfft i + nfft).sum := by
  induction columns generalizing l with
  | nil => rfl
  | cons column columns ih =>
    rw [synthesizeFrom, List.length_append, ih, List.length_cons, List.range'_succ, List.map_cons, List.sum_cons]
    simp [symbolSamples]

/-- A subframe has 15·NFFT samples: 14 symbols in the normal mode, 12 in the extended one. -/
theorem length_synthesize {grid : List (List GridValue)} {cell : CellConfig} (h : grid.length = 2 * cell.cp.nSymb) :
    (synthesize grid cell).length = 15 * cell.nRb.nfft := by
  rw [synthesize, length_synthesizeFrom, h]
  cases cell.cp <;> cases cell.nRb <;> decide

/-- Entry k of list l in the concatenation of lists of n entries. -/
theorem getElem?_flatten_uniform {α : Type} {n : Nat} {ls : List (List α)} (hlen : ∀ xs ∈ ls, xs.length = n)
    {l k : Nat} {xs : List α} (hxs : ls[l]? = some xs) {x : α} (hx : xs[k]? = some x) :
    ls.flatten[l * n + k]? = some x := by
  induction ls generalizing l with
  | nil => simp at hxs
  | cons ys ls ih =>
    have hys : ys.length = n := hlen ys List.mem_cons_self
    cases l with
    | zero =>
      obtain rfl : ys = xs := by simpa using hxs
      rw [List.flatten_cons, Nat.zero_mul, Nat.zero_add,
        List.getElem?_append_left (List.getElem?_eq_some_iff.1 hx).1, hx]
    | succ l =>
      have hsplit : (l + 1) * n + k = n + (l * n + k) := by ring
      rw [List.flatten_cons, hsplit, List.getElem?_append_right (by omega), hys, Nat.add_sub_cancel_left]
      exact ih (fun zs hzs => hlen zs (List.mem_cons_of_mem _ hzs)) (by simpa using hxs)

theorem length_flatten_uniform {α : Type} {n : Nat} {ls : List (List α)} (hlen : ∀ xs ∈ ls, xs.length = n) :
    ls.flatten.length = ls.length * n := by
  rw [List.length_flatten, List.map_congr_left hlen]
  simp

/-- The sizes of what the stages of a planned command give: they fit the memories of the dumps and of the waveform. -/
structure TxResult.Fits (out : TxResult) (cell : CellConfig) : Prop where
  bits : out.f.length < 2 ^ 20
  harq : out.w.flatten.length ≤ harqSize
  columns : out.grid.length = 2 * cell.cp.nSymb
  column : ∀ column ∈ out.grid, column.length = cell.nRb.nSc
  wave : out.wave.length = 15 * cell.nRb.nfft

theorem puschPlan_alloc_fits {cmd : TxCommand} {s : State} {plan : TxPlan} (h : puschPlan cmd s = .ok plan) :
    (rbStartOf s.inputs.regs.alloc).toNat + (nPrbOf s.inputs.regs.alloc).toNat ≤ s.cell.nRb.nRb := by
  obtain ⟨htarget, -⟩ := puschPlan_eq_ok h
  obtain ⟨-, -, -, -, halloc, -⟩ := puschTarget_eq_some_iff.1 htarget
  simp only [legalAlloc, Bool.and_eq_true, decide_eq_true_eq] at halloc
  exact halloc.1.2

theorem txPipeline_fits {cmd : TxCommand} {s : State} {plan : TxPlan} {bits : TxBits} {out : TxResult}
    (hlegal : s.slotsLegal) (hfit : s.buffersFit) (hplan : puschPlan cmd s = .ok plan)
    (hbits : readTxBits cmd.ndi s.inputs = some bits)
    (hout : txPipeline cmd s.inputs.regs s.cell plan bits
      (txBuffers cmd.ndi plan.src.seg bits.tb (s.slot plan.target.p)) = .ok out) : out.Fits s.cell := by
  obtain ⟨b, hbuf⟩ := puschTx_buffers hlegal hfit hplan hbits
  obtain ⟨-, -, hsizes, -⟩ := puschPlan_eq_ok hplan
  obtain ⟨hw, hf, points, -, hgrid, hwave⟩ := txPipeline_eq_ok hout
  have hcolumns : out.grid.length = 2 * s.cell.cp.nSymb := by rw [hgrid, length_mapToGrid]
  refine ⟨?_, ?_, hcolumns, fun column hcolumn => ?_, ?_⟩
  · rw [hf, hsizes, length_rateMatch_buffers hbuf, ← hsizes]
    exact puschPlan_g_lt hplan
  · rw [hw]
    exact hbuf.length_flatten_le
  · rw [hgrid] at hcolumn
    exact length_of_mem_mapToGrid (puschPlan_alloc_fits hplan) hcolumn
  · rw [hwave]
    exact length_synthesize hcolumns

theorem TxResult.Fits.length_gridEntries_le {out : TxResult} {cell : CellConfig} (h : out.Fits cell) :
    out.gridEntries.length ≤ 16800 := by
  rw [TxResult.gridEntries, List.length_map, length_flatten_uniform h.column, h.columns]
  cases cell.cp <;> cases cell.nRb <;> decide

/-! ## What the commit leaves in the sample memories -/

theorem committedMem_holds_wave {out : TxResult} {cell : CellConfig} (h : out.Fits cell) (cmd : TxCommand) (draw : Nat)
    (mem : Memory) {n : Nat} {x : SampleValue} (hx : out.waveEntries[n]? = some x) (hstored : x.stored) :
    (committedMem cmd draw out mem).holdsSample waveBase n x := by
  have hn : n < out.waveEntries.length := (List.getElem?_eq_some_iff.1 hx).1
  have hbits := h.bits
  have hharq := h.harq
  have hgrid := h.length_gridEntries_le
  refine Memory.holdsSample_of_bytes (draw := draw + n) hstored fun k hk => ?_
  rw [committedMem_wave cmd draw out mem _ _ _ (by rw [length_samplesBytes]; omega), getD_samplesBytes hx draw hk]
  · rw [length_packBits]
    simp only [BitMem.base, waveBase]
    omega
  · rw [TxResult.length_harqBytes]
    simp only [harqSize] at hharq
    simp only [harqBase, waveBase]
    omega
  · rw [length_samplesBytes]
    simp only [gridBase, waveBase]
    omega

theorem committedMem_holds_grid {cmd : TxCommand} (hdump : cmd.dumpGrid = true) (draw : Nat) {out : TxResult}
    (mem : Memory) {n : Nat} {x : SampleValue} (hx : out.gridEntries[n]? = some x) (hstored : x.stored) :
    (committedMem cmd draw out mem).holdsSample gridBase n x := by
  have hn : n < out.gridEntries.length := (List.getElem?_eq_some_iff.1 hx).1
  refine Memory.holdsSample_of_bytes (draw := draw + out.wave.length + n) hstored fun k hk => ?_
  rw [committedMem_grid hdump draw out mem (by rw [length_samplesBytes]; omega), getD_samplesBytes hx _ hk]

/-- Settles O22: the stored values are those that the sample format is close to, and each memory holds its own. -/
theorem storedSamplesAreExact : Obligations.StoredSamplesAreExact := by
  intro s t cmd hcell hlegal hfit hfilled hrun hok
  obtain ⟨plan, bits, out, hplan, hbits, hout, rfl⟩ := runPuschTx_ok hrun hok
  have hfits := txPipeline_fits hlegal hfit hplan hbits hout
  have hstored : ∀ x, x ∈ out.waveEntries ∨ x ∈ out.gridEntries → x.stored := fun x hx =>
    ⟨s, cmd, plan, bits, out, hcell (puschPlan_configured hplan), hfilled, hplan, hbits, hout, hx⟩
  rw [State.complete_mem, commitTx_mem]
  refine ⟨plan, bits, out, hplan, hbits, hout, hfits.wave, fun n x hx => ?_, fun hdump => ⟨hfits.columns,
    fun l k column g hcolumn hg => ⟨hfits.column column (List.mem_of_getElem? hcolumn), ?_⟩⟩⟩
  · have hentry : out.waveEntries[n]? = some (.wave x) := by rw [TxResult.waveEntries, List.getElem?_map, hx]; rfl
    exact committedMem_holds_wave hfits cmd _ _ hentry (hstored _ (.inl (List.mem_of_getElem? hentry)))
  · have hentry : out.gridEntries[l * s.cell.nRb.nSc + k]? = some (.grid g) := by
      rw [TxResult.gridEntries, List.getElem?_map, getElem?_flatten_uniform hfits.column hcolumn hg]
      rfl
    exact committedMem_holds_grid hdump _ _ hentry (hstored _ (.inr (List.mem_of_getElem? hentry)))

end Sys2Proof.Machine
end

section
/-! PROOFS. The command words (30_encoding.md R110 to R115, R130): the pieces a word is cut into and put together from,
the round trips between words and commands, and the words that no command has. -/

namespace Sys2Proof.Machine

/-! ## The pieces of a word (R110) -/

/-- Bits [19:0], below PROC: what `Instr.lowBits` fills. -/
def lowField (w : Word) : BitVec 20 := w.extractLsb' 0 20

theorem word_eq_fields (w : Word) : opcodeField w ++ procField w ++ lowField w = w := by
  have hhigh : opcodeField w ++ procField w = w.extractLsb' 20 12 :=
    BitVec.extractLsb'_append_extractLsb'_eq_extractLsb' (by decide)
  rw [hhigh]
  exact BitVec.extractLsb'_append_extractLsb' (w := 12) (len := 20)

theorem lowField_append (op : BitVec 8) (proc : BitVec 4) (low : BitVec 20) : lowField (op ++ proc ++ low) = low :=
  BitVec.extractLsb'_append_eq_right

/-- The low 20 bits piece by piece, the reserved bit 16 and bits [6:0] included. -/
theorem lowField_eq_fields (w : Word) :
    lowField w = rvField w ++ BitVec.ofBool (ndiField w) ++ w.extractLsb' 16 1 ++ modField w ++ sfField w ++
      BitVec.ofBool (dumpGridField w) ++ BitVec.ofBool (dumpBitsField w) ++ BitVec.ofBool (dumpHarqField w) ++
      w.extractLsb' 0 7 := by
  have hbit (k : Nat) : BitVec.ofBool (w.getLsbD k) = w.extractLsb' k 1 := by
    rw [BitVec.getLsbD_eq_extractLsb']
    generalize w.extractLsb' k 1 = b
    revert b
    decide
  simp only [lowField, rvField, ndiField, modField, sfField, dumpGridField, dumpBitsField, dumpHarqField, hbit]
  repeat rw [BitVec.extractLsb'_append_extractLsb'_eq_extractLsb' (by decide)]

theorem append_inj {m n : Nat} {x x' : BitVec m} {y y' : BitVec n} (h : x ++ y = x' ++ y') : x = x' ∧ y = y' := by
  obtain rfl : y = y' := by simpa only [BitVec.extractLsb'_append_eq_right] using congrArg (BitVec.extractLsb' 0 n) h
  exact ⟨(BitVec.append_left_inj y).1 h, rfl⟩

/-! ## The unused bits, as pieces (R112) -/

theorem append_and_append_eq_zero {m n : Nat} {x x' : BitVec m} {y y' : BitVec n} :
    (x ++ y) &&& (x' ++ y') = 0 ↔ x &&& x' = 0 ∧ y &&& y' = 0 := by
  rw [BitVec.and_append]
  refine ⟨fun h => append_inj (h.trans BitVec.zero_append_zero.symm), fun ⟨hx, hy⟩ => ?_⟩
  rw [hx, hy]
  exact BitVec.zero_append_zero

theorem and_unusedMaskProc {w : Word} : w &&& unusedMaskProc = 0 ↔ lowField w = 0 := by
  have hmask : unusedMaskProc = (0 : BitVec 8) ++ (0 : BitVec 4) ++ BitVec.allOnes 20 := by decide
  conv_lhs => rw [← word_eq_fields w, hmask]
  rw [append_and_append_eq_zero, append_and_append_eq_zero]
  simp only [BitVec.ofNat_eq_ofNat, BitVec.and_zero, BitVec.and_allOnes, true_and]

theorem and_unusedMaskNone {w : Word} : w &&& unusedMaskNone = 0 ↔ procField w = 0 ∧ lowField w = 0 := by
  have hmask : unusedMaskNone = (0 : BitVec 8) ++ BitVec.allOnes 4 ++ BitVec.allOnes 20 := by decide
  conv_lhs => rw [← word_eq_fields w, hmask]
  rw [append_and_append_eq_zero, append_and_append_eq_zero]
  simp only [BitVec.ofNat_eq_ofNat, BitVec.and_zero, BitVec.and_allOnes, true_and]

/-- The mask of PUSCH_TX reaches the reserved bit 16 and bits [6:0]. -/
theorem and_unusedMaskPusch {w : Word} :
    w &&& unusedMaskPusch = 0 ↔ w.extractLsb' 16 1 = 0 ∧ w.extractLsb' 0 7 = 0 := by
  have hmask : unusedMaskPusch = (0 : BitVec 8) ++ (0 : BitVec 4) ++ ((0 : BitVec 2) ++ (0 : BitVec 1) ++
      BitVec.allOnes 1 ++ (0 : BitVec 2) ++ (0 : BitVec 4) ++ (0 : BitVec 1) ++ (0 : BitVec 1) ++ (0 : BitVec 1) ++
      BitVec.allOnes 7) := by decide
  conv_lhs => rw [← word_eq_fields w, lowField_eq_fields, hmask]
  repeat rw [append_and_append_eq_zero]
  simp only [BitVec.ofNat_eq_ofNat, BitVec.and_zero, BitVec.and_allOnes, true_and, and_true]

/-! ## The round trips (R113, R130) -/

/-- The five rows of the opcode table say exactly when the decoder accepts a word, and what it reads. -/
theorem decode_eq_ok_iff {w : Word} {i : Instr} : decode w = .ok i ↔
    (i = .nop ∧ opcodeField w = opcodeNop ∧ w &&& unusedMaskNone = 0) ∨
      (i = .cellConfig ∧ opcodeField w = opcodeCellConfig ∧ w &&& unusedMaskNone = 0) ∨
      (i = .procConfig (procField w) ∧ opcodeField w = opcodeProcConfig ∧ w &&& unusedMaskProc = 0) ∨
      (i = .procFlush (procField w) ∧ opcodeField w = opcodeProcFlush ∧ w &&& unusedMaskProc = 0) ∨
      (i = .puschTx (procField w) (rvField w) (ndiField w) (modField w) (sfField w) (dumpGridField w)
          (dumpBitsField w) (dumpHarqField w) ∧ opcodeField w = opcodePuschTx ∧ w &&& unusedMaskPusch = 0) := by
  refine ⟨decode_eq_ok, ?_⟩
  rintro (⟨rfl, hop, hunused⟩ | ⟨rfl, hop, hunused⟩ | ⟨rfl, hop, hunused⟩ | ⟨rfl, hop, hunused⟩ | ⟨rfl, hop, hunused⟩)
  all_goals
    rw [decode, hop, hunused]
    rfl

theorem lowField_encode (i : Instr) : lowField (encode i) = i.lowBits := lowField_append _ _ _

/-- The low bits of a PUSCH_TX, cut again, give the pieces they were put together from. -/
theorem fields_of_lowField_puschTx {w : Word} {proc : BitVec 4} {rv : BitVec 2} {ndi : Bool} {mod : BitVec 2}
    {sf : BitVec 4} {dg db dh : Bool} (h : lowField w = (Instr.puschTx proc rv ndi mod sf dg db dh).lowBits) :
    rvField w = rv ∧ ndiField w = ndi ∧ w.extractLsb' 16 1 = 0 ∧ modField w = mod ∧ sfField w = sf ∧
      dumpGridField w = dg ∧ dumpBitsField w = db ∧ dumpHarqField w = dh ∧ w.extractLsb' 0 7 = 0 := by
  rw [lowField_eq_fields] at h
  obtain ⟨h, hlast⟩ := append_inj h
  obtain ⟨h, hdh⟩ := append_inj h
  obtain ⟨h, hdb⟩ := append_inj h
  obtain ⟨h, hdg⟩ := append_inj h
  obtain ⟨h, hsf⟩ := append_inj h
  obtain ⟨h, hmod⟩ := append_inj h
  obtain ⟨h, hres⟩ := append_inj h
  obtain ⟨hrv, hndi⟩ := append_inj h
  rw [BitVec.ofBool_eq_iff_eq] at hndi hdg hdb hdh
  exact ⟨hrv, hndi, hres, hmod, hsf, hdg, hdb, hdh, hlast⟩

/-- Settles O1: the word of each command is of that command's row, and its fields read back the pieces put in. -/
theorem decodeEncode : Obligations.DecodeEncode := by
  intro i
  obtain ⟨hop, hproc⟩ := Laws.EncodeFields.holds i
  have hlow := lowField_encode i
  rw [decode_eq_ok_iff, and_unusedMaskNone, and_unusedMaskProc, and_unusedMaskPusch]
  cases i with
  | nop => exact .inl ⟨rfl, hop, hproc, hlow⟩
  | cellConfig => exact .inr (.inl ⟨rfl, hop, hproc, hlow⟩)
  | procConfig proc => exact .inr (.inr (.inl ⟨congrArg _ hproc.symm, hop, hlow⟩))
  | procFlush proc => exact .inr (.inr (.inr (.inl ⟨congrArg _ hproc.symm, hop, hlow⟩)))
  | puschTx proc rv ndi mod sf dg db dh =>
    obtain ⟨hrv, hndi, hres, hmod, hsf, hdg, hdb, hdh, hlast⟩ := fields_of_lowField_puschTx hlow
    refine .inr (.inr (.inr (.inr ⟨?_, hop, hres, hlast⟩)))
    rw [hproc, hrv, hndi, hmod, hsf, hdg, hdb, hdh]
    rfl

/-- A word that decodes has the low bits of its command. -/
theorem lowField_of_decode {w : Word} {i : Instr} (h : decode w = .ok i) : lowField w = i.lowBits := by
  rw [decode_eq_ok_iff, and_unusedMaskNone, and_unusedMaskProc, and_unusedMaskPusch] at h
  rcases h with ⟨rfl, -, -, hlow⟩ | ⟨rfl, -, -, hlow⟩ | ⟨rfl, -, hlow⟩ | ⟨rfl, -, hlow⟩ | ⟨rfl, -, hres, hlast⟩
  · exact hlow
  · exact hlow
  · exact hlow
  · exact hlow
  · rw [lowField_eq_fields, hres, hlast]
    rfl

/-- Settles O2: a word is its OPCODE, PROC and low bits, and the three are those of the command it decodes to. -/
theorem encodeDecode : Obligations.EncodeDecode := by
  intro w i h
  obtain ⟨hop, hproc⟩ := decode_fields h
  rw [← word_eq_fields w, hop, hproc, lowField_of_decode h]
  rfl

theorem decode_of_encode_eq {w : Word} {i : Instr} (h : encode i = w) : decode w = .ok i :=
  h ▸ decodeEncode i

/-- Settles O3: each word is the one its command encodes to. -/
theorem decodeSpecWords : Obligations.DecodeSpecWords :=
  ⟨decode_of_encode_eq (by decide), decode_of_encode_eq (by decide), decode_of_encode_eq (by decide),
    decode_of_encode_eq (by decide), decode_of_encode_eq (by decide), decode_of_encode_eq (by decide),
    decode_of_encode_eq (by decide)⟩

/-! ## Legal words (R112, R114) -/

/-- R112 and R114 in the names of the decoder's fields. -/
theorem illegalWord_iff {w : Word} : IllegalWord w ↔
    opcodeField w ∉ [opcodeNop, opcodeCellConfig, opcodeProcConfig, opcodeProcFlush, opcodePuschTx] ∨
      ((opcodeField w = opcodeNop ∨ opcodeField w = opcodeCellConfig) ∧ w &&& unusedMaskNone ≠ 0) ∨
      ((opcodeField w = opcodeProcConfig ∨ opcodeField w = opcodeProcFlush) ∧ w &&& unusedMaskProc ≠ 0) ∨
      (opcodeField w = opcodePuschTx ∧ w &&& unusedMaskPusch ≠ 0) ∨
      (opcodeField w = opcodePuschTx ∧ (modField w = 3 ∨ 10 ≤ (sfField w).toNat)) ∨
      ((opcodeField w = opcodeProcConfig ∨ opcodeField w = opcodeProcFlush ∨ opcodeField w = opcodePuschTx) ∧
        8 ≤ (procField w).toNat) := Iff.rfl

/-- A legal word, once per row of the opcode table: its unused bits are 0 and its fields in range. -/
theorem legalWord_iff {w : Word} : ¬ IllegalWord w ↔
    (opcodeField w = opcodeNop ∧ w &&& unusedMaskNone = 0) ∨
      (opcodeField w = opcodeCellConfig ∧ w &&& unusedMaskNone = 0) ∨
      (opcodeField w = opcodeProcConfig ∧ w &&& unusedMaskProc = 0 ∧ procInRange (procField w)) ∨
      (opcodeField w = opcodeProcFlush ∧ w &&& unusedMaskProc = 0 ∧ procInRange (procField w)) ∨
      (opcodeField w = opcodePuschTx ∧ w &&& unusedMaskPusch = 0 ∧
        (procInRange (procField w) && modInRange (modField w) && sfInRange (sfField w))) := by
  simp only [procInRange, modInRange, sfInRange, Bool.and_eq_true, decide_eq_true_eq]
  constructor
  · intro h
    rw [illegalWord_iff] at h
    push Not at h
    obtain ⟨hop, hnone, hproc, hpusch, hfields, hslot⟩ := h
    simp only [List.mem_cons, List.not_mem_nil, or_false] at hop
    rcases hop with hop | hop | hop | hop | hop
    · exact .inl ⟨hop, hnone (.inl hop)⟩
    · exact .inr (.inl ⟨hop, hnone (.inr hop)⟩)
    · exact .inr (.inr (.inl ⟨hop, hproc (.inl hop), hslot (.inl hop)⟩))
    · exact .inr (.inr (.inr (.inl ⟨hop, hproc (.inr hop), hslot (.inr (.inl hop))⟩)))
    · exact .inr (.inr (.inr (.inr ⟨hop, hpusch hop, ⟨hslot (.inr (.inr hop)), (hfields hop).1⟩, (hfields hop).2⟩)))
  · rintro (⟨hop, hunused⟩ | ⟨hop, hunused⟩ | ⟨hop, hunused, hslot⟩ | ⟨hop, hunused, hslot⟩ |
      ⟨hop, hunused, ⟨hslot, (hmod : ¬ modField w = 3#2)⟩, hsf⟩)
    all_goals
      rw [illegalWord_iff, hop]
      simp [*, opcodeNop, opcodeCellConfig, opcodeProcConfig, opcodeProcFlush, opcodePuschTx]

/-- Settles O5: the rows of the legal words are those of the decoder, with the ranges of `Instr.wellFormed`. -/
theorem legalWordDecodes : Obligations.LegalWordDecodes := by
  intro w
  simp only [legalWord_iff, decode_eq_ok_iff, or_and_right, exists_or, and_assoc, exists_eq_left, Instr.wellFormed,
    and_true]

/-! ## An illegal word fails (R112, R114; 40_commands.md R149) -/

/-- A PUSCH_TX that passes validation has its fields in range (40_commands.md R159). -/
theorem wellFormed_of_puschTarget {proc : BitVec 4} {rv : BitVec 2} {ndi : Bool} {mod : BitVec 2} {sf : BitVec 4}
    {dg db dh : Bool} {regs : ArgRegs} {cell : CellConfig} {t : TxTarget}
    (h : puschTarget ⟨proc, rv, ndi, mod, sf, dg, db, dh⟩ regs cell = some t) :
    (Instr.puschTx proc rv ndi mod sf dg db dh).wellFormed = true := by
  obtain ⟨hp, hm, hsf, -⟩ := puschTarget_eq_some_iff.1 h
  have hslot : proc.toNat < 8 := procIndex_eq_some_iff.1 hp ▸ t.p.isLt
  have hmod : mod ≠ 3 := fun hmod => by cases (modulationOf_eq_none_iff.2 hmod).symm.trans hm
  simp only [Instr.wellFormed, Bool.and_eq_true, decide_eq_true_eq]
  exact ⟨⟨hslot, hmod⟩, hsf⟩

/-- A command with a field out of range fails, whatever the state: no check comes before that of R114 (60_exceptions.md
R402). -/
theorem exec_of_not_wellFormed {i : Instr} (h : i.wellFormed = false) (s : State) :
    exec i s = s.raiseErr i.opcode i.procBits .invalidConfiguration := by
  cases i with
  | nop => cases h
  | cellConfig => cases h
  | procConfig proc =>
    have hp : procIndex proc = none := procIndex_eq_none_iff.2 (by simpa [Instr.wellFormed] using h)
    simp only [exec, execProcConfig, hp]
    rfl
  | procFlush proc =>
    have hp : procIndex proc = none := procIndex_eq_none_iff.2 (by simpa [Instr.wellFormed] using h)
    simp only [exec, execProcFlush, hp]
    rfl
  | puschTx proc rv ndi mod sf dg db dh =>
    have ht : puschTarget ⟨proc, rv, ndi, mod, sf, dg, db, dh⟩ s.inputs.regs s.cell = none :=
      Option.eq_none_iff_forall_ne_some.2 fun t ht => Bool.eq_false_iff.1 h (wellFormed_of_puschTarget ht)
    have ha : puschAdmit ⟨proc, rv, ndi, mod, sf, dg, db, dh⟩ s = .error .invalidConfiguration := by
      rw [puschAdmit, ht]
    simp only [exec, execPuschTx, runPuschTx, ha]
    rfl

theorem ptcTurn_of_decode_error {s : State} {w : Word} {e : DecodeError} (hp : s.pending = some w)
    (he : decode w = .error e) : ptcTurn s = s.raiseErr (opcodeField w) (procField w) .invalidConfiguration := by
  simp only [ptcTurn, hp, he]

/-- Settles O4: the decoder refuses an illegal word, or accepts it as a command with a field out of range. -/
theorem illegalWordFails : Obligations.IllegalWordFails := by
  intro s w hturns hpending hillegal
  suffices h : ptcTurn s = s.raiseErr (opcodeField w) (procField w) .invalidConfiguration from
    (step_of_no_turn hturns).trans h
  cases hdecode : decode w with
  | error e => exact ptcTurn_of_decode_error hpending hdecode
  | ok i =>
    have hform : i.wellFormed = false :=
      Bool.eq_false_iff.2 fun hwf => (legalWordDecodes w).2 ⟨i, hdecode, hwf⟩ hillegal
    obtain ⟨hop, hproc⟩ := decode_fields hdecode
    rw [ptcTurn_of_decode hpending hdecode, exec_of_not_wellFormed hform, hop, hproc]

end Sys2Proof.Machine
end

section
/-! PROOFS. The management commands and the epilogue of every command: a word that is no command's encoding fails, and
each of NOP, CELL_CONFIG, PROC_CONFIG and PROC_FLUSH on its operands (40_commands.md R149 to R156). -/

namespace Sys2Proof.Machine

/-! ## The epilogue (R149) -/

theorem CommandEffect.complete_status {i : Instr} {s u : State} (h : CommandEffect i s u) :
    (u.complete i.opcode i.procBits .ok).status =
      { cmdDropped := s.status.cmdDropped, err := .ok, lastOp := i.opcode, lastProc := i.procBits } := by
  obtain ⟨-, hstatus, -⟩ := h.frame
  rw [State.complete_status, hstatus]

/-- Settles O7: a word that decodes fails or has its effect, any other fails, and each way ends with the epilogue of its
own two fields. -/
theorem completionEpilogue : Obligations.CompletionEpilogue := by
  intro s t w hturns hpending hstep
  rw [step_of_no_turn hturns] at hstep
  have hbusy : ∀ u : State, u.pending = none → u.statusWord.getLsbD 0 = false := fun u hu => by
    rw [(State.getLsbD_statusWord u).1, hu]
    rfl
  rcases ptcTurn_cases hstep with ⟨hidle, -⟩ | ⟨w', i, hw, hi, hexec⟩ | ⟨w', e, hw, -, rfl⟩
  · rw [hpending] at hidle
    cases hidle
  · obtain rfl : w = w' := Option.some.inj (hpending.symm.trans hw)
    obtain ⟨hop, hproc⟩ := decode_fields hi
    rw [show w.extractLsb' 24 8 = i.opcode from hop, show w.extractLsb' 20 4 = i.procBits from hproc]
    rcases exec_cases hexec with ⟨code, -, rfl⟩ | ⟨u, heffect, rfl⟩
    · exact ⟨rfl, rfl, rfl, hbusy _ rfl, rfl, fun _ => rfl⟩
    · rw [heffect.complete_status]
      exact ⟨rfl, rfl, rfl, hbusy _ rfl, rfl, fun hfail => absurd rfl hfail⟩
  · obtain rfl : w = w' := Option.some.inj (hpending.symm.trans hw)
    exact ⟨rfl, rfl, rfl, hbusy _ rfl, rfl, fun _ => rfl⟩

/-! ## A word that encodes no command (30_encoding.md R112, R114) -/

/-- A word that is the encoding of no command of its own OPCODE fails. -/
theorem step_fails_of_not_encoding {s : State} {w : Word} {op : BitVec 8} (hturns : s.turns = [])
    (hpending : s.pending = some w) (hop : w.extractLsb' 24 8 = op) (h : ∀ i : Instr, i.opcode = op → encode i ≠ w) :
    step s = .next (s.recorded op (w.extractLsb' 20 4) .invalidConfiguration) := by
  have hillegal : IllegalWord w := by
    by_contra hlegal
    obtain ⟨i, hi, -⟩ := (legalWordDecodes w).1 hlegal
    obtain ⟨hopcode, -⟩ := decode_fields hi
    exact h i (hopcode.symm.trans hop) (encodeDecode w i hi)
  rw [illegalWordFails s w hturns hpending hillegal, hop]

/-- The OPCODE of a management command names its constructor. -/
theorem instr_of_opcode (i : Instr) :
    (i.opcode = opcodeNop → i = .nop) ∧ (i.opcode = opcodeCellConfig → i = .cellConfig) ∧
      (i.opcode = opcodeProcConfig → ∃ proc, i = .procConfig proc) ∧
      (i.opcode = opcodeProcFlush → ∃ proc, i = .procFlush proc) := by
  cases i <;>
    simp [Instr.opcode, opcodeNop, opcodeCellConfig, opcodeProcConfig, opcodeProcFlush, opcodePuschTx]

/-- The words of PROC_CONFIG and PROC_FLUSH outside their PROC field. -/
theorem encode_procConfig_and (proc : BitVec 4) : encode (.procConfig proc) &&& 0xFF0FFFFF = 0x02000000 := by
  revert proc
  decide

theorem encode_procFlush_and (proc : BitVec 4) : encode (.procFlush proc) &&& 0xFF0FFFFF = 0x03000000 := by
  revert proc
  decide

/-! ## NOP (R150) -/

/-- Settles O9: the epilogue alone, and 0 is the only word of its OPCODE. -/
theorem nopCompletes : Obligations.NopCompletes := by
  refine ⟨fun s => rfl, fun s w hturns hpending hop hw => ?_⟩
  refine step_fails_of_not_encoding hturns hpending hop fun i hi => ?_
  obtain ⟨hnop, -⟩ := instr_of_opcode i
  obtain rfl := hnop hi
  exact hw.symm

/-! ## CELL_CONFIG (30_encoding.md R120; 40_commands.md R152) -/

/-- The code of a port count in CELL_CFG (30_encoding.md R120). -/
def PortCount.code : PortCount → Nat
  | .one => 0
  | .two => 1
  | .four => 2

theorem portsOf_eq_some {cfg : Word} {ports : PortCount} (h : (cfg.extractLsb' 10 2).toNat = ports.code) :
    portsOf cfg = some ports := by
  have hcode : cfg.extractLsb' 10 2 = BitVec.ofNat 2 ports.code := by rw [← h, BitVec.ofNat_toNat, BitVec.setWidth_eq]
  rw [portsOf, hcode]
  cases ports <;> rfl

theorem portsOf_eq_none {cfg : Word} (h : (cfg.extractLsb' 10 2).toNat = 3) : portsOf cfg = none := by
  have hcode : cfg.extractLsb' 10 2 = 3 := BitVec.eq_of_toNat_eq h
  rw [portsOf, hcode]
  rfl

theorem bandwidthOf_eq_some {cfg : Word} {nRb : Bandwidth} (h : (cfg.extractLsb' 16 7).toNat = nRb.nRb) :
    bandwidthOf cfg = some nRb := by
  rw [bandwidthOf, h]
  cases nRb <;> rfl

theorem bandwidthOf_eq_none {cfg : Word} (h : (cfg.extractLsb' 16 7).toNat ∉ [6, 15, 25, 50, 75, 100]) :
    bandwidthOf cfg = none := by
  simp only [List.mem_cons, List.not_mem_nil, or_false, not_or] at h
  obtain ⟨h6, h15, h25, h50, h75, h100⟩ := h
  simp only [bandwidthOf, h6, h15, h25, h50, h75, h100, if_false]

/-- Legal fields describe a cell. -/
theorem cellOf_eq_some {cfg : Word} {ports : PortCount} {nRb : Bandwidth} (hid : (cellIdOf cfg).toNat ≤ 503)
    (hports : portsOf cfg = some ports) (hband : bandwidthOf cfg = some nRb) :
    cellOf cfg = some { configured := true, cellId := cellIdOf cfg, cp := cpOf cfg, nPorts := ports, nRb := nRb } := by
  simp only [cellOf, hid, hports, hband, if_true]

/-- One illegal field is enough to describe none. -/
theorem cellOf_eq_none {cfg : Word}
    (h : 503 < (cellIdOf cfg).toNat ∨ portsOf cfg = none ∨ bandwidthOf cfg = none) : cellOf cfg = none := by
  unfold cellOf
  split
  next hid =>
    split
    next hports hband => simp [hports, hband, Nat.not_lt.2 hid] at h
    next => rfl
  next => rfl

/-- CELL_CONFIG before any other, with legal fields. -/
theorem execCellConfig_of_legal {s : State} {cell : CellConfig} (hs : s.cell.configured = false)
    (hcell : cellOf s.inputs.regs.cellCfg = some cell) :
    exec .cellConfig s = .next { s.recorded opcodeCellConfig 0 .ok with cell := cell } := by
  simp only [exec, execCellConfig, hs, hcell, Bool.false_eq_true, if_false]
  rfl

/-- A second CELL_CONFIG, or one with an illegal field. -/
theorem execCellConfig_of_illegal {s : State}
    (h : s.cell.configured = true ∨ cellOf s.inputs.regs.cellCfg = none) :
    exec .cellConfig s = .next (s.recorded opcodeCellConfig 0 .invalidConfiguration) := by
  simp only [exec, execCellConfig]
  split
  next => rfl
  next hs => rw [h.resolve_left hs]; rfl

/-- Settles O10, from the legal and the illegal fields of CELL_CFG. -/
theorem cellConfigCompletes : Obligations.CellConfigCompletes := by
  refine ⟨fun s ports nRb hs hid hports hband => ?_, fun s h => ?_, fun s w hturns hpending hop hw => ?_⟩
  · have hcode : (s.inputs.regs.cellCfg.extractLsb' 10 2).toNat = ports.code := by
      rw [hports]
      cases ports <;> rfl
    have hcell := cellOf_eq_some hid (portsOf_eq_some hcode) (bandwidthOf_eq_some hband)
    exact ⟨_, execCellConfig_of_legal hs hcell, (State.getLsbD_statusWord _).2.1, rfl⟩
  · refine execCellConfig_of_illegal (h.imp_right fun hfield => cellOf_eq_none ?_)
    exact hfield.imp_right (Or.imp portsOf_eq_none bandwidthOf_eq_none)
  · refine step_fails_of_not_encoding hturns hpending hop fun i hi => ?_
    obtain ⟨-, hcell, -⟩ := instr_of_opcode i
    obtain rfl := hcell hi
    exact hw.symm

/-! ## Legal allocations (30_encoding.md R121) -/

/-- Dividing out a factor leaves the number up to a power of it. -/
theorem exists_pow_mul_stripFactor (p fuel n : Nat) : ∃ a, n = p ^ a * stripFactor p fuel n := by
  induction fuel generalizing n with
  | zero => exact ⟨0, by simp [stripFactor]⟩
  | succ fuel ih =>
    by_cases hdvd : n % p = 0
    · obtain ⟨a, ha⟩ := ih (n / p)
      refine ⟨a + 1, ?_⟩
      rw [stripFactor, if_pos hdvd, pow_succ, Nat.mul_right_comm, ← ha]
      exact (Nat.div_mul_cancel (Nat.dvd_of_mod_eq_zero hdvd)).symm
    · exact ⟨0, by simp [stripFactor, hdvd]⟩

theorem factors_of_isSmooth {n : Nat} (h : isSmooth n = true) : ∃ a2 a3 a5 : Nat, n = 2 ^ a2 * 3 ^ a3 * 5 ^ a5 := by
  simp only [isSmooth, decide_eq_true_eq] at h
  obtain ⟨a2, h2⟩ := exists_pow_mul_stripFactor 2 7 n
  obtain ⟨a3, h3⟩ := exists_pow_mul_stripFactor 3 7 (stripFactor 2 7 n)
  obtain ⟨a5, h5⟩ := exists_pow_mul_stripFactor 5 7 (stripFactor 3 7 (stripFactor 2 7 n))
  rw [h, Nat.mul_one] at h5
  exact ⟨a2, a3, a5, by rw [Nat.mul_assoc, ← h5, ← h3, ← h2]⟩

/-- The test of an allocation is R121. -/
theorem legalAlloc_iff {alloc : Word} {cell : CellConfig} : legalAlloc alloc cell = true ↔ AllocLegal alloc cell := by
  refine ⟨fun h => ?_, legalAlloc_of_allocLegal⟩
  simp only [legalAlloc, Bool.and_eq_true, decide_eq_true_eq] at h
  obtain ⟨⟨hpos, hfit⟩, hsmooth⟩ := h
  exact ⟨hpos, hfit, factors_of_isSmooth hsmooth⟩

/-! ## PROC_CONFIG (R154) -/

theorem execProcConfig_of_legal {s : State} {proc : BitVec 4} {p : Fin 8} (hp : p.val = proc.toNat)
    (hs : s.cell.configured = true) (halloc : legalAlloc s.inputs.regs.alloc s.cell = true) :
    exec (.procConfig proc) s =
      .next ((s.setSlot p { s.slot p with nprbDecl := nPrbOf s.inputs.regs.alloc }).recorded opcodeProcConfig proc
        .ok) := by
  simp only [exec, execProcConfig, procIndex_eq_some_iff.2 hp, hs, halloc, Bool.and_self, if_true]
  rfl

theorem execProcConfig_of_illegal {s : State} {proc : BitVec 4}
    (h : procIndex proc = none ∨ s.cell.configured = false ∨ legalAlloc s.inputs.regs.alloc s.cell = false) :
    exec (.procConfig proc) s = .next (s.recorded opcodeProcConfig proc .invalidConfiguration) := by
  simp only [exec, execProcConfig]
  split
  next => rfl
  next hp =>
    split
    next hlegal => rcases h with h | h | h <;> simp [h] at hp hlegal
    next => rfl

/-- Settles O11: the slot's re-declaration with legal operands, and the epilogue's failure with any other. -/
theorem procConfigCompletes : Obligations.ProcConfigCompletes := by
  refine ⟨fun s proc p hp hs halloc => execProcConfig_of_legal hp hs (legalAlloc_iff.2 halloc), fun s proc h => ?_,
    fun s w hturns hpending hop hw => ?_⟩
  · refine execProcConfig_of_illegal (h.imp procIndex_eq_none_iff.2 (Or.imp_right fun halloc => ?_))
    rwa [← Bool.not_eq_true, legalAlloc_iff]
  · refine step_fails_of_not_encoding hturns hpending hop fun i hi => ?_
    obtain ⟨-, -, hconfig, -⟩ := instr_of_opcode i
    obtain ⟨proc, rfl⟩ := hconfig hi
    rintro rfl
    exact hw (encode_procConfig_and proc)

/-! ## PROC_FLUSH (R156) -/

/-- Settles O12: the flush sets one slot, and fails where PROC names none. -/
theorem procFlushCompletes : Obligations.ProcFlushCompletes := by
  refine ⟨fun s proc p hp => ?_, fun s proc hproc => ?_, fun s w hturns hpending hop hw => ?_⟩
  · refine ⟨(s.setSlot p { s.slot p with init := false }).recorded opcodeProcFlush proc .ok, ?_, ?_, fun q hq => ?_,
      rfl⟩
    · simp only [exec, execProcFlush, procIndex_eq_some_iff.2 hp]
      rfl
    · exact congrArg HarqSlot.init (s.slot_setSlot p _)
    · exact s.slot_setSlot_ne _ hq
  · simp only [exec, execProcFlush, procIndex_eq_none_iff.2 hproc]
    rfl
  · refine step_fails_of_not_encoding hturns hpending hop fun i hi => ?_
    obtain ⟨-, -, -, hflush⟩ := instr_of_opcode i
    obtain ⟨proc, rfl⟩ := hflush hi
    rintro rfl
    exact hw (encode_procFlush_and proc)

end Sys2Proof.Machine
end

section
/-! PROOFS. The checks of PUSCH_TX: the operands of R159, the process checks of R163 and R164 and the capacity checks of
R166 and R167, each with the code it records (40_commands.md R159 to R167; 60_exceptions.md R402). -/

namespace Sys2Proof.Machine

/-! ## Where a PUSCH_TX can fail (R160) -/

theorem runPuschTx_of_admit_error {cmd : TxCommand} {s : State} {code : ErrCode} (h : puschAdmit cmd s = .error code) :
    runPuschTx cmd s = .next (s.recorded opcodePuschTx cmd.proc code) := by
  simp only [runPuschTx, h]
  rfl

theorem runPuschTx_of_sizing_error {cmd : TxCommand} {s : State} {target : TxTarget} {tb : List Bool} {code : ErrCode}
    (ha : puschAdmit cmd s = .ok target) (hb : readPayload cmd.ndi s.inputs = some tb)
    (h : puschSizing cmd s target = .error code) :
    runPuschTx cmd s = .next (s.recorded opcodePuschTx cmd.proc code) := by
  simp only [runPuschTx, ha, hb, h]
  rfl

/-- The pipeline runs on a planned command whose bits were all written, and its outcome is the command's. -/
theorem runPuschTx_of_plan {cmd : TxCommand} {s : State} {plan : TxPlan} {bits : TxBits}
    (hplan : puschPlan cmd s = .ok plan) (hbits : readTxBits cmd.ndi s.inputs = some bits) :
    (∀ code, txPipeline cmd s.inputs.regs s.cell plan bits
          (txBuffers cmd.ndi plan.src.seg bits.tb (s.slot plan.target.p)) = .error code →
        runPuschTx cmd s = .next (s.recorded opcodePuschTx cmd.proc code)) ∧
      ∀ out, txPipeline cmd s.inputs.regs s.cell plan bits
          (txBuffers cmd.ndi plan.src.seg bits.tb (s.slot plan.target.p)) = .ok out →
        runPuschTx cmd s = .next ((commitTx cmd plan out s).recorded opcodePuschTx cmd.proc .ok) := by
  unfold puschPlan at hplan
  split at hplan
  · cases hplan
  rename_i target ha
  unfold readTxBits at hbits
  split at hbits
  next tb hb =>
    refine ⟨fun code ho => ?_, fun out ho => ?_⟩ <;>
      · simp only [runPuschTx, ha, hb, hplan, hbits, ho]
        rfl
  next => cases hbits

/-- A code other than OK is that of the process checks, of the sizing step or of the pipeline. -/
theorem runPuschTx_error {cmd : TxCommand} {s t : State} (hrun : runPuschTx cmd s = .next t)
    (hfail : t.status.err ≠ .ok) :
    puschAdmit cmd s = .error t.status.err ∨
      (∃ target tb, puschAdmit cmd s = .ok target ∧ readPayload cmd.ndi s.inputs = some tb ∧
        puschSizing cmd s target = .error t.status.err) ∨
      ∃ plan bits, puschPlan cmd s = .ok plan ∧ readTxBits cmd.ndi s.inputs = some bits ∧
        txPipeline cmd s.inputs.regs s.cell plan bits
          (txBuffers cmd.ndi plan.src.seg bits.tb (s.slot plan.target.p)) = .error t.status.err := by
  cases ha : puschAdmit cmd s with
  | error code =>
    rw [runPuschTx_of_admit_error ha] at hrun
    cases hrun
    exact .inl rfl
  | ok target =>
    cases hb : readPayload cmd.ndi s.inputs with
    | none =>
      rw [runPuschTx_of_payload_none ha hb] at hrun
      cases hrun
    | some tb =>
      cases hs : puschSizing cmd s target with
      | error code =>
        rw [runPuschTx_of_sizing_error ha hb hs] at hrun
        cases hrun
        exact .inr (.inl ⟨target, tb, rfl, rfl, hs⟩)
      | ok plan =>
        have hplan : puschPlan cmd s = .ok plan := by rw [puschPlan, ha]; exact hs
        cases hu : readTxBits cmd.ndi s.inputs with
        | none =>
          rw [runPuschTx_of_bits_none hplan hu] at hrun
          cases hrun
        | some bits =>
          obtain ⟨herror, hcommit⟩ := runPuschTx_of_plan hplan hu
          cases ho : txPipeline cmd s.inputs.regs s.cell plan bits
              (txBuffers cmd.ndi plan.src.seg bits.tb (s.slot plan.target.p)) with
          | error code =>
            rw [herror code ho] at hrun
            cases hrun
            exact .inr (.inr ⟨plan, bits, hplan, rfl, ho⟩)
          | ok out =>
            rw [hcommit out ho] at hrun
            cases hrun
            exact absurd rfl hfail

theorem puschAdmit_error {cmd : TxCommand} {s : State} {code : ErrCode} (h : puschAdmit cmd s = .error code) :
    code = .invalidConfiguration ∨
      (cmd.ndi = false ∧ (code = .processNotInitialized ∨ code = .allocationMismatch)) := by
  unfold puschAdmit at h
  simp only [Bool.and_eq_true, Bool.not_eq_true'] at h
  split at h
  next => cases h; exact .inl rfl
  next =>
    split at h
    next hinit => cases h; exact .inr ⟨hinit.1, .inl rfl⟩
    next =>
      split at h
      next hwidth => cases h; exact .inr ⟨hwidth.1, .inr rfl⟩
      next => cases h

theorem puschSizing_error {cmd : TxCommand} {s : State} {target : TxTarget} {code : ErrCode}
    (h : puschSizing cmd s target = .error code) : code = .controlOverflow ∨ code = .allocationTooSmall := by
  unfold puschSizing at h
  simp only at h
  split at h
  next => cases h; exact .inl rfl
  next =>
    split at h
    next => cases h; exact .inr rfl
    next => cases h

theorem txPipeline_error {cmd : TxCommand} {regs : ArgRegs} {cell : CellConfig} {plan : TxPlan} {bits : TxBits}
    {w : List (List Trit)} {code : ErrCode} (h : txPipeline cmd regs cell plan bits w = .error code) :
    code = .invalidBitLength := by
  unfold txPipeline at h
  simp only at h
  split at h
  next hmod =>
    cases h
    unfold modulate at hmod
    split at hmod <;> cases hmod
    rfl
  next => cases h

/-! ## Validation (R159) -/

/-- What validation accepts meets R159. -/
theorem State.txLegal_of_puschTarget {s : State} {cmd : TxCommand} {t : TxTarget}
    (h : puschTarget cmd s.inputs.regs s.cell = some t) : s.TxLegal cmd.proc cmd.ndi cmd.mod cmd.sf := by
  obtain ⟨hp, hm, hsf, hcell, halloc, huci, htb⟩ := puschTarget_eq_some_iff.1 h
  refine ⟨?_, fun hmod => ?_, hsf, hcell, legalAlloc_iff.1 halloc, ?_, fun hn => ?_⟩
  · rw [← procIndex_eq_some_iff.1 hp]
    exact t.p.isLt
  · rw [modulationOf_eq_none_iff.2 hmod] at hm
    cases hm
  · simpa [legalUciLen, Config.maxCqiBits, Config.maxRiBits, Config.maxAckBits, and_assoc] using huci
  · simpa [legalTbSize, Config.maxTbSize, and_assoc] using htb hn

theorem puschAdmit_of_not_legal {s : State} {cmd : TxCommand} (h : ¬ s.TxLegal cmd.proc cmd.ndi cmd.mod cmd.sf) :
    puschAdmit cmd s = .error .invalidConfiguration := by
  have htarget : puschTarget cmd s.inputs.regs s.cell = none :=
    Option.eq_none_iff_forall_ne_some.2 fun t ht => h (State.txLegal_of_puschTarget ht)
  rw [puschAdmit, htarget]

/-- Settles O15: a word with a reserved bit set is no command, and any other is a PUSCH_TX that validation refuses. -/
theorem puschTxValidation : Obligations.PuschTxValidation := by
  intro s w hturns hpending hop h
  by_cases hunused : w &&& unusedMaskPusch = 0
  · have hdecode := decode_eq_ok_iff.2 (.inr (.inr (.inr (.inr ⟨rfl, hop, hunused⟩))))
    rw [step_of_no_turn hturns, ptcTurn_of_decode hpending hdecode]
    exact runPuschTx_of_admit_error (cmd := ⟨procField w, rvField w, ndiField w, modField w, sfField w,
      dumpGridField w, dumpBitsField w, dumpHarqField w⟩)
      (puschAdmit_of_not_legal (h.resolve_left fun hne => hne hunused))
  · have hillegal : IllegalWord w := illegalWord_iff.2 (.inr (.inr (.inr (.inl ⟨hop, hunused⟩))))
    rw [illegalWordFails s w hturns hpending hillegal, hop]

/-! ## The process checks (R163, R164) -/

theorem State.TxLegal.exists_modulation {s : State} {proc : BitVec 4} {ndi : Bool} {mod : BitVec 2} {sf : BitVec 4}
    (h : s.TxLegal proc ndi mod sf) : ∃ m, modulationOf mod = some m :=
  Option.ne_none_iff_exists'.1 fun hnone => h.mod (modulationOf_eq_none_iff.1 hnone)

/-- The process checks of a retransmission with legal operands, in their order. -/
theorem State.TxLegal.puschAdmit_retransmission {s : State} {cmd : TxCommand}
    (h : s.TxLegal cmd.proc cmd.ndi cmd.mod cmd.sf) (hn : cmd.ndi = false) {p : Fin 8} (hp : p.val = cmd.proc.toNat) :
    ((s.slot p).init = false → puschAdmit cmd s = .error .processNotInitialized) ∧
      ((s.slot p).init = true → nPrbOf s.inputs.regs.alloc ≠ (s.slot p).nprbDecl →
        puschAdmit cmd s = .error .allocationMismatch) := by
  obtain ⟨m, hm⟩ := h.exists_modulation
  rw [puschAdmit, h.puschTarget_eq_some hp hm]
  refine ⟨fun hinit => ?_, fun hinit hwidth => ?_⟩
  · simp [hn, hinit]
  · simp [hn, hinit, hwidth]

/-- Settles O16: the two process checks come right after validation, and only a retransmission makes them. -/
theorem retransmissionChecks : Obligations.RetransmissionChecks := by
  refine ⟨fun s proc rv mod sf dg db dh p hp hlegal hinit => ?_,
    fun s proc rv mod sf dg db dh p hp hlegal hinit hwidth => ?_, fun s t proc rv mod sf dg db dh hexec => ?_⟩
  · obtain ⟨hempty, -⟩ := State.TxLegal.puschAdmit_retransmission (cmd := ⟨proc, rv, false, mod, sf, dg, db, dh⟩)
      hlegal rfl hp
    exact runPuschTx_of_admit_error (hempty hinit)
  · obtain ⟨-, hmismatch⟩ := State.TxLegal.puschAdmit_retransmission (cmd := ⟨proc, rv, false, mod, sf, dg, db, dh⟩)
      hlegal rfl hp
    exact runPuschTx_of_admit_error (hmismatch hinit hwidth)
  · by_cases hok : t.status.err = .ok
    · rw [hok]
      decide
    have hcode : t.status.err ∈
        [ErrCode.invalidConfiguration, .controlOverflow, .allocationTooSmall, .invalidBitLength] := by
      rcases runPuschTx_error hexec hok with ha | ⟨target, tb, -, -, hs⟩ | ⟨plan, bits, -, -, ho⟩
      · rcases puschAdmit_error ha with e | ⟨hn, -⟩
        · simp [e]
        · cases hn
      · rcases puschSizing_error hs with e | e <;> simp [e]
      · simp [txPipeline_error ho]
    constructor <;> intro e <;> simp [e] at hcode

/-! ## The capacity checks (R166, R167) -/

theorem puschSizing_of_controlOverflow {s : State} {cmd : TxCommand} {p : Fin 8} {m : Modulation}
    (h : ¬ s.ControlFits p cmd.ndi m) : puschSizing cmd s ⟨p, m⟩ = .error .controlOverflow :=
  if_pos (Nat.not_le.1 h)

theorem puschSizing_of_tooSmall {s : State} {cmd : TxCommand} {p : Fin 8} {m : Modulation}
    (hcontrol : s.ControlFits p cmd.ndi m) (hdata : ¬ s.DataFits p cmd.ndi m) :
    puschSizing cmd s ⟨p, m⟩ = .error .allocationTooSmall := by
  have hsmall : tooSmall (s.sourceOf p cmd.ndi).seg (s.sizesOf p cmd.ndi m).e = true :=
    Bool.of_not_eq_false fun hroom => hdata (by simpa [tooSmall, State.DataFits] using hroom)
  exact (if_neg (Nat.not_lt.2 hcontrol)).trans (if_pos hsmall)

theorem readPayload_of_written {s : State} {ndi : Bool} (h : s.PayloadWritten ndi) :
    ∃ tb, readPayload ndi s.inputs = some tb := by
  cases ndi with
  | false => exact ⟨[], Memory.readBits_zero _ _⟩
  | true => exact (Memory.readBits_isSome_iff _ _ _).2 (h rfl)

/-- With G = 0 every block gets 0 bits (42_rate_matcher.md R249). -/
theorem getD_blockLengths_zero {qm c : Nat} (hq : 0 < qm) (hc : 0 < c) (r : Nat) :
    (blockLengths 0 qm c).getD r 0 = 0 := by
  have hsum := sum_blockLengths (c := c) 0 hq hc
  rw [Nat.mul_zero, List.sum_eq_zero_iff] at hsum
  rcases Nat.lt_or_ge r (blockLengths 0 qm c).length with hr | hr
  · rw [List.getD_eq_getElem _ _ hr]
    exact hsum _ (List.getElem_mem hr)
  · exact List.getD_eq_default _ _ hr

/-- The blocks of a transport block share its bits, so some block has a bit that is no filler (41_tb_coder.md R207). -/
theorem Segmentation.Covers.exists_block {seg : Segmentation} {b : Nat} (h : seg.Covers b) (hb : 0 < b) :
    ∃ r, r < seg.c ∧ 0 < seg.blockSize r - seg.filler r := by
  by_contra hnone
  push Not at hnone
  have hzero : ∀ n ∈ (List.range seg.c).map seg.dataBits, n = 0 := by
    intro n hn
    obtain ⟨r, hr, rfl⟩ := List.mem_map.1 hn
    have := hnone r (List.mem_range.1 hr)
    simp only [Segmentation.dataBits]
    omega
  have hsum := sum_dataBits h
  rw [List.sum_eq_zero_iff.2 hzero] at hsum
  omega

/-- A transmission with legal operands works with the segmentation of a transport block that has bits. -/
theorem State.TxLegal.source_covers {s : State} {proc : BitVec 4} {ndi : Bool} {mod : BitVec 2} {sf : BitVec 4}
    (h : s.TxLegal proc ndi mod sf) {p : Fin 8} (hslot : ndi = false → (s.slot p).init = true ∧ (s.slot p).legal) :
    ∃ b, 0 < b ∧ (s.sourceOf p ndi).seg.Covers b := by
  cases ndi with
  | true =>
    obtain ⟨hlow, -⟩ := h.tb rfl
    exact ⟨_, by omega, segmentation_covers (tbSizeOf s.inputs.regs.tbSize)⟩
  | false =>
    obtain ⟨hinit, hlegal⟩ := hslot rfl
    obtain ⟨hlow, -, hseg, -⟩ := hlegal hinit
    refine ⟨(s.slot p).b, by omega, ?_⟩
    have hsource : (s.sourceOf p false).seg = (s.slot p).seg := rfl
    rw [hsource, hseg]
    exact segmentation_covers _

theorem not_dataFits_of_g_zero {s : State} {p : Fin 8} {ndi : Bool} {m : Modulation} {b : Nat} (hb : 0 < b)
    (hcovers : (s.sourceOf p ndi).seg.Covers b) (hg : (s.sizesOf p ndi m).g = 0) : ¬ s.DataFits p ndi m := by
  obtain ⟨r, hr, hbits⟩ := hcovers.exists_block hb
  have he : (s.sizesOf p ndi m).e = blockLengths 0 m.order (s.sourceOf p ndi).seg.c := by rw [← hg]; rfl
  intro hfits
  have hroom := hfits r hr
  rw [he, getD_blockLengths_zero m.order_pos hcovers.c_pos] at hroom
  omega

/-- Settles O17: the sizing step of an admitted command whose payload was written, and G = 0 leaves some block without
its bits. -/
theorem capacityChecks : Obligations.CapacityChecks := by
  refine ⟨fun s proc rv ndi mod sf dg db dh p m hp hm hlegal hslot hpayload => ?_,
    fun s proc ndi mod sf p m hlegal hslot hg => ?_⟩
  · have hadmit : puschAdmit ⟨proc, rv, ndi, mod, sf, dg, db, dh⟩ s = .ok ⟨p, m⟩ := hlegal.puschAdmit_eq_ok hp hm hslot
    obtain ⟨tb, htb⟩ := readPayload_of_written hpayload
    exact ⟨fun hcontrol => runPuschTx_of_sizing_error hadmit htb (puschSizing_of_controlOverflow hcontrol),
      fun hcontrol hdata => runPuschTx_of_sizing_error hadmit htb (puschSizing_of_tooSmall hcontrol hdata)⟩
  · obtain ⟨b, hb, hcovers⟩ := hlegal.source_covers hslot
    exact not_dataFits_of_g_zero hb hcovers hg

end Sys2Proof.Machine
end

section
/-! PROOFS. The length of the modulator's input (40_commands.md R168; 44_multiplexer.md R318): every UCI code has the
length of its budget, so the matrix is full of Q_m-element vectors and the modulation mapper accepts the scrambled
bits. -/

namespace Sys2Proof.Machine

/-! ## The UCI codes have the lengths asked of them (43_uci_encoder.md R280 to R287) -/

@[simp] theorem length_rm32 (o : List Bool) : (rm32 o).length = 32 := List.length_map _

/-- Column 31 of the interleaver stands at place 15 of its pattern, so the last element of a stream is read (R281). -/
theorem getLast_mem_subblockInterleave_pConv {d : List Trit} (h : d ≠ []) :
    d.getLast h ∈ subblockInterleave pConv 0 d := by
  have hpos : 0 < d.length := List.length_pos_iff.2 h
  have hle := le_subblockRows d.length
  have hlen := length_padFront d
  have hlast : (padFront d).getLast (List.ne_nil_of_length_pos (by omega)) = d.getLast h :=
    List.getLast_append_of_ne_nil _ h
  rw [List.getLast_eq_getElem] at hlast
  obtain ⟨n, hrows⟩ : ∃ n, subblockRows d.length = n + 1 := Nat.exists_eq_succ_of_ne_zero (by omega)
  have hindex : (columnIndex pConv (n + 1) (15 * (n + 1) + n) + 0) % (32 * (n + 1)) = 32 * (n + 1) - 1 := by
    have hdiv : (15 * (n + 1) + n) / (n + 1) = 15 := by rw [Nat.div_eq_iff n.succ_pos]; omega
    have hmod : (15 * (n + 1) + n) % (n + 1) = n := by
      rw [Nat.mul_comm, Nat.mul_add_mod]
      exact Nat.mod_eq_of_lt n.lt_succ_self
    rw [columnIndex, hdiv, hmod, show pConv.getD 15 0 = 31 from rfl, Nat.mod_eq_of_lt (by omega)]
    omega
  refine List.mem_map.2 ⟨15 * (n + 1) + n, by simp only [hrows, List.mem_range]; omega, ?_⟩
  simp only [hrows, hindex]
  rw [List.getD_eq_getElem _ _ (by omega), ← hlast]
  simp only [hlen, hrows]

/-- The convolutional code is read circularly from streams that hold bits, so it gives as many bits as asked (R281). -/
theorem length_convRateMatch {d0 : List Bool} (h : d0 ≠ []) (ds : List (List Bool)) (q : Nat) :
    (convRateMatch (d0 :: ds) q).length = q := by
  have hlast := getLast_mem_subblockInterleave_pConv (d := d0.map some) (by simpa using h)
  rw [List.getLast_map] at hlast
  refine length_selectBits ⟨d0.getLast h, ?_⟩ q 0
  rw [List.map_cons, List.flatten_cons]
  exact List.mem_append_left _ hlast

theorem length_encodeCqi {o : List Bool} (h : o ≠ []) (q : Nat) : (encodeCqi o q).length = q := by
  have hlen : o.length ≠ 0 := List.length_eq_zero_iff.not.2 h
  rw [encodeCqi, if_neg hlen]
  split
  · exact length_cycleTake (List.ne_nil_of_length_pos (by simp)) _ _
  · have hstream : tbccStream [0, 2, 3, 5, 6] (o ++ crcParity gCrc8 8 o) ≠ [] :=
      List.ne_nil_of_length_pos (by simp [tbccStream])
    exact length_convRateMatch hstream _ q

theorem ackRiBlock_ne_nil {o : List Bool} (h : o ≠ []) (qm : Nat) : ackRiBlock o qm ≠ [] := by
  match o with
  | [] => exact absurd rfl h
  | [_] => simp [ackRiBlock]
  | [_, _] => simp [ackRiBlock]
  | _ :: _ :: _ :: _ => exact List.ne_nil_of_length_pos (by simp [ackRiBlock])

/-- A code of a field has the length of its budget, which is 0 for a field without bits (R272, R287). -/
theorem length_encodeAckRi {o : List Bool} {qm q : Nat} (h : o = [] → q = 0) :
    (encodeAckRi o qm (qm * q)).length = qm * q := by
  by_cases ho : o = []
  · rw [h ho, encodeAckRi, Nat.mul_zero, cycleTake_zero]
    rfl
  · exact length_cycleTake (ackRiBlock_ne_nil ho qm) _ _

theorem length_encodeCqi_budget {o : List Bool} {qm q : Nat} (h : o = [] → q = 0) :
    (encodeCqi o (qm * q)).length = qm * q := by
  by_cases ho : o = []
  · rw [h ho, ho]
    rfl
  · exact length_encodeCqi ho _

theorem qPrimeAckRi_le (o mscInit nsymbInit beta sumK msc : Nat) :
    qPrimeAckRi o mscInit nsymbInit beta sumK msc ≤ 4 * msc := by
  unfold qPrimeAckRi
  split
  · exact Nat.zero_le _
  · exact Nat.min_le_right _ _

/-! ## The interleaver's output (44_multiplexer.md R311 to R318) -/

theorem length_of_mem_dataVectors {qm qpCqi : Nat} {qCqi f : List Bool} (hcqi : qCqi.length = qm * qpCqi) :
    ∀ v ∈ dataVectors qm qpCqi qCqi f, v.length = qm := by
  intro v hv
  rcases List.mem_append.1 hv with hv | hv
  · exact length_of_mem_vectors (by rw [List.length_map, hcqi]) v hv
  · exact length_of_mem_vectors (by rw [List.length_map]; exact Nat.mul_div_le _ _) v hv

/-- The interleaver gives Q_m·M_sc·N_symb elements of fields that have the lengths of their budgets (R318). -/
theorem length_channelInterleave {f qCqi : List Bool} {qRi qAck : List CtlBit} {qm qpCqi qpRi qpAck msc : Nat}
    {cp : CyclicPrefix} (hqm : 0 < qm) (hf : f.length = qm * (msc * cp.nSymbPusch - qpCqi - qpRi))
    (hcqi : qCqi.length = qm * qpCqi) (hri : qRi.length = qm * qpRi) (hack : qAck.length = qm * qpAck)
    (hclamp : qpRi ≤ 4 * msc) :
    (channelInterleave f qCqi qRi qAck qm qpCqi qpRi qpAck msc cp).length = qm * (msc * cp.nSymbPusch) := by
  have hdata : (dataVectors qm qpCqi qCqi f).length = qpCqi + (msc * cp.nSymbPusch - qpCqi - qpRi) := by
    rw [dataVectors, List.length_append, length_vectors, length_vectors, hf, Nat.mul_div_cancel_left _ hqm]
  obtain ⟨hlen, hvectors⟩ := interleaverMatrix_spec (cp := cp) (msc := msc) (g := dataVectors qm qpCqi qCqi f)
    (ri := vectors qm qpRi qRi) (ack := vectors qm qpAck qAck) (by rwa [length_vectors])
    (by rw [hdata, length_vectors]; omega) (length_of_mem_dataVectors hcqi) (length_of_mem_vectors hri.ge)
    (length_of_mem_vectors hack.ge)
  exact length_readColumns hlen hvectors

/-! ## The scrambled bits of a planned command (R168) -/

theorem qPrimeAckRi_of_nil {o : List Bool} {n mscInit nsymbInit beta sumK msc : Nat} (hlen : o.length = n)
    (h : o = []) : qPrimeAckRi n mscInit nsymbInit beta sumK msc = 0 := by
  subst h hlen
  rfl

theorem qPrimeCqi_of_nil {o : List Bool} {n mscInit nsymbInit beta sumK msc nsymb qRi : Nat} (hlen : o.length = n)
    (h : o = []) : qPrimeCqi n mscInit nsymbInit beta sumK msc nsymb qRi = 0 := by
  subst h hlen
  rfl

/-- The modulator's input has Q_m·M_sc·N_symb bits, for the buffers of any legal transport block. -/
theorem length_txScrambled {cmd : TxCommand} {s : State} {plan : TxPlan} {bits : TxBits} {w : List (List Trit)}
    {b : Nat} (hplan : puschPlan cmd s = .ok plan) (hbits : readTxBits cmd.ndi s.inputs = some bits)
    (hbuf : BuffersOf plan.src.seg w b) :
    (txScrambled cmd.sf s.inputs.regs s.cell plan bits (rateMatch w plan.sizes.e cmd.rv.toNat)).length =
      plan.target.m.order * (12 * (nPrbOf s.inputs.regs.alloc).toNat * s.cell.cp.nSymbPusch) := by
  obtain ⟨-, -, hsizes, -⟩ := puschPlan_eq_ok hplan
  obtain ⟨-, hcqi, hri, hack⟩ := readTxBits_eq_some hbits
  rw [txScrambled, length_scramble, hsizes]
  exact length_channelInterleave plan.target.m.order_pos (length_rateMatch_buffers hbuf _)
    (length_encodeCqi_budget (qPrimeCqi_of_nil (Memory.length_of_readBits hcqi)))
    (length_encodeAckRi (qPrimeAckRi_of_nil (Memory.length_of_readBits hri)))
    (length_encodeAckRi (qPrimeAckRi_of_nil (Memory.length_of_readBits hack)))
    (qPrimeAckRi_le _ _ _ _ _ _)

/-- So the modulation mapper accepts them, and every stage gives its result. -/
theorem txPipeline_total {cmd : TxCommand} {s : State} {plan : TxPlan} {bits : TxBits} {w : List (List Trit)} {b : Nat}
    (hplan : puschPlan cmd s = .ok plan) (hbits : readTxBits cmd.ndi s.inputs = some bits)
    (hbuf : BuffersOf plan.src.seg w b) : ∃ out, txPipeline cmd s.inputs.regs s.cell plan bits w = .ok out := by
  simp only [txPipeline, modulate_of_length (length_txScrambled hplan hbits hbuf)]
  exact ⟨_, rfl⟩

/-- Settles O19: only the pipeline has this code, and on the buffers of the invariant it gives a result. -/
theorem invalidBitLengthNever : Obligations.InvalidBitLengthNever := by
  intro s cmd hlegal hfit
  refine ⟨fun t hrun herr => ?_, fun plan bits hplan hbits => ?_⟩
  · rcases runPuschTx_error hrun (by rw [herr]; decide) with ha | ⟨target, tb, -, -, hs⟩ |
      ⟨plan, bits, hplan, hbits, ho⟩
    · rcases puschAdmit_error ha with e | ⟨-, e | e⟩ <;> cases herr.symm.trans e
    · rcases puschSizing_error hs with e | e <;> cases herr.symm.trans e
    · obtain ⟨b, hbuf⟩ := puschTx_buffers hlegal hfit hplan hbits
      obtain ⟨out, hout⟩ := txPipeline_total hplan hbits hbuf
      cases ho.symm.trans hout
  · obtain ⟨b, hbuf⟩ := puschTx_buffers hlegal hfit hplan hbits
    exact length_txScrambled hplan hbits hbuf

end Sys2Proof.Machine
end

section
/-! PROOFS. A PUSCH_TX that completes: the result of the stages, the length registers, every byte of the memories, and
the slot that an initial transmission fills or a retransmission sends from (40_commands.md R160, R170 to R177;
20_memory.md R100; 10_state.md R45 to R48). -/

namespace Sys2Proof.Machine

/-! ## A command that passes every check -/

/-- The plan of a command with legal operands, budgets and data (R159 to R167). -/
theorem State.TxLegal.puschPlan_eq_ok {s : State} {cmd : TxCommand} (h : s.TxLegal cmd.proc cmd.ndi cmd.mod cmd.sf)
    {p : Fin 8} {m : Modulation} (hp : p.val = cmd.proc.toNat) (hm : modulationOf cmd.mod = some m)
    (hslot : cmd.ndi = false → (s.slot p).init = true ∧ nPrbOf s.inputs.regs.alloc = (s.slot p).nprbDecl)
    (hcontrol : s.ControlFits p cmd.ndi m) (hdata : s.DataFits p cmd.ndi m) :
    puschPlan cmd s = .ok ⟨⟨p, m⟩, s.sourceOf p cmd.ndi, s.sizesOf p cmd.ndi m⟩ := by
  rw [puschPlan, h.puschAdmit_eq_ok hp hm hslot]
  exact puschSizing_of_fits hcontrol hdata

/-- Bits that were all written can be read (20_memory.md R99). -/
theorem readTxBits_of_written {s : State} {ndi : Bool} (h : s.InputsWritten ndi) :
    ∃ bits, readTxBits ndi s.inputs = some bits := by
  obtain ⟨hpayload, hcqi, hri, hack⟩ := h
  obtain ⟨tb, htb⟩ := readPayload_of_written hpayload
  obtain ⟨cqi, hcqi⟩ := (Memory.readBits_isSome_iff _ _ _).2 hcqi
  obtain ⟨ri, hri⟩ := (Memory.readBits_isSome_iff _ _ _).2 hri
  obtain ⟨ack, hack⟩ := (Memory.readBits_isSome_iff _ _ _).2 hack
  exact ⟨⟨tb, cqi, ri, ack⟩, by simp only [readTxBits, htb, readUci, hcqi, hri, hack]⟩

/-- What the stages give from the buffers of a legal transport block fits the memories, and f has G bits. -/
theorem txPipeline_fits_of_buffers {cmd : TxCommand} {s : State} {plan : TxPlan} {bits : TxBits} {out : TxResult}
    {w : List (List Trit)} {b : Nat} (hplan : puschPlan cmd s = .ok plan) (hbuf : BuffersOf plan.src.seg w b)
    (hout : txPipeline cmd s.inputs.regs s.cell plan bits w = .ok out) :
    out.Fits s.cell ∧ out.f.length = plan.sizes.g := by
  obtain ⟨-, -, hsizes, -⟩ := puschPlan_eq_ok hplan
  obtain ⟨hw, hf, points, -, hgrid, hwave⟩ := txPipeline_eq_ok hout
  have hcolumns : out.grid.length = 2 * s.cell.cp.nSymb := by rw [hgrid, length_mapToGrid]
  have hlen : out.f.length = plan.sizes.g := by rw [hf, hsizes, length_rateMatch_buffers hbuf]
  refine ⟨⟨hlen ▸ puschPlan_g_lt hplan, hw ▸ hbuf.length_flatten_le, hcolumns, fun column hcolumn => ?_, ?_⟩, hlen⟩
  · rw [hgrid] at hcolumn
    exact length_of_mem_mapToGrid (puschPlan_alloc_fits hplan) hcolumn
  · rw [hwave]
    exact length_synthesize hcolumns

/-- A planned command whose bits were written and whose buffers are those of a legal transport block commits what the
stages give. -/
theorem runPuschTx_completes {cmd : TxCommand} {s : State} {plan : TxPlan} {bits : TxBits} {b : Nat}
    (hplan : puschPlan cmd s = .ok plan) (hbits : readTxBits cmd.ndi s.inputs = some bits)
    (hbuf : BuffersOf plan.src.seg (txBuffers cmd.ndi plan.src.seg bits.tb (s.slot plan.target.p)) b) :
    ∃ out, runPuschTx cmd s = .next ((commitTx cmd plan out s).recorded opcodePuschTx cmd.proc .ok) ∧
      out.w = txBuffers cmd.ndi plan.src.seg bits.tb (s.slot plan.target.p) ∧
      out.f = rateMatch out.w plan.sizes.e cmd.rv.toNat ∧ out.f.length = plan.sizes.g ∧ out.Fits s.cell := by
  obtain ⟨out, hout⟩ := txPipeline_total hplan hbits hbuf
  obtain ⟨hfits, hlen⟩ := txPipeline_fits_of_buffers hplan hbuf hout
  obtain ⟨hw, hf, -⟩ := txPipeline_eq_ok hout
  obtain ⟨-, hcommit⟩ := runPuschTx_of_plan hplan hbits
  exact ⟨out, hcommit out hout, hw, by rw [hf, hw], hlen, hfits⟩

/-! ## The length registers (10_state.md R45 to R48) -/

theorem committedLens_wave (cmd : TxCommand) (cell : CellConfig) (plan : TxPlan) (out : TxResult) (lens : LenRegs) :
    (committedLens cmd cell plan out lens).wave.toNat = 15 * cell.nRb.nfft := by
  have hsmall : 15 * cell.nRb.nfft < 2 ^ 32 := by cases cell.nRb <;> decide
  rw [committedLens, BitVec.toNat_ofNat, Nat.mod_eq_of_lt hsmall]

theorem committedLens_bits (cmd : TxCommand) (cell : CellConfig) {plan : TxPlan} (out : TxResult) (lens : LenRegs)
    (hg : plan.sizes.g < 2 ^ 20) :
    if cmd.dumpBits then (committedLens cmd cell plan out lens).bits.toNat = plan.sizes.g
    else (committedLens cmd cell plan out lens).bits = lens.bits := by
  split
  next hdump =>
    simp only [committedLens, hdump, if_true, BitVec.toNat_ofNat]
    exact Nat.mod_eq_of_lt (by omega)
  next hdump => exact if_neg hdump

theorem committedLens_harq (cmd : TxCommand) (plan : TxPlan) {out : TxResult} {cell : CellConfig} (lens : LenRegs)
    (h : out.Fits cell) :
    if cmd.dumpHarq then (committedLens cmd cell plan out lens).harq.toNat = out.w.flatten.length
    else (committedLens cmd cell plan out lens).harq = lens.harq := by
  have hsmall := h.harq
  rw [harqSize] at hsmall
  split
  next hdump =>
    simp only [committedLens, hdump, if_true, TxResult.length_harqBytes, BitVec.toNat_ofNat]
    exact Nat.mod_eq_of_lt (by omega)
  next hdump => exact if_neg hdump

theorem committedLens_grid (cmd : TxCommand) (cell : CellConfig) (plan : TxPlan) (out : TxResult) (lens : LenRegs) :
    if cmd.dumpGrid then
      (committedLens cmd cell plan out lens).grid.toNat = 12 * cell.nRb.nRb * 2 * cell.cp.nSymb
    else (committedLens cmd cell plan out lens).grid = lens.grid := by
  split
  next hdump =>
    simp only [committedLens, hdump, if_true, BitVec.toNat_ofNat]
    cases cell.nRb <;> cases cell.cp <;> rfl
  next hdump => exact if_neg hdump

/-! ## Every byte of the memories (20_memory.md R100) -/

theorem Memory.reads_writeBytes_if_outside (m : Memory) {c : Bool} {base a : Nat} {bs : List Byte}
    (h : ¬ (c = true ∧ base ≤ a ∧ a < base + bs.length)) :
    (if c then m.writeBytes base bs else m).byteAt a = m.byteAt a ∧
      (if c then m.writeBytes base bs else m).markAt a = m.markAt a := by
  split
  next hc =>
    rw [Memory.byteAt_writeBytes, Memory.markAt_writeBytes, if_neg fun ha => h ⟨hc, ha⟩, if_neg fun ha => h ⟨hc, ha⟩]
    exact ⟨rfl, rfl⟩
  next => exact ⟨rfl, rfl⟩

theorem Memory.markAt_writeBytes_if (m : Memory) (c : Bool) (base a : Nat) (bs : List Byte) :
    (if c then m.writeBytes base bs else m).markAt a =
      if c = true ∧ base ≤ a ∧ a < base + bs.length then 0xFF else m.markAt a := by
  cases c with
  | true => simp only [if_true, true_and, Memory.markAt_writeBytes]
  | false => simp only [Bool.false_eq_true, if_false, false_and]

theorem TxResult.Fits.length_gridEntries {out : TxResult} {cell : CellConfig} (h : out.Fits cell) :
    out.gridEntries.length = cell.nRb.nSc * (2 * cell.cp.nSymb) := by
  rw [TxResult.gridEntries, List.length_map, length_flatten_uniform h.column, h.columns, Nat.mul_comm]

/-- The windows of the commit are those of R100: outside them every byte stands, inside them every byte is marked. -/
theorem committedMem_writes {out : TxResult} {cell : CellConfig} (h : out.Fits cell) (cmd : TxCommand) (draw : Nat)
    (mem : Memory) (a : Nat) :
    (¬ writesByte cell out.f.length out.w.flatten.length cmd.dumpGrid cmd.dumpBits cmd.dumpHarq a →
      (committedMem cmd draw out mem).byteAt a = mem.byteAt a ∧
        (committedMem cmd draw out mem).markAt a = mem.markAt a) ∧
    (writesByte cell out.f.length out.w.flatten.length cmd.dumpGrid cmd.dumpBits cmd.dumpHarq a →
      (committedMem cmd draw out mem).markAt a = 0xFF) := by
  have hwave : (samplesBytes out.waveEntries draw).length = 8 * (15 * cell.nRb.nfft) := by
    rw [length_samplesBytes, TxResult.waveEntries, List.length_map, h.wave]
  have hgrid : (samplesBytes out.gridEntries (draw + out.wave.length)).length =
      8 * (cell.nRb.nSc * (2 * cell.cp.nSymb)) := by
    rw [length_samplesBytes, h.length_gridEntries]
  have hbits := length_packBits out.f
  have hharq := out.length_harqBytes
  unfold committedMem writesByte
  simp only
  constructor
  · intro hout
    simp only [not_or] at hout
    obtain ⟨hw, hb, hh, hg⟩ := hout
    rw [← hwave] at hw
    rw [← hbits] at hb
    rw [← hharq] at hh
    rw [← hgrid] at hg
    obtain ⟨hbyte4, hmark4⟩ := Memory.reads_writeBytes_if_outside _ hg
    obtain ⟨hbyte3, hmark3⟩ := Memory.reads_writeBytes_if_outside _ hh
    obtain ⟨hbyte2, hmark2⟩ := Memory.reads_writeBytes_if_outside _ hb
    exact ⟨hbyte4.trans (hbyte3.trans (hbyte2.trans ((mem.byteAt_writeBytes _ _ _).trans (if_neg hw)))),
      hmark4.trans (hmark3.trans (hmark2.trans ((mem.markAt_writeBytes _ _ _).trans (if_neg hw))))⟩
  · intro hin
    rw [Memory.markAt_writeBytes_if, Memory.markAt_writeBytes_if, Memory.markAt_writeBytes_if,
      Memory.markAt_writeBytes, hwave, hbits, hharq, hgrid]
    rcases hin with hw | hb | hh | hg
    · rw [if_pos (show waveBase ≤ a ∧ a < waveBase + _ from hw), ite_self, ite_self, ite_self]
    · rw [if_pos (show _ ∧ BitMem.bits.base ≤ a ∧ a < BitMem.bits.base + _ from hb), ite_self, ite_self]
    · rw [if_pos (show _ ∧ harqBase ≤ a ∧ a < harqBase + _ from hh), ite_self]
    · exact if_pos hg

/-- With DUMP_BITS, bit i of BITS_MEM is bit i of f. -/
theorem committedMem_bitAt {cmd : TxCommand} (hdump : cmd.dumpBits = true) (draw : Nat) {out : TxResult}
    {cell : CellConfig} (h : out.Fits cell) (mem : Memory) {i : Nat} {b : Bool} (hi : out.f[i]? = some b) :
    (committedMem cmd draw out mem).bitAt BitMem.bits.base i = some b := by
  have hlt : i < out.f.length := (List.getElem?_eq_some_iff.1 hi).1
  have hbits := h.bits
  obtain ⟨hbyte, hmark⟩ := committedMem_bits hdump draw out mem (n := i / 8)
    (by rw [length_packBits]; omega) (by simp only [BitMem.base, harqBase]; omega)
  rw [Memory.bitAt_of_marked hmark, hbyte, getLsbD_packBits (by omega), List.getD_eq_getElem?_getD, hi,
    Option.getD_some]

/-- With DUMP_HARQ, byte n of HARQ_MEM is entry n of the buffers. -/
theorem committedMem_harqEntry {cmd : TxCommand} (hdump : cmd.dumpHarq = true) (draw : Nat) {out : TxResult}
    {cell : CellConfig} (h : out.Fits cell) (mem : Memory) {n : Nat} {e : Trit} (he : out.w.flatten[n]? = some e) :
    (committedMem cmd draw out mem).byteAt (harqBase + n) = tritByte e := by
  have hlt : n < out.w.flatten.length := (List.getElem?_eq_some_iff.1 he).1
  have hharq := h.harq
  rw [harqSize] at hharq
  obtain ⟨hbyte, -⟩ := committedMem_harq hdump draw out mem (n := n) (by rwa [TxResult.length_harqBytes])
    (by simp only [harqBase, gridBase]; omega)
  rw [hbyte, List.getD_eq_getElem?_getD, TxResult.harqBytes, List.getElem?_map, he]
  rfl

/-! ## What every completed PUSCH_TX leaves (R175) -/

/-- What a PUSCH_TX of `g` rate-matched bits and `entries` buffer entries that completes on slot p leaves, but for that
slot: the other slots, STATUS, the length registers, the bytes of R100, and everything else as before. -/
structure TxCompleted (cmd : TxCommand) (s : State) (p : Fin 8) (g entries : Nat) (t : State) : Prop where
  others : ∀ q, q ≠ p → t.slot q = s.slot q
  status : t.status = { cmdDropped := s.status.cmdDropped, err := .ok, lastOp := opcodePuschTx, lastProc := cmd.proc }
  regs : t.regs = s.regs
  cell : t.cell = s.cell
  pending : t.pending = none
  raced : t.raced = none
  turns : t.turns = s.turns
  readData : t.readData = s.readData
  wave : t.lens.wave.toNat = 15 * s.cell.nRb.nfft
  bits : if cmd.dumpBits then t.lens.bits.toNat = g else t.lens.bits = s.lens.bits
  harq : if cmd.dumpHarq then t.lens.harq.toNat = entries else t.lens.harq = s.lens.harq
  grid : if cmd.dumpGrid then t.lens.grid.toNat = 12 * s.cell.nRb.nRb * 2 * s.cell.cp.nSymb
    else t.lens.grid = s.lens.grid
  bytes : ∀ a,
    (¬ writesByte s.cell g entries cmd.dumpGrid cmd.dumpBits cmd.dumpHarq a →
      t.mem.byteAt a = s.mem.byteAt a ∧ t.mem.markAt a = s.mem.markAt a) ∧
    (writesByte s.cell g entries cmd.dumpGrid cmd.dumpBits cmd.dumpHarq a → t.mem.markAt a = 0xFF)

theorem txCompleted_commitTx {cmd : TxCommand} {s : State} {plan : TxPlan} {out : TxResult} {entries : Nat}
    (hplan : puschPlan cmd s = .ok plan) (hfits : out.Fits s.cell) (hlen : out.f.length = plan.sizes.g)
    (hentries : out.w.flatten.length = entries) :
    TxCompleted cmd s plan.target.p plan.sizes.g entries
      ((commitTx cmd plan out s).recorded opcodePuschTx cmd.proc .ok) where
  others _ hq := slot_commitTx_ne cmd plan out s hq
  status := rfl
  regs := rfl
  cell := rfl
  pending := rfl
  raced := rfl
  turns := rfl
  readData := rfl
  wave := committedLens_wave cmd s.cell plan out s.lens
  bits := committedLens_bits cmd s.cell out s.lens (puschPlan_g_lt hplan)
  harq := hentries ▸ committedLens_harq cmd plan s.lens hfits
  grid := committedLens_grid cmd s.cell plan out s.lens
  bytes := hlen ▸ hentries ▸ committedMem_writes hfits cmd s.draws s.mem

/-! ## The two kinds of transmission (R170, R171) -/

theorem BuffersOf.length_flatten {seg : Segmentation} {w : List (List Trit)} {b : Nat} (h : BuffersOf seg w b) :
    w.flatten.length = (seg.blockSizes.map fun k => 3 * kPi k).sum := by
  rw [List.length_flatten, h.lengths]

/-- Settles O13: the stages run on the buffers of the payload, and the commit leaves them in the slot. -/
theorem puschTxInitialCompletes : Obligations.PuschTxInitialCompletes := by
  intro s proc rv mod sf dg db dh p m hp hm hlegal hcontrol hdata hinputs
  obtain ⟨bits, hbits⟩ := readTxBits_of_written hinputs
  have hplan : puschPlan ⟨proc, rv, true, mod, sf, dg, db, dh⟩ s =
      .ok ⟨⟨p, m⟩, s.sourceOf p true, s.sizesOf p true m⟩ :=
    hlegal.puschPlan_eq_ok hp hm (fun hn => by cases hn) hcontrol hdata
  obtain ⟨htb, -, -⟩ := puschPlan_initial hplan rfl
  obtain ⟨hpayload, -⟩ := readTxBits_eq_some hbits
  obtain ⟨hlen, hread⟩ := (Memory.readBits_eq_some_iff _ _ _ _).1 hpayload
  rw [if_pos rfl] at hlen hread
  have hbuf := buffersOf_initial (s.slot p) htb hlen
  obtain ⟨out, hrun, hw, -, hg, hfits⟩ := runPuschTx_completes hplan hbits hbuf
  have h := txCompleted_commitTx hplan hfits hg (hw ▸ hbuf.length_flatten)
  refine ⟨_, bits.tb, hrun, hlen, by rwa [hlen], ?_, h.others, h.status, h.regs, h.cell, h.pending, h.raced, h.turns,
    h.readData, h.wave, h.bits, h.harq, h.grid, h.bytes⟩
  refine (slot_commitTx _ _ out s).trans ?_
  rw [hw]
  rfl

/-- Settles O14: the stages run on the slot's own buffers, which the commit keeps. -/
theorem puschTxRetransmissionCompletes : Obligations.PuschTxRetransmissionCompletes := by
  intro s proc rv mod sf dg db dh p m hp hm hlegal hinit hwidth hslotLegal hslotFit hcontrol hdata hinputs
  obtain ⟨bits, hbits⟩ := readTxBits_of_written hinputs
  have hplan : puschPlan ⟨proc, rv, false, mod, sf, dg, db, dh⟩ s =
      .ok ⟨⟨p, m⟩, s.sourceOf p false, s.sizesOf p false m⟩ :=
    hlegal.puschPlan_eq_ok hp hm (fun _ => ⟨hinit, hwidth⟩) hcontrol hdata
  obtain ⟨out, hrun, hw, hf, hg, hfits⟩ := runPuschTx_completes hplan hbits
    (buffersOf_slot hslotLegal hslotFit hinit)
  have hbuffers : out.w = (s.slot p).w := hw
  have h := txCompleted_commitTx hplan hfits hg (congrArg (·.flatten.length) hbuffers)
  refine ⟨_, hrun, slot_commitTx _ _ out s, h.others, h.status, h.regs, h.cell, h.pending, h.raced, h.turns,
    h.readData, h.wave, h.bits, h.harq, h.grid, fun hdump i b hi => ?_, fun hdump n e he => ?_, h.bytes⟩
  · rw [hbuffers] at hf
    exact committedMem_bitAt hdump s.draws hfits s.mem (hf ▸ hi)
  · refine (committedMem_harqEntry hdump s.draws hfits s.mem (hbuffers ▸ he)).trans ?_
    rcases e with _ | _ | _ <;> rfl

end Sys2Proof.Machine
end

section
/-! PROOFS. What a PUSCH_TX depends on (40_commands.md R173; 20_memory.md R99): two states that agree on what it reads
get the same checks, the same bits and the same stages, so the same outcome. -/

namespace Sys2Proof.Machine

/-! ## Two states that agree on what the command reads -/

/-- The states agree on CELL, on the registers and the input bits that PUSCH_TX reads (TB_SIZE, TB_LEN and the payload
only for NDI = 1), and on its slot (R158, R173). -/
structure TxAgree (cmd : TxCommand) (s₁ s₂ : State) : Prop where
  cell : s₁.cell = s₂.cell
  alloc : s₁.inputs.regs.alloc = s₂.inputs.regs.alloc
  uciLen : s₁.inputs.regs.uciLen = s₂.inputs.regs.uciLen
  betaAck : s₁.inputs.regs.betaAck = s₂.inputs.regs.betaAck
  betaRi : s₁.inputs.regs.betaRi = s₂.inputs.regs.betaRi
  betaCqi : s₁.inputs.regs.betaCqi = s₂.inputs.regs.betaCqi
  rnti : s₁.inputs.regs.rnti = s₂.inputs.regs.rnti
  payload : cmd.ndi = true →
    s₁.inputs.regs.tbSize = s₂.inputs.regs.tbSize ∧ s₁.inputs.regs.tbLen = s₂.inputs.regs.tbLen ∧
      ∀ i, i < tbLenOf s₁.inputs.regs.tbLen →
        s₁.inputs.mem.bitAt BitMem.tb.base i = s₂.inputs.mem.bitAt BitMem.tb.base i
  cqi : ∀ i, i < oCqiOf s₁.inputs.regs.uciLen →
    s₁.inputs.mem.bitAt BitMem.cqi.base i = s₂.inputs.mem.bitAt BitMem.cqi.base i
  ri : ∀ i, i < oRiOf s₁.inputs.regs.uciLen →
    s₁.inputs.mem.bitAt BitMem.ri.base i = s₂.inputs.mem.bitAt BitMem.ri.base i
  ack : ∀ i, i < oAckOf s₁.inputs.regs.uciLen →
    s₁.inputs.mem.bitAt BitMem.ack.base i = s₂.inputs.mem.bitAt BitMem.ack.base i
  slot : ∀ p : Fin 8, p.val = cmd.proc.toNat → s₁.slot p = s₂.slot p

/-- A read depends on no bit but those it reads. -/
theorem Memory.readBits_congr {m m' : Memory} {bm : BitMem} {n : Nat}
    (h : ∀ i, i < n → m.bitAt bm.base i = m'.bitAt bm.base i) : m.readBits bm n = m'.readBits bm n := by
  apply Option.ext
  intro bs
  rw [Memory.readBits_eq_some_iff, Memory.readBits_eq_some_iff]
  exact and_congr_right fun _ => forall₂_congr fun i hi => by rw [h i hi]

section
variable {cmd : TxCommand} {s₁ s₂ : State} (h : TxAgree cmd s₁ s₂)
include h

/-! ## The checks -/

theorem TxAgree.puschTarget_eq :
    puschTarget cmd s₁.inputs.regs s₁.cell = puschTarget cmd s₂.inputs.regs s₂.cell := by
  have htb : (!cmd.ndi || legalTbSize s₁.inputs.regs.tbSize s₁.inputs.regs.tbLen) =
      (!cmd.ndi || legalTbSize s₂.inputs.regs.tbSize s₂.inputs.regs.tbLen) := by
    cases hn : cmd.ndi with
    | false => rfl
    | true =>
      obtain ⟨hsize, hlen, -⟩ := h.payload hn
      rw [hsize, hlen]
  rw [puschTarget, puschTarget, h.cell, h.alloc, h.uciLen, htb]

theorem TxAgree.puschAdmit_eq : puschAdmit cmd s₁ = puschAdmit cmd s₂ := by
  rw [puschAdmit, puschAdmit, h.puschTarget_eq]
  cases ht : puschTarget cmd s₂.inputs.regs s₂.cell with
  | none => rfl
  | some target =>
    obtain ⟨hp, -⟩ := puschTarget_eq_some_iff.1 ht
    simp only [h.slot target.p (procIndex_eq_some_iff.1 hp), h.alloc]

theorem TxAgree.txSource_eq {p : Fin 8} (hp : p.val = cmd.proc.toNat) :
    txSource cmd.ndi s₁.inputs.regs s₁.cell (s₁.slot p) = txSource cmd.ndi s₂.inputs.regs s₂.cell (s₂.slot p) := by
  cases hn : cmd.ndi with
  | false => rw [h.slot p hp]; rfl
  | true =>
    obtain ⟨hsize, -⟩ := h.payload hn
    simp only [txSource, if_true, hsize, h.alloc, h.cell]

theorem TxAgree.txSizes_eq (src : TxSource) (m : Modulation) :
    txSizes src s₁.inputs.regs s₁.cell m = txSizes src s₂.inputs.regs s₂.cell m := by
  simp only [txSizes, h.alloc, h.uciLen, h.betaAck, h.betaRi, h.betaCqi, h.cell]

theorem TxAgree.puschSizing_eq {target : TxTarget} (ha : puschAdmit cmd s₁ = .ok target) :
    puschSizing cmd s₁ target = puschSizing cmd s₂ target := by
  obtain ⟨ht, -⟩ := puschAdmit_eq_ok ha
  obtain ⟨hp, -⟩ := puschTarget_eq_some_iff.1 ht
  rw [puschSizing, puschSizing, h.txSource_eq (procIndex_eq_some_iff.1 hp), h.txSizes_eq]

theorem TxAgree.puschPlan_eq : puschPlan cmd s₁ = puschPlan cmd s₂ := by
  rw [puschPlan, puschPlan, ← h.puschAdmit_eq]
  cases ha : puschAdmit cmd s₁ with
  | error code => rfl
  | ok target => exact h.puschSizing_eq ha

/-! ## The bits and the stages -/

theorem TxAgree.readPayload_eq : readPayload cmd.ndi s₁.inputs = readPayload cmd.ndi s₂.inputs := by
  cases hn : cmd.ndi with
  | false => rfl
  | true =>
    obtain ⟨-, hlen, hbits⟩ := h.payload hn
    exact (Memory.readBits_congr hbits).trans (congrArg (s₂.inputs.mem.readBits .tb <| tbLenOf ·) hlen)

theorem TxAgree.readTxBits_eq : readTxBits cmd.ndi s₁.inputs = readTxBits cmd.ndi s₂.inputs := by
  have huci : ∀ tb, readUci tb s₁.inputs = readUci tb s₂.inputs := fun tb => by
    rw [readUci, readUci, Memory.readBits_congr h.cqi, Memory.readBits_congr h.ri, Memory.readBits_congr h.ack,
      h.uciLen]
  simp only [readTxBits, h.readPayload_eq, huci]

theorem TxAgree.txPipeline_eq (plan : TxPlan) (bits : TxBits) (w : List (List Trit)) :
    txPipeline cmd s₁.inputs.regs s₁.cell plan bits w = txPipeline cmd s₂.inputs.regs s₂.cell plan bits w := by
  simp only [txPipeline, txScrambled, h.alloc, h.rnti, h.cell]

theorem TxAgree.slot_target {plan : TxPlan} (hplan : puschPlan cmd s₁ = .ok plan) :
    s₁.slot plan.target.p = s₂.slot plan.target.p :=
  h.slot _ (procIndex_eq_some_iff.1 (puschPlan_proc hplan))

/-- The stages give in both states what they give in one. -/
theorem TxAgree.stages_eq {plan : TxPlan} (hplan : puschPlan cmd s₁ = .ok plan) (bits : TxBits) :
    txPipeline cmd s₁.inputs.regs s₁.cell plan bits
        (txBuffers cmd.ndi plan.src.seg bits.tb (s₁.slot plan.target.p)) =
      txPipeline cmd s₂.inputs.regs s₂.cell plan bits
        (txBuffers cmd.ndi plan.src.seg bits.tb (s₂.slot plan.target.p)) := by
  rw [h.txPipeline_eq, h.slot_target hplan]

/-! ## The outcomes -/

/-- A command that fails in one state fails in the other, with the same code. -/
theorem TxAgree.fails {t₁ : State} (hrun : runPuschTx cmd s₁ = .next t₁) (hfail : t₁.status.err ≠ .ok) :
    ∃ code, runPuschTx cmd s₁ = .next (s₁.recorded opcodePuschTx cmd.proc code) ∧
      runPuschTx cmd s₂ = .next (s₂.recorded opcodePuschTx cmd.proc code) := by
  refine ⟨t₁.status.err, ?_⟩
  rcases runPuschTx_error hrun hfail with ha | ⟨target, tb, ha, hb, hs⟩ | ⟨plan, bits, hplan, hbits, ho⟩
  · exact ⟨runPuschTx_of_admit_error ha, runPuschTx_of_admit_error (h.puschAdmit_eq ▸ ha)⟩
  · exact ⟨runPuschTx_of_sizing_error ha hb hs,
      runPuschTx_of_sizing_error (h.puschAdmit_eq ▸ ha) (h.readPayload_eq ▸ hb) (h.puschSizing_eq ha ▸ hs)⟩
  · obtain ⟨herror₁, -⟩ := runPuschTx_of_plan hplan hbits
    obtain ⟨herror₂, -⟩ := runPuschTx_of_plan (h.puschPlan_eq ▸ hplan) (h.readTxBits_eq ▸ hbits)
    exact ⟨herror₁ _ ho, herror₂ _ (h.stages_eq hplan bits ▸ ho)⟩

/-- The committed slots are the same (R171, R172). -/
theorem TxAgree.slot_commitTx_eq {plan : TxPlan} (hplan : puschPlan cmd s₁ = .ok plan) (out : TxResult) :
    (commitTx cmd plan out s₁).slot plan.target.p = (commitTx cmd plan out s₂).slot plan.target.p := by
  rw [slot_commitTx, slot_commitTx, h.slot_target hplan]
  cases hn : cmd.ndi with
  | false => simp only [committedSlot, hn, Bool.false_eq_true, if_false, h.alloc]
  | true =>
    obtain ⟨hsize, -⟩ := h.payload hn
    simp only [committedSlot, hn, if_true, hsize, h.alloc]

end

/-- The dump of f reads back as f, whatever the memory was before. -/
theorem bitAt_commitTx_eq {cmd : TxCommand} (hdump : cmd.dumpBits = true) {s₁ s₂ : State} {plan : TxPlan}
    {out : TxResult} (hfits : out.Fits s₁.cell) (hlen : out.f.length = plan.sizes.g) {i : Nat}
    (hi : i < (commitTx cmd plan out s₁).lens.bits.toNat) :
    (commitTx cmd plan out s₁).mem.bitAt BitMem.bits.base i =
      (commitTx cmd plan out s₂).mem.bitAt BitMem.bits.base i := by
  have hlens := committedLens_bits cmd s₁.cell out s₁.lens (hlen ▸ hfits.bits)
  rw [if_pos hdump] at hlens
  rw [commitTx_lens, hlens, ← hlen] at hi
  rw [commitTx_mem, commitTx_mem, committedMem_bitAt hdump _ hfits _ (List.getElem?_eq_getElem hi),
    committedMem_bitAt hdump _ hfits _ (List.getElem?_eq_getElem hi)]

/-- The dump of the buffers reads back as their entries, whatever the memory was before. -/
theorem byteAt_commitTx_eq {cmd : TxCommand} (hdump : cmd.dumpHarq = true) {s₁ s₂ : State} {plan : TxPlan}
    {out : TxResult} (hfits : out.Fits s₁.cell) {n : Nat} (hn : n < (commitTx cmd plan out s₁).lens.harq.toNat) :
    (commitTx cmd plan out s₁).mem.byteAt (harqBase + n) = (commitTx cmd plan out s₂).mem.byteAt (harqBase + n) := by
  have hlens := committedLens_harq cmd plan s₁.lens hfits
  rw [if_pos hdump] at hlens
  rw [commitTx_lens, hlens] at hn
  rw [commitTx_mem, commitTx_mem, committedMem_harqEntry hdump _ hfits _ (List.getElem?_eq_getElem hn),
    committedMem_harqEntry hdump _ hfits _ (List.getElem?_eq_getElem hn)]

/-- Settles O21: states that agree on what the command reads fail with one code, or commit one result of the stages. -/
theorem puschTxDeterminism : Obligations.PuschTxDeterminism := by
  intro s₁ s₂ t₁ t₂ cmd hlegal hfit hcell halloc huci hbetaAck hbetaRi hbetaCqi hrnti hpayload hcqi hri hack hslot
    hrun₁ hrun₂
  have h : TxAgree cmd s₁ s₂ :=
    ⟨hcell, halloc, huci, hbetaAck, hbetaRi, hbetaCqi, hrnti, hpayload, hcqi, hri, hack, hslot⟩
  by_cases hok : t₁.status.err = .ok
  · obtain ⟨plan, bits, out, hplan, hbits, hout, rfl⟩ := runPuschTx_ok hrun₁ hok
    have hplan₂ := h.puschPlan_eq ▸ hplan
    have hbits₂ := h.readTxBits_eq ▸ hbits
    have hout₂ := h.stages_eq hplan bits ▸ hout
    obtain ⟨-, hcommit⟩ := runPuschTx_of_plan hplan₂ hbits₂
    rw [hcommit out hout₂] at hrun₂
    cases hrun₂
    obtain ⟨b, hbuf⟩ := puschTx_buffers hlegal hfit hplan hbits
    obtain ⟨hfits, hlen⟩ := txPipeline_fits_of_buffers hplan hbuf hout
    refine ⟨rfl, fun p hp => ?_, fun _ => ⟨?_, ⟨plan, bits, out, hplan, hplan₂, hbits, hbits₂, hout, hout₂⟩,
      fun hdump => ⟨?_, fun i hi => bitAt_commitTx_eq hdump hfits hlen hi⟩,
      fun hdump => ⟨?_, fun n hn => byteAt_commitTx_eq hdump hfits hn⟩⟩⟩
    · obtain rfl : p = plan.target.p := Fin.ext (hp.trans (procIndex_eq_some_iff.1 (puschPlan_proc hplan)).symm)
      exact h.slot_commitTx_eq hplan out
    · exact congrArg (fun cell : CellConfig => BitVec.ofNat 32 (15 * cell.nRb.nfft)) h.cell
    · exact (if_pos hdump).trans (if_pos hdump).symm
    · exact (if_pos hdump).trans (if_pos hdump).symm
  · obtain ⟨code, hcode₁, hcode₂⟩ := h.fails hrun₁ hok
    rw [hcode₁] at hrun₁
    rw [hcode₂] at hrun₂
    cases hrun₁
    cases hrun₂
    exact ⟨rfl, h.slot, fun herr => absurd herr hok⟩

end Sys2Proof.Machine
end

section
/-! PROOFS. The CRC of the transport block coder (41_tb_coder.md R201, R203): the register after a bit string is the
string's remainder modulo the generator, so the parity bits are the unique ones that complete a multiple of it. -/

namespace Sys2Proof.Machine

open Polynomial

/-! ## Bit strings as polynomials -/

theorem bitsPoly_concat (bits : List Bool) (b : Bool) :
    bitsPoly (bits ++ [b]) = bitsPoly bits * X + if b then 1 else 0 := by
  simp [bitsPoly, List.foldl_append]

theorem bitsPoly_append (bits tail : List Bool) :
    bitsPoly (bits ++ tail) = bitsPoly bits * X ^ tail.length + bitsPoly tail := by
  induction tail using List.reverseRecOn with
  | nil => simp [bitsPoly]
  | append_singleton tail b ih =>
    rw [← List.append_assoc, bitsPoly_concat, bitsPoly_concat, ih, List.length_append, List.length_singleton]
    ring

theorem bitsPoly_cons (b : Bool) (bits : List Bool) :
    bitsPoly (b :: bits) = (if b then 1 else 0) * X ^ bits.length + bitsPoly bits := by
  rw [← List.singleton_append, bitsPoly_append]
  simp [bitsPoly]

theorem coeff_bitsPoly (bits : List Bool) (e : Nat) :
    (bitsPoly bits).coeff e = if bits.reverse[e]? = some true then 1 else 0 := by
  induction bits using List.reverseRecOn generalizing e with
  | nil => simp [bitsPoly]
  | append_singleton bits b ih =>
    rw [bitsPoly_concat, List.reverse_concat]
    cases e with
    | zero => cases b <;> simp
    | succ e => cases b <;> simp [ih, coeff_one]

theorem bitsPoly_replicate_false (n : Nat) : bitsPoly (List.replicate n false) = 0 := by
  induction n with
  | zero => rfl
  | succ n ih => rw [List.replicate_succ, bitsPoly_cons, ih]; simp

theorem degree_bitsPoly_lt (bits : List Bool) : (bitsPoly bits).degree < bits.length := by
  rw [degree_lt_iff_coeff_zero]
  intro e he
  rw [coeff_bitsPoly, List.getElem?_eq_none (by simpa using he), if_neg (by simp)]

theorem bitsPoly_injective {p q : List Bool} (hlen : p.length = q.length) (h : bitsPoly p = bitsPoly q) : p = q := by
  refine List.reverse_injective (List.ext_getElem (by simpa using hlen) fun e hp hq => ?_)
  have hcoeff := congrArg (coeff · e) h
  simp only [coeff_bitsPoly, List.getElem?_eq_getElem hp, List.getElem?_eq_getElem hq, Option.some.injEq] at hcoeff
  have hbit : ∀ x y : Bool, (if x then (1 : ZMod 2) else 0) = (if y then 1 else 0) → x = y := by decide
  exact hbit _ _ hcoeff

/-! ## The register's low bits -/

/-- The low `l` bits of a register, most significant first: `crcParity` reads the final register so. -/
def regBits (l reg : Nat) : List Bool := (List.range l).map fun i => reg.testBit (l - 1 - i)

@[simp] theorem length_regBits (l reg : Nat) : (regBits l reg).length = l := by simp [regBits]

theorem crcParity_eq_regBits (g l : Nat) (bits : List Bool) :
    crcParity g l bits = regBits l (crcRegister g l bits) := rfl

theorem regBits_succ (l reg : Nat) : regBits (l + 1) reg = reg.testBit l :: regBits l reg := by
  rw [regBits, List.range_succ_eq_map, List.map_cons, List.map_map, regBits]
  congr 1
  refine List.map_congr_left fun i _ => congrArg reg.testBit ?_
  omega

theorem regBits_shift (l reg : Nat) (b : Bool) : regBits (l + 1) (2 * reg + b.toNat) = regBits l reg ++ [b] := by
  have hdouble : 2 * reg + b.toNat = Nat.bit b reg := (Nat.bit_val b reg).symm
  rw [regBits, List.range_succ, List.map_append, hdouble]
  congr 1
  · refine List.map_congr_left fun i hi => ?_
    rw [show l + 1 - 1 - i = (l - 1 - i) + 1 by have := List.mem_range.1 hi; omega, Nat.testBit_bit_succ]
  · simp

theorem regBits_zero (l : Nat) : regBits l 0 = List.replicate l false := by simp [regBits, List.map_const']

theorem bitsPoly_regBits_xor (l a b : Nat) :
    bitsPoly (regBits l (a ^^^ b)) = bitsPoly (regBits l a) + bitsPoly (regBits l b) := by
  have hbit : ∀ x y : Bool,
      (if x ^^ y then 1 else 0 : (ZMod 2)[X]) = (if x then 1 else 0) + if y then 1 else 0 := by
    rintro (_ | _) (_ | _) <;> simp [CharTwo.add_self_eq_zero]
  induction l with
  | zero => exact (add_zero _).symm
  | succ l ih =>
    simp only [regBits_succ, bitsPoly_cons, Nat.testBit_xor, length_regBits, ih, hbit]
    ring

/-! ## The register is the remainder (R201) -/

/-- A shift multiplies by D, adds the bit and takes one generator away when the degree reaches `l`. -/
theorem bitsPoly_crcStep {g l : Nat} (hg : g.testBit l = true) (reg : Nat) (b : Bool) :
    bitsPoly (regBits l (crcStep g l reg b)) =
      bitsPoly (regBits l reg ++ [b]) +
        if (2 * reg + b.toNat).testBit l then bitsPoly (regBits (l + 1) g) else 0 := by
  have htop : (crcStep g l reg b).testBit l = false := by
    simp only [crcStep]
    split
    · simp_all [Nat.testBit_xor]
    · simp_all
  have hlow : bitsPoly (regBits l (crcStep g l reg b)) = bitsPoly (regBits (l + 1) (crcStep g l reg b)) := by
    simp [regBits_succ, bitsPoly_cons, htop]
  rw [hlow, ← regBits_shift]
  unfold crcStep
  dsimp only
  split
  · exact bitsPoly_regBits_xor _ _ _
  · rw [add_zero]

/-- The register is congruent to the bits shifted in. -/
theorem dvd_bitsPoly_add_register {g l : Nat} (hg : g.testBit l = true) (bits : List Bool) :
    bitsPoly (regBits (l + 1) g) ∣ bitsPoly bits + bitsPoly (regBits l (bits.foldl (crcStep g l) 0)) := by
  induction bits using List.reverseRecOn with
  | nil =>
    rw [List.foldl_nil, regBits_zero, bitsPoly_replicate_false, add_zero]
    exact dvd_zero _
  | append_singleton bits b ih =>
    rw [List.foldl_append, List.foldl_cons, List.foldl_nil, bitsPoly_crcStep hg, ← add_assoc, bitsPoly_concat,
      bitsPoly_concat]
    have hshift : ∀ p q c : (ZMod 2)[X], p * X + c + (q * X + c) = (p + q) * X := fun p q c => by
      rw [add_add_add_comm, CharTwo.add_self_eq_zero, add_zero, add_mul]
    rw [hshift]
    exact dvd_add (ih.mul_right X) (by split <;> simp)

/-- Padded with `l` zeros the bits are a·D^l, and over GF(2) adding the remainder takes it away: the parity bits complete
a multiple of the generator. -/
theorem dvd_bitsPoly_append_crcParity {g l : Nat} (hg : g.testBit l = true) (a : List Bool) :
    bitsPoly (regBits (l + 1) g) ∣ bitsPoly (a ++ crcParity g l a) := by
  have hdvd := dvd_bitsPoly_add_register hg (a ++ List.replicate l false)
  rw [bitsPoly_append, bitsPoly_replicate_false, add_zero, List.length_replicate] at hdvd
  rwa [bitsPoly_append, length_crcParity, crcParity_eq_regBits, crcRegister]

/-- Two completions of the same length differ by a multiple of the generator of smaller degree, which is 0. -/
theorem completion_unique {G : (ZMod 2)[X]} {a p q : List Bool} (hG : G.degree = p.length)
    (hlen : q.length = p.length) (hp : G ∣ bitsPoly (a ++ p)) (hq : G ∣ bitsPoly (a ++ q)) : p = q := by
  refine bitsPoly_injective hlen.symm (sub_eq_zero.1 ?_)
  have hdvd := dvd_sub hp hq
  rw [bitsPoly_append, bitsPoly_append, hlen, add_sub_add_left_eq_sub] at hdvd
  refine eq_zero_of_dvd_of_degree_lt hdvd ?_
  rw [hG]
  exact (degree_sub_le _ _).trans_lt (max_lt (degree_bitsPoly_lt p) (hlen ▸ degree_bitsPoly_lt q))

/-! ## The three generators (R203) -/

theorem degree_bitsPoly_regBits_succ {g l : Nat} (hg : g.testBit l = true) :
    (bitsPoly (regBits (l + 1) g)).degree = l := by
  have hlow : (bitsPoly (regBits l g)).degree < (X ^ l : (ZMod 2)[X]).degree := by
    simpa using degree_bitsPoly_lt (regBits l g)
  rw [regBits_succ, hg, bitsPoly_cons, if_pos rfl, one_mul, length_regBits, degree_add_eq_left_of_degree_lt hlow,
    degree_X_pow]

/-- The polynomial of a register has the positions of its 1 bits as exponents. -/
theorem bitsPoly_regBits_eq_termsPoly (l reg : Nat) :
    bitsPoly (regBits l reg) = termsPoly ((List.range l).filter reg.testBit).reverse := by
  induction l with
  | zero => rfl
  | succ l ih =>
    rw [regBits_succ, bitsPoly_cons, ih, length_regBits, List.range_succ, List.filter_append, List.reverse_append]
    cases hbit : reg.testBit l <;> simp [hbit, termsPoly]

/-- The integer form of each generator is of its degree and lists the exponents of its polynomial. -/
theorem crcGenerators_integerForm :
    ∀ g ∈ crcGenerators, g.2.1.testBit g.2.2 = true ∧
      g.1 = ((List.range (g.2.2 + 1)).filter g.2.1.testBit).reverse := by decide

/-- Settles O31: the register is the remainder, and a completion of its length is unique. -/
theorem crcParityIsTheRemainder : Obligations.CrcParityIsTheRemainder := by
  intro g hg a
  obtain ⟨htop, hterms⟩ := crcGenerators_integerForm g hg
  rw [hterms, ← bitsPoly_regBits_eq_termsPoly]
  have hlen := length_crcParity g.2.1 g.2.2 a
  have hdvd := dvd_bitsPoly_append_crcParity htop a
  refine ⟨hlen, hdvd, fun p hp hpdvd => ?_⟩
  exact completion_unique (hp.symm ▸ degree_bitsPoly_regBits_succ htop) (hlen.trans hp.symm) hpdvd hdvd

end Sys2Proof.Machine
end

section
/-! PROOFS. Segmentation (41_tb_coder.md R205, R207): the record says what R205 does of every size, and the code blocks
hold the bits of the transport block in order. -/

namespace Sys2Proof.Machine

/-! ## The parameters (R205) -/

theorem ceilDiv_eq_natCeil (a : Nat) {m : Nat} (hm : 0 < m) : ceilDiv a m = ⌈(a : ℚ) / m⌉₊ := by
  refine eq_of_forall_ge_iff fun n => ?_
  rw [Nat.ceil_le, div_le_iff₀ (by exact_mod_cast hm), ceilDiv, ← Nat.ceilDiv_eq_add_pred_div,
    ceilDiv_le_iff_le_mul hm, mul_comm]
  exact_mod_cast Iff.rfl

/-- K− is the greatest K of the table below K+: the table rises, so the last of the smaller ones is the greatest. -/
theorem le_kMinusFor {k kPlus : Nat} (hmem : k ∈ kTable) (hlt : k < kPlus) : k ≤ kMinusFor kPlus := by
  have hsmaller : k ∈ kTable.filter fun k => decide (k < kPlus) := List.mem_filter.2 ⟨hmem, decide_eq_true hlt⟩
  have hrising := (kTable_rising.imp le_of_lt).filter fun k => decide (k < kPlus)
  rw [kMinusFor, List.getLast?_eq_getLast_of_ne_nil (List.ne_nil_of_mem hsmaller), Option.getD_some]
  exact hrising.rel_getLast hsmaller

/-- With several blocks K+ is no first row of the table, so that a K− exists. -/
theorem lt_kPlusFor_of_gt {b : Nat} (h : maxBlock < b) :
    40 < kPlusFor (ceilDiv b 6120) (b + ceilDiv b 6120 * 24) := by
  obtain ⟨hc, hbits, hbits'⟩ := ceilDiv_maxBlock_bounds h
  obtain ⟨-, hfit, -⟩ := kPlusFor_spec (c := ceilDiv b 6120) (b' := b + ceilDiv b 6120 * 24) (by omega)
  by_contra hsmall
  have := Nat.mul_le_mul_left (ceilDiv b 6120) (Nat.le_of_not_lt hsmall)
  omega

/-- K+ is least: no smaller K of the table holds the bits. -/
theorem kPlusFor_le_of_fits {c b' k : Nat} (h : b' ≤ c * 6144) (hmem : k ∈ kTable) (hfit : b' ≤ c * k) :
    kPlusFor c b' ≤ k := by
  by_contra hlt
  have := (kPlusFor_spec h).2.2 k hmem (by omega)
  omega

/-- For one block K+ is the least size that holds it. -/
theorem kPlusFor_one_spec {b : Nat} (h : b ≤ maxBlock) :
    kPlusFor 1 b ∈ kTable ∧ b ≤ 1 * kPlusFor 1 b ∧ ∀ k ∈ kTable, b ≤ 1 * k → kPlusFor 1 b ≤ k := by
  have hlargest : b ≤ 1 * 6144 := by simpa [maxBlock] using h
  obtain ⟨hmem, hfit, -⟩ := kPlusFor_spec hlargest
  exact ⟨hmem, hfit, fun k => kPlusFor_le_of_fits hlargest⟩

/-- Settles O32: the sums are those of `segmentation_covers`, the extrema those of the two searches. -/
theorem segmentationSizes : Obligations.SegmentationSizes := by
  intro b _ _
  have hcovers := segmentation_covers b
  have hplus : (segmentation b).cPlus + (segmentation b).cMinus = (segmentation b).c := by
    rw [hcovers.cPlus_eq, Nat.sub_add_cancel hcovers.cMinus_le]
  have htotal := hcovers.cPlus_eq ▸ hcovers.total
  rcases Nat.lt_or_ge maxBlock b with h | h
  · have hsmall : ¬ b ≤ 6144 := Nat.not_le.2 h
    obtain ⟨hc, hbits, hbits'⟩ := ceilDiv_maxBlock_bounds h
    have hlargest : b + ceilDiv b 6120 * 24 ≤ ceilDiv b 6120 * 6144 := by omega
    obtain ⟨hmem, hfit, -⟩ := kPlusFor_spec hlargest
    obtain ⟨hmem', hlt, -⟩ := kMinusFor_spec hmem (lt_kPlusFor_of_gt h)
    have hceil : ceilDiv b 6120 = ⌈(b : ℚ) / (6144 - 24)⌉₊ := by
      rw [ceilDiv_eq_natCeil b (by decide)]
      norm_num
    rw [segmentation_of_gt h] at hplus htotal ⊢
    refine ⟨(if_neg hsmall).symm, hceil.trans (if_neg hsmall).symm, (if_neg hsmall).mpr rfl, hmem, hfit,
      fun k => kPlusFor_le_of_fits hlargest, fun hone => absurd hone (by dsimp only; omega),
      fun _ => ⟨hmem', hlt, fun k => le_kMinusFor, rfl⟩, hplus, htotal, fun r _ => rfl⟩
  · obtain ⟨hmem, hfit, hleast⟩ := kPlusFor_one_spec h
    have hone : b ≤ 6144 := h
    rw [segmentation_of_le h] at hplus htotal ⊢
    refine ⟨(if_pos hone).symm, (if_pos hone).symm, (if_pos hone).mpr rfl, hmem, hfit, hleast,
      fun _ => ⟨rfl, rfl, rfl⟩, fun hne => absurd rfl hne, hplus, htotal, fun r _ => rfl⟩

/-! ## The code blocks (R207) -/

/-- Block r is built from the r-th of the pieces that the data sizes cut the bits into. -/
theorem codeBlocksFrom_eq_zipWith (seg : Segmentation) (n r : Nat) (bits : List Bool) :
    codeBlocksFrom seg n r bits =
      List.zipWith (codeBlock seg) (List.range' r n) (((List.range' r n).map seg.dataBits).splitLengths bits) := by
  induction n generalizing r bits with
  | zero => rfl
  | succ n ih =>
    rw [codeBlocksFrom, ih, List.range'_succ, List.map_cons, List.splitLengths_cons, List.zipWith_cons_cons]

theorem codeBlock_eq (seg : Segmentation) (r : Nat) (data : List Bool) :
    codeBlock seg r data =
      List.replicate (seg.filler r) none ++ data.map some ++
        (if seg.c > 1 then (crcParity gCrc24B 24 (List.replicate (seg.filler r) false ++ data)).map some else []) := by
  have hzeroed : (List.replicate (seg.filler r) none ++ data.map some).map bitOfTrit =
      List.replicate (seg.filler r) false ++ data := by
    simp [bitOfTrit, Function.comp_def]
  rw [codeBlock, hzeroed]
  split
  · rfl
  · rw [List.append_nil]

/-- Settles O33: the data vectors are the pieces that the data sizes cut the transport block into. -/
theorem segmentationPlacesEveryBit : Obligations.SegmentationPlacesEveryBit := by
  intro b _ _ seg
  have hcovers : seg.Covers b.length := segmentation_covers b.length
  have hblocks := codeBlocksFrom_eq_zipWith seg seg.c 0 b
  rw [← List.range_eq_range'] at hblocks
  have hsum := sum_dataBits hcovers
  refine ⟨length_codeBlocksFrom .., _, ?_, List.flatten_splitLengths _ _ hsum.ge, fun r block d hblock hd => ?_⟩
  · simp
  have hsize : d.length = seg.dataBits r := by
    obtain ⟨hr, rfl⟩ := List.getElem?_eq_some_iff.1 hd
    rw [List.splitLengths_length_getElem _ _ hsum.le, List.getElem_map, List.getElem_range]
  obtain ⟨r', d', hr', hd', rfl⟩ : ∃ r' d', (List.range seg.c)[r]? = some r' ∧ _ := by
    rw [codeBlocks, hblocks] at hblock
    exact List.getElem?_zipWith_eq_some.1 hblock
  obtain ⟨-, rfl⟩ := List.getElem?_eq_some_iff.1 hr'
  rw [List.getElem_range]
  obtain rfl := Option.some.inj (hd.symm.trans hd')
  exact ⟨length_codeBlock hcovers r hsize, codeBlock_eq seg r d⟩

end Sys2Proof.Machine
end

section
/-! PROOFS. The interleaver of the turbo encoder (41_tb_coder.md R212, R215): every row of QPP_TABLE meets the condition
under which a quadratic polynomial permutes the residues. -/

namespace Sys2Proof.Machine

/-- When f1 is coprime to K and every prime factor of K divides f2, the quadratic tells residues apart: the difference
of two values is (i − j)·(f1 + f2·(i + j)), whose second factor is coprime to K. -/
theorem quadratic_residue_injective {k f₁ f₂ n : Nat} (h₁ : f₁.Coprime k) (h₂ : k ∣ f₂ ^ n) {i j : Nat} (hi : i < k)
    (hj : j < k) (h : (f₁ * i + f₂ * i * i) % k = (f₁ * j + f₂ * j * j) % k) : i = j := by
  have hunit : IsCoprime (f₁ + f₂ * (i + j) : ℤ) k := by
    have hcoprime : (f₁ + f₂ * (i + j)).Coprime k := Nat.Coprime.symm <| Nat.coprime_of_dvd fun p hp hpk hpsum => by
      have hpf₂ : p ∣ f₂ := hp.dvd_of_dvd_pow (hpk.trans h₂)
      have hpf₁ : p ∣ f₁ := (Nat.dvd_add_left (hpf₂.mul_right _)).1 hpsum
      exact hp.one_lt.ne' (Nat.eq_one_of_dvd_coprimes h₁ hpf₁ hpk)
    exact_mod_cast Nat.isCoprime_iff_coprime.2 hcoprime
  have hdvd : (k : ℤ) ∣ (f₁ + f₂ * (i + j)) * (j - i) := by
    have hmod := Nat.modEq_iff_dvd.1 h
    push_cast at hmod
    convert hmod using 1
    ring
  have hres : i ≡ j [MOD k] := Nat.modEq_iff_dvd.2 (hunit.symm.dvd_of_dvd_mul_left hdvd)
  exact hres.eq_of_lt_of_lt hi hj

/-- A map of 0..K−1 into itself that tells its arguments apart is a permutation. -/
theorem map_range_perm {k : Nat} {f : Nat → Nat} (hlt : ∀ i < k, f i < k)
    (hinj : ∀ i < k, ∀ j < k, f i = f j → i = j) : ((List.range k).map f).Perm (List.range k) := by
  have hnodup : ((List.range k).map f).Nodup :=
    List.nodup_range.map_on fun i hi j hj => hinj i (List.mem_range.1 hi) j (List.mem_range.1 hj)
  refine (hnodup.subperm fun a ha => ?_).perm_of_length_le (by simp)
  obtain ⟨i, hi, rfl⟩ := List.mem_map.1 ha
  exact List.mem_range.2 (hlt i (List.mem_range.1 hi))

/-- Every row meets the condition on its coefficients: no exponent of a prime in a K exceeds 11. -/
theorem qppFor_condition :
    ∀ k ∈ kTable, 0 < k ∧ (qppFor k).1.Coprime k ∧ k ∣ (qppFor k).2 ^ 11 := by decide +kernel

theorem getElem?_qppInterleave {bits : List Bool} {i : Nat} (hi : i < bits.length) :
    (qppInterleave bits)[i]? =
      bits[((qppFor bits.length).1 * i + (qppFor bits.length).2 * i * i) % bits.length]? := by
  have hindex := Nat.mod_lt ((qppFor bits.length).1 * i + (qppFor bits.length).2 * i * i) (Nat.zero_lt_of_lt hi)
  rw [qppInterleave, List.getElem?_map, List.getElem?_range hi, Option.map_some, List.getElem?_eq_getElem hindex,
    List.getD_eq_getElem _ _ hindex]

/-- Settles O34: the condition on the coefficients makes the index map injective on 0..K−1. -/
theorem qppIsAPermutation : Obligations.QppIsAPermutation := by
  intro k hk
  obtain ⟨hpos, hcoprime, hprimes⟩ := qppFor_condition k hk
  refine ⟨map_range_perm (fun i _ => Nat.mod_lt _ hpos) fun i hi j hj h =>
    quadratic_residue_injective hcoprime hprimes hi hj h, ?_⟩
  rintro bits rfl i hi
  exact getElem?_qppInterleave hi

end Sys2Proof.Machine
end

section
/-! PROOFS. The turbo encoder (41_tb_coder.md R210 to R214): runs and tails of the constituent encoder follow the
equations of R211 and R213, and NULLs are hidden in d0 and d1 alone. -/

namespace Sys2Proof.Machine

/-! ## The constituent encoder (R211, R213) -/

/-- The input of step k: the block's bit, and past the block the tail input s2 xor s3. -/
def rscInput (K : Nat) (c : Nat → Bool) (k : Nat) (s : RscState) : Bool := if k < K then c k else s.s2 ^^ s.s3

/-- The state before step k. -/
def rscStates (K : Nat) (c : Nat → Bool) : Nat → RscState
  | 0 => .zero
  | k + 1 => (rscStates K c k).step (rscInput K c k (rscStates K c k))

/-- Every block has a run that meets the equations of R211. -/
theorem exists_isRscRun (K : Nat) (c : Nat → Bool) : ∃ x z σ, IsRscRun K c x z σ :=
  ⟨fun k => rscInput K c k (rscStates K c k), _, rscStates K c,
    { start := rfl
      input := fun _ hk => if_pos hk
      tail := fun _ hk => if_neg (Nat.not_lt.2 hk)
      next := fun _ => rfl
      parity := fun _ => rfl }⟩

section
variable {K : Nat} {c x z : Nat → Bool} {σ : Nat → RscState} (h : IsRscRun K c x z σ)
include h

theorem IsRscRun.step_eq (k : Nat) : (σ k).step (x k) = σ (k + 1) := (h.next k).symm

theorem IsRscRun.parity_eq (k : Nat) : (σ k).parity (x k) = z k := (h.parity k).symm

theorem IsRscRun.rscRun_eq (n k : Nat) :
    rscRun (σ k) ((List.range' k n).map x) = ((List.range' k n).map z, σ (k + n)) := by
  induction n generalizing k with
  | zero => rfl
  | succ n ih =>
    rw [List.range'_succ, List.map_cons, List.map_cons, rscRun, h.step_eq, h.parity_eq, ih, Nat.add_right_comm]
    rfl

/-- The encoder's run over the block gives the parities of the block and leaves the state before the tail. -/
theorem IsRscRun.rscRun_block : rscRun .zero ((List.range K).map c) = ((List.range K).map z, σ K) := by
  have hinput : (List.range K).map c = (List.range' 0 K).map x := by
    rw [← List.range_eq_range']
    exact List.map_congr_left fun k hk => (h.input k (List.mem_range.1 hk)).symm
  have hrun := h.rscRun_eq K 0
  rw [h.start, ← hinput, ← List.range_eq_range', Nat.zero_add] at hrun
  exact hrun

theorem IsRscRun.rscTail_eq (n k : Nat) (hk : K ≤ k) :
    rscTail n (σ k) = (List.range' k n).map fun i => (x i, z i) := by
  induction n generalizing k with
  | zero => rfl
  | succ n ih =>
    rw [rscTail, List.range'_succ, List.map_cons, ← h.tail k hk, h.step_eq, h.parity_eq, ih (k + 1) (by omega)]

end

/-- Three tail steps clear the state, and each emits s2 xor s3 with its parity (R213). -/
theorem rscTail_three (s : RscState) :
    let u₁ := s.s2 ^^ s.s3
    let s₁ := s.step u₁
    let u₂ := s₁.s2 ^^ s₁.s3
    let s₂ := s₁.step u₂
    let u₃ := s₂.s2 ^^ s₂.s3
    rscTail 3 s = [(u₁, s.parity u₁), (u₂, s₁.parity u₂), (u₃, s₂.parity u₃)] ∧ s₂.step u₃ = RscState.zero := by
  have hcancel : ∀ b d : Bool, ((b ^^ d) ^^ b ^^ d) = false := by decide
  have hstep : ∀ a b d : Bool, RscState.step ⟨a, b, d⟩ (b ^^ d) = ⟨false, a, b⟩ := fun a b d =>
    congrArg (RscState.mk · a b) (hcancel b d)
  obtain ⟨a, b, d⟩ := s
  refine ⟨rfl, ?_⟩
  simp only [hstep]
  rfl

/-! ## The streams (R213, R214) -/

/-- `bits` with a NULL wherever the block has one (R214). -/
def hideNulls (c : List Trit) (bits : List Bool) : List Trit := List.zipWith (fun t b => t.map fun _ => b) c bits

theorem length_hideNulls {c : List Trit} {bits : List Bool} (h : bits.length = c.length) :
    (hideNulls c bits).length = c.length := by simp [hideNulls, h]

theorem getElem?_hideNulls {blk : List Trit} {bits : List Bool} {k : Nat} {t : Trit} {b : Bool} (ht : blk[k]? = some t)
    (hb : bits[k]? = some b) : (hideNulls blk bits)[k]? = some (t.map fun _ => b) := by
  rw [hideNulls, List.getElem?_zipWith, ht, hb]

theorem hideNulls_map_some {x bits : List Bool} (h : bits.length = x.length) :
    hideNulls (x.map some) bits = bits.map some := by
  refine List.ext_getElem (by simp [hideNulls, h]) fun k _ _ => ?_
  simp [hideNulls]

theorem hideNulls_map_bitOfTrit (blk : List Trit) : hideNulls blk (blk.map bitOfTrit) = blk := by
  refine List.ext_getElem (by simp [hideNulls]) fun k _ _ => ?_
  simp only [hideNulls, List.getElem_zipWith, List.getElem_map]
  cases blk[k] <;> rfl

/-- The last four bits of each stream, from the tails of the two encoders over the bits `x` (R213). -/
def tailStreams (x : List Bool) : List Bool × List Bool × List Bool :=
  let t := tailAt (rscTail 3 (rscRun .zero x).2)
  let t' := tailAt (rscTail 3 (rscRun .zero (qppInterleave x)).2)
  ([(t 0).1, (t 1).2, (t' 0).1, (t' 1).2], [(t 0).2, (t 2).1, (t' 0).2, (t' 2).1],
    [(t 1).1, (t 2).2, (t' 1).1, (t' 2).2])

theorem turboEncode_d0 (c : List Trit) : (turboEncode c).d0 = c ++ (tailStreams (c.map bitOfTrit)).1.map some := by
  have hd0 : (turboEncode c).d0 =
      hideNulls c (c.map bitOfTrit) ++ (tailStreams (c.map bitOfTrit)).1.map some := rfl
  rwa [hideNulls_map_bitOfTrit] at hd0

theorem turboEncode_d1 (c : List Trit) :
    (turboEncode c).d1 =
      hideNulls c (rscRun .zero (c.map bitOfTrit)).1 ++ (tailStreams (c.map bitOfTrit)).2.1.map some := rfl

theorem turboEncode_d2 (c : List Trit) :
    (turboEncode c).d2 =
      (rscRun .zero (qppInterleave (c.map bitOfTrit))).1.map some ++ (tailStreams (c.map bitOfTrit)).2.2.map some := rfl

theorem map_bitOfTrit_map_some (x : List Bool) : (x.map some).map bitOfTrit = x := by
  simp [bitOfTrit, Function.comp_def]

/-- A block without NULLs: the three streams are bits, the block, its parities and those of the interleaved block, each
with its tail. -/
theorem turboEncode_map_some (x : List Bool) :
    turboEncode (x.map some) =
      { d0 := (x ++ (tailStreams x).1).map some
        d1 := ((rscRun .zero x).1 ++ (tailStreams x).2.1).map some
        d2 := ((rscRun .zero (qppInterleave x)).1 ++ (tailStreams x).2.2).map some } := by
  have h0 := turboEncode_d0 (x.map some)
  have h1 := turboEncode_d1 (x.map some)
  have h2 := turboEncode_d2 (x.map some)
  rw [map_bitOfTrit_map_some, ← List.map_append] at h0 h2
  rw [map_bitOfTrit_map_some, hideNulls_map_some (length_rscRun _ _), ← List.map_append] at h1
  rw [← h0, ← h1, ← h2]

/-- The streams of R213 in terms of the runs of the two encoders. -/
theorem turboEncode_of_runs {blk : List Bool} {x z x' z' : Nat → Bool} {σ σ' : Nat → RscState}
    (h : IsRscRun blk.length (fun k => blk.getD k false) x z σ)
    (h' : IsRscRun blk.length (fun k => blk.getD (qppIndex blk.length k) false) x' z' σ') :
    let K := blk.length
    turboEncode (blk.map some) =
      { d0 := ((List.range K).map x ++ [x K, z (K + 1), x' K, z' (K + 1)]).map some
        d1 := ((List.range K).map z ++ [z K, x (K + 2), z' K, x' (K + 2)]).map some
        d2 := ((List.range K).map z' ++ [x (K + 1), z (K + 2), x' (K + 1), z' (K + 2)]).map some } := by
  intro K
  have hblk : blk = (List.range K).map x := by
    refine List.ext_getElem (by simp [K]) fun k hk _ => ?_
    rw [List.getElem_map, List.getElem_range, h.input k hk, List.getD_eq_getElem]
  have hrun : rscRun .zero blk = ((List.range K).map z, σ K) := by
    rw [hblk, ← h.rscRun_block]
    congr 1
    exact List.map_congr_left fun k hk => h.input k (List.mem_range.1 hk)
  have hrun' : rscRun .zero (qppInterleave blk) = ((List.range K).map z', σ' K) := h'.rscRun_block
  have htails : tailStreams blk = ([x K, z (K + 1), x' K, z' (K + 1)], [z K, x (K + 2), z' K, x' (K + 2)],
      [x (K + 1), z (K + 2), x' (K + 1), z' (K + 2)]) := by
    rw [tailStreams, hrun, hrun', h.rscTail_eq 3 K le_rfl, h'.rscTail_eq 3 K le_rfl]
    rfl
  rw [turboEncode_map_some, htails, hrun, hrun', ← hblk]

/-! ## NULLs (R214) -/

/-- The block with each NULL replaced by 0. -/
def zeroNulls (blk : List Trit) : List Trit := blk.map fun t => some (bitOfTrit t)

theorem turboEncode_zeroNulls (blk : List Trit) :
    let x := blk.map bitOfTrit
    turboEncode (zeroNulls blk) =
      { d0 := (x ++ (tailStreams x).1).map some
        d1 := ((rscRun .zero x).1 ++ (tailStreams x).2.1).map some
        d2 := ((rscRun .zero (qppInterleave x)).1 ++ (tailStreams x).2.2).map some } := by
  have hzero : zeroNulls blk = (blk.map bitOfTrit).map some := (List.map_map ..).symm
  rw [hzero]
  exact turboEncode_map_some _

theorem length_parities (blk : List Trit) : (rscRun .zero (blk.map bitOfTrit)).1.length = blk.length := by simp

theorem turboEncode_d0_block {blk : List Trit} {k : Nat} (hk : k < blk.length) :
    (turboEncode blk).d0[k]? = blk[k]? := by
  rw [turboEncode_d0, List.getElem?_append_left hk]

theorem turboEncode_d1_block {blk : List Trit} {k : Nat} (hk : k < blk.length) :
    (turboEncode blk).d1[k]? = if blk[k]? = some none then some none else (turboEncode (zeroNulls blk)).d1[k]? := by
  have hparities := length_parities blk
  have ht := List.getElem?_eq_getElem hk
  have hb := List.getElem?_eq_getElem (hparities.symm ▸ hk)
  rw [turboEncode_d1, List.getElem?_append_left (by rwa [length_hideNulls hparities]), getElem?_hideNulls ht hb, ht,
    turboEncode_zeroNulls, List.getElem?_map, List.getElem?_append_left (by rwa [hparities]), hb]
  cases blk[k] <;> rfl

theorem turboEncode_d0_tail {blk : List Trit} {k : Nat} (hk : blk.length ≤ k) :
    (turboEncode blk).d0[k]? = (turboEncode (zeroNulls blk)).d0[k]? := by
  simp only [turboEncode_d0, turboEncode_zeroNulls, List.map_append]
  rw [List.getElem?_append_right hk, List.getElem?_append_right (by simpa using hk), List.length_map, List.length_map]

theorem turboEncode_d1_tail {blk : List Trit} {k : Nat} (hk : blk.length ≤ k) :
    (turboEncode blk).d1[k]? = (turboEncode (zeroNulls blk)).d1[k]? := by
  have hparities := length_parities blk
  simp only [turboEncode_d1, turboEncode_zeroNulls, List.map_append]
  rw [List.getElem?_append_right (by rwa [length_hideNulls hparities]),
    List.getElem?_append_right (by rwa [List.length_map, hparities]), length_hideNulls hparities, List.length_map,
    hparities]

theorem turboEncode_d2_zeroNulls (blk : List Trit) : (turboEncode blk).d2 = (turboEncode (zeroNulls blk)).d2 := by
  simp only [turboEncode_d2, turboEncode_zeroNulls, List.map_append]

theorem none_notMem_map_some (x : List Bool) : none ∉ x.map some := by simp

/-- Settles O35: the runs of R211 over the block and the interleaved block, the NULLs of R214, and the tail of R213. -/
theorem turboFiller : Obligations.TurboFiller := by
  refine ⟨?_, fun blk => ?_, rscTail_three⟩
  · intro blk K perm
    obtain ⟨x, z, σ, h⟩ := exists_isRscRun K fun k => blk.getD k false
    obtain ⟨x', z', σ', h'⟩ := exists_isRscRun K fun k => blk.getD (perm k) false
    have hstreams := turboEncode_of_runs h h'
    exact ⟨x, z, x', z', σ, σ', h, h', congrArg TurboStreams.d0 hstreams, congrArg TurboStreams.d1 hstreams,
      congrArg TurboStreams.d2 hstreams⟩
  · have hzeroed := turboEncode_zeroNulls blk
    have hd2 := turboEncode_d2_zeroNulls blk
    refine ⟨length_turboEncode_d0 blk, length_turboEncode_d1 blk, length_turboEncode_d2 blk,
      fun k => turboEncode_d0_block, fun k => turboEncode_d1_block,
      fun k hk => ⟨turboEncode_d0_tail hk, turboEncode_d1_tail hk⟩, hd2, ?_, ?_, ?_⟩
    · exact congrArg TurboStreams.d0 hzeroed ▸ none_notMem_map_some _
    · exact congrArg TurboStreams.d1 hzeroed ▸ none_notMem_map_some _
    · exact hd2.trans (congrArg TurboStreams.d2 hzeroed) ▸ none_notMem_map_some _

end Sys2Proof.Machine
end

section
/-! PROOFS. The sub-block interleaver and the circular buffer (42_rate_matcher.md R241 to R245): the interleaver
permutes the padded stream, so the buffer is a rearrangement of the three streams and their padding. -/

namespace Sys2Proof.Machine

/-! ## The positions read (R243) -/

section
variable {pattern : List Nat} (hpat : pattern.Perm (List.range 32))
include hpat

theorem column_lt (k : Nat) : pattern.getD k 0 < 32 := by
  rw [List.getD_eq_getElem?_getD]
  rcases hget : pattern[k]? with _ | c
  · exact Nat.zero_lt_succ 31
  · exact List.mem_range.1 (hpat.mem_iff.1 (List.mem_of_getElem? hget))

theorem column_injective {k l : Nat} (hk : k < 32) (hl : l < 32) (h : pattern.getD k 0 = pattern.getD l 0) : k = l := by
  have hlen : pattern.length = 32 := by simpa using hpat.length_eq
  rw [List.getD_eq_getElem _ _ (by omega), List.getD_eq_getElem _ _ (by omega)] at h
  exact (hpat.symm.nodup List.nodup_range).getElem_inj_iff.1 h

theorem columnIndex_lt {rows k : Nat} (hk : k < 32 * rows) : columnIndex pattern rows k < 32 * rows := by
  have hrow := Nat.mod_lt k (by omega : 0 < rows)
  have hcol := column_lt hpat (k / rows)
  rw [columnIndex]
  omega

/-- The columns follow a permutation of 0..31 and the rows are read in order, so every position is read once. -/
theorem columnIndex_injective {rows i j : Nat} (hi : i < 32 * rows) (hj : j < 32 * rows)
    (h : columnIndex pattern rows i = columnIndex pattern rows j) : i = j := by
  have hcolI := column_lt hpat (i / rows)
  have hcolJ := column_lt hpat (j / rows)
  rw [columnIndex, columnIndex] at h
  have hdiv : i / rows = j / rows :=
    column_injective hpat (Nat.div_lt_of_lt_mul (Nat.mul_comm 32 rows ▸ hi))
      (Nat.div_lt_of_lt_mul (Nat.mul_comm 32 rows ▸ hj)) (by omega)
  have hmod : i % rows = j % rows := by omega
  rw [← Nat.div_add_mod i rows, ← Nat.div_add_mod j rows, hdiv, hmod]

/-- A shift around the end of the stream keeps the positions apart. -/
theorem readPositions_perm (shift rows : Nat) :
    ((List.range (32 * rows)).map fun k => (columnIndex pattern rows k + shift) % (32 * rows)).Perm
      (List.range (32 * rows)) := by
  refine map_range_perm (fun k hk => Nat.mod_lt _ (by omega)) fun i hi j hj h => ?_
  have hindex : columnIndex pattern rows i ≡ columnIndex pattern rows j [MOD 32 * rows] :=
    Nat.ModEq.add_right_cancel' shift h
  exact columnIndex_injective hpat hi hj
    (hindex.eq_of_lt_of_lt (columnIndex_lt hpat hi) (columnIndex_lt hpat hj))

end

/-! ## The interleaver permutes the padded stream (R241, R243) -/

theorem map_getD_range {y : List Trit} {n : Nat} (h : y.length = n) :
    ((List.range n).map fun i => y.getD i none) = y := by
  refine List.ext_getElem (by simp [h]) fun i hi hi' => ?_
  rw [List.getElem_map, List.getElem_range, List.getD_eq_getElem _ _ hi']

theorem subblockInterleave_perm {pattern : List Nat} (hpat : pattern.Perm (List.range 32)) (shift : Nat)
    (d : List Trit) : (subblockInterleave pattern shift d).Perm (padFront d) := by
  have hperm := (readPositions_perm hpat shift (subblockRows d.length)).map fun i => (padFront d).getD i none
  rwa [List.map_map, map_getD_range (length_padFront d)] at hperm

theorem pTurbo_perm : pTurbo.Perm (List.range 32) := by decide

/-- The padding holds no bit (R241). -/
theorem filterMap_padFront (d : List Trit) : (padFront d).filterMap id = d.filterMap id := by
  rw [padFront, List.filterMap_append, List.filterMap_replicate_of_none rfl, List.nil_append]

theorem filterMap_subblockInterleave_perm (shift : Nat) (d : List Trit) :
    ((subblockInterleave pTurbo shift d).filterMap id).Perm (d.filterMap id) :=
  filterMap_padFront d ▸ (subblockInterleave_perm pTurbo_perm shift d).filterMap id

/-! ## The circular buffer (R244, R245) -/

theorem interlace_perm_append {a b : List Trit} (h : a.length = b.length) : (interlace a b).Perm (a ++ b) := by
  induction a generalizing b with
  | nil =>
    obtain rfl : b = [] := List.length_eq_zero_iff.1 h.symm
    rfl
  | cons x a ih =>
    cases b with
    | nil => simp at h
    | cons y b =>
      have htail : (interlace a b).Perm (a ++ b) := ih (by simpa using h)
      exact ((htail.cons y).trans List.perm_middle.symm).cons x

/-- Settles O36: v0 is a rearrangement of the padded d0, the interlaced half one of the padded d1 and d2, and the
padding holds no bit. -/
theorem circularBufferKeepsBits : Obligations.CircularBufferKeepsBits := by
  intro d h01 h12
  have hlen : (subblockInterleave pTurbo 0 d.d1).length = (subblockInterleave pTurbo 1 d.d2).length := by simp [h12]
  constructor
  · rw [circularBuffer, List.length_append, length_interlace _ _ hlen, length_subblockInterleave,
      length_subblockInterleave, ← h01]
    simp only [subblockRows, ceilDiv]
    omega
  · have hinterlaced := (interlace_perm_append hlen).filterMap id
    rw [List.filterMap_append] at hinterlaced
    simp only [circularBuffer, List.filterMap_append, List.append_assoc]
    exact (filterMap_subblockInterleave_perm 0 d.d0).append <| hinterlaced.trans <|
      (filterMap_subblockInterleave_perm 0 d.d1).append (filterMap_subblockInterleave_perm 1 d.d2)

end Sys2Proof.Machine
end

section
/-! PROOFS. The read-out of the rate matcher (42_rate_matcher.md R249 to R252): Select gives the bits a circular read
meets, in order, and the block lengths, the start offset and the output are those of the rules. -/

namespace Sys2Proof.Machine

/-! ## The circular read (R251) -/

/-- What the read of R251 finds at its step `i`. -/
def circularRead (w : List Trit) (k0 i : Nat) : Trit := w.getD ((k0 + i) % w.length) none

theorem getElem?_circularRead {w : List Trit} (h : w ≠ []) (k0 i : Nat) :
    w[(k0 + i) % w.length]? = some (circularRead w k0 i) := by
  have hlt := Nat.mod_lt (k0 + i) (List.length_pos_iff.2 h)
  rw [circularRead, List.getD_eq_getElem _ _ hlt, List.getElem?_eq_getElem hlt]

/-- The read repeats after each round of the buffer. -/
theorem circularRead_add_rounds (w : List Trit) (k0 q i : Nat) :
    circularRead w k0 (q * w.length + i) = circularRead w k0 i := by
  rw [circularRead, circularRead, Nat.add_left_comm, Nat.mul_add_mod_self_right]

/-- One round of reads is the buffer, turned to begin at k0. -/
theorem map_circularRead_range (w : List Trit) (k0 : Nat) :
    (List.range w.length).map (circularRead w k0) = w.rotate k0 := by
  refine List.ext_getElem (by simp) fun i hi _ => ?_
  have hlt : (k0 + i) % w.length < w.length := Nat.mod_lt _ (by simp at hi; omega)
  simp only [List.getElem_map, List.getElem_range, List.getElem_rotate, circularRead, List.getD_eq_getElem _ _ hlt,
    Nat.add_comm i k0]

theorem filterMap_circularRead_rounds (w : List Trit) (k0 q : Nat) :
    (List.range (q * w.length)).filterMap (circularRead w k0) =
      (List.replicate q ((w.rotate k0).filterMap id)).flatten := by
  induction q with
  | zero => simp
  | succ q ih =>
    have hround : (circularRead w k0 ∘ fun i => q * w.length + i) = circularRead w k0 :=
      funext fun i => circularRead_add_rounds w k0 q i
    rw [Nat.succ_mul, List.range_add, List.filterMap_append, ih, List.filterMap_map, hround, List.replicate_succ',
      List.flatten_append, List.flatten_singleton, ← map_circularRead_range, List.filterMap_map, Function.id_comp]

/-- A list repeated without end, cut to `n` elements: `n` copies always suffice. -/
theorem cycleTake_eq_take {α : Type} {whole : List α} (h : whole ≠ []) (cur : List α) {n q : Nat} (hq : n ≤ q) :
    cycleTake whole cur n = (cur ++ (List.replicate q whole).flatten).take n := by
  induction n generalizing cur q with
  | zero => rw [cycleTake_zero, List.take_zero]
  | succ n ih =>
    cases cur with
    | cons a rest => rw [cycleTake, ih rest (by omega : n ≤ q), List.cons_append, List.take_succ_cons]
    | nil =>
      obtain ⟨q, rfl⟩ : ∃ m, q = m + 1 := Nat.exists_eq_succ_of_ne_zero (by omega)
      cases whole with
      | nil => exact absurd rfl h
      | cons a rest =>
        rw [cycleTake, ih rest (by omega : n ≤ q), List.nil_append, List.replicate_succ, List.flatten_cons,
          List.cons_append, List.take_succ_cons]

/-- Select gives the first E bits that the read meets in any more than E rounds of the buffer (R251). -/
theorem selectBits_eq_take_reads {w : List Trit} (h : ∃ b, some b ∈ w) (k0 : Nat) {e q : Nat} (hq : e < q) :
    selectBits w e k0 = ((List.range (q * w.length)).filterMap (circularRead w k0)).take e := by
  obtain ⟨b, hb⟩ := h
  have hbits : (w.rotate k0).filterMap id ≠ [] :=
    List.ne_nil_of_mem (List.mem_filterMap.2 ⟨some b, List.mem_rotate.2 hb, rfl⟩)
  have hselect : selectBits w e k0 = cycleTake ((w.rotate k0).filterMap id) ((w.rotate k0).filterMap id) e := by
    rw [List.rotate_eq_drop_append_take_mod]
    rfl
  obtain ⟨q, rfl⟩ : ∃ m, q = m + 1 := Nat.exists_eq_succ_of_ne_zero (by omega)
  rw [hselect, filterMap_circularRead_rounds, cycleTake_eq_take hbits _ (Nat.le_of_lt_succ hq), List.replicate_succ,
    List.flatten_cons]

/-- Among the values of `f 0, f 1, …` that are not NULL, that of `f i` stands at the number of those before it. -/
theorem getElem?_filterMap_range_count {α : Type} {f : Nat → Option α} {i n : Nat} {b : α} (hi : i < n)
    (hb : f i = some b) : ((List.range n).filterMap f)[Nat.count (fun j => (f j).isSome) i]? = some b := by
  obtain ⟨m, rfl⟩ : ∃ m, n = i + (m + 1) := ⟨n - i - 1, by omega⟩
  have hcount : ((List.range i).filterMap f).length = Nat.count (fun j => (f j).isSome) i := by
    rw [List.length_filterMap_eq_countP, Nat.count]
    simp
  rw [List.range_add, List.filterMap_append, ← hcount, List.getElem?_append_right le_rfl, Nat.sub_self,
    List.range_succ_eq_map, List.map_cons, Nat.add_zero, List.filterMap_cons_some hb]
  rfl

/-- The read meets a bit again in every round. -/
theorem infinite_bit_positions {w : List Trit} (h : ∃ b, some b ∈ w) (k0 : Nat) :
    (Set.ofPred fun i => (circularRead w k0 i).isSome).Infinite := by
  obtain ⟨b, hb⟩ := h
  obtain ⟨i, -, hi⟩ : ∃ i ∈ List.range w.length, circularRead w k0 i = some b := by
    rw [← List.mem_map, map_circularRead_range]
    exact List.mem_rotate.2 hb
  have hpos := List.length_pos_of_mem hb
  refine Set.infinite_of_forall_exists_gt fun n => ⟨(n + 1) * w.length + i, ?_, ?_⟩
  · show (circularRead w k0 ((n + 1) * w.length + i)).isSome
    rw [circularRead_add_rounds, hi]
    rfl
  · have := Nat.le_mul_of_pos_right (n + 1) hpos
    omega

/-- The step of the read that gives output bit `k`: the `k`-th at which the read meets a bit. -/
noncomputable def bitPosition (w : List Trit) (k0 k : Nat) : Nat := Nat.nth (fun i => (circularRead w k0 i).isSome) k

theorem bitPosition_strictMono {w : List Trit} (h : ∃ b, some b ∈ w) (k0 : Nat) : StrictMono (bitPosition w k0) :=
  Nat.nth_strictMono (infinite_bit_positions h k0)

theorem circularRead_bitPosition {w : List Trit} {e k0 k : Nat} {b : Bool} (h : ∃ b, some b ∈ w)
    (hk : (selectBits w e k0)[k]? = some b) : circularRead w k0 (bitPosition w k0 k) = some b := by
  have hinf := infinite_bit_positions h k0
  obtain ⟨c, hc⟩ : ∃ c, circularRead w k0 (bitPosition w k0 k) = some c :=
    Option.isSome_iff_exists.1 (Nat.nth_mem_of_infinite hinf k)
  have hpos : 0 < w.length := List.length_pos_of_mem h.choose_spec
  have hrounds := Nat.le_mul_of_pos_right (e + bitPosition w k0 k + 1) hpos
  have hread := getElem?_filterMap_range_count (n := (e + bitPosition w k0 k + 1) * w.length) (by omega) hc
  have hcount : Nat.count (fun i => (circularRead w k0 i).isSome) (bitPosition w k0 k) = k :=
    Nat.count_nth_of_infinite hinf k
  have hke : k < e := length_selectBits h e k0 ▸ (List.getElem?_eq_some_iff.1 hk).1
  rw [selectBits_eq_take_reads h k0 (by omega : e < e + bitPosition w k0 k + 1), List.getElem?_take_of_lt hke] at hk
  rw [hcount] at hread
  rw [hc, ← hread, hk]

theorem circularRead_of_not_bitPosition {w : List Trit} {k0 i : Nat} (hi : ∀ k, bitPosition w k0 k ≠ i) :
    circularRead w k0 i = none := by
  by_contra hne
  exact hi _ (Nat.nth_count (Option.isSome_iff_ne_none.2 hne))

/-! ## Block lengths, start offset and output (R249, R250, R252) -/

theorem getElem?_blockLengths (g qm : Nat) {c r : Nat} (hr : r < c) :
    (blockLengths g qm c)[r]? =
      some (if r + g / qm % c + 1 ≤ c then qm * (g / qm / c) else qm * ceilDiv (g / qm) c) := by
  rw [blockLengths, List.getElem?_map, List.getElem?_range hr, Option.map_some]

/-- The ceiling of R250 is 12 for every buffer of 96·R entries. -/
theorem startOffset_eq (rows rv : Nat) : startOffset rows rv = rows * (24 * rv + 2) := by
  rcases Nat.eq_zero_or_pos rows with rfl | hrows
  · rw [startOffset, Nat.zero_mul, Nat.zero_mul]
  · have hceil : ceilDiv (96 * rows) (8 * rows) = 12 := by
      rw [ceilDiv, Nat.div_eq_iff (by omega)]
      omega
    rw [startOffset, hceil]

theorem rateMatch_eq_flatten (ws : List (List Trit)) (es : List Nat) (rv : Nat) :
    rateMatch ws es rv =
      ((ws.zip es).map fun we => selectBits we.1 we.2 (we.1.length / 96 * (24 * rv + 2))).flatten := by
  induction ws generalizing es with
  | nil => rfl
  | cons w ws ih =>
    cases es with
    | nil => rfl
    | cons e es =>
      rw [rateMatch, ih, startOffset_eq, bufferRows, List.zip_cons_cons, List.map_cons, List.flatten_cons]

/-- Settles O37: Select is the list of the bits a circular read meets, and the output bits' read positions are those at
which the read meets a bit, in order. -/
theorem selectReadsCircularly : Obligations.SelectReadsCircularly := by
  refine ⟨fun w e k0 h => ?_, fun g qm c hqm hc hg => ?_, startOffset_eq, fun ws es rv =>
    ⟨rateMatch_eq_flatten ws es rv, fun hlen h => length_rateMatch h es rv hlen⟩⟩
  · have hne : w ≠ [] := List.ne_nil_of_mem h.choose_spec
    refine ⟨length_selectBits h e k0, bitPosition w k0, bitPosition_strictMono h k0, fun k b hk => ?_, fun i hi => ?_⟩
    · rw [getElem?_circularRead hne, circularRead_bitPosition h hk]
    · rw [getElem?_circularRead hne, circularRead_of_not_bitPosition hi]
  · obtain ⟨g', rfl⟩ := Nat.dvd_of_mod_eq_zero hg
    refine ⟨length_blockLengths _ _ _, sum_blockLengths g' hqm hc, fun r hr => ?_⟩
    rw [getElem?_blockLengths _ _ hr, ceilDiv_eq_natCeil _ hc]

end Sys2Proof.Machine
end

section
/-! PROOFS. The UCI budgets and codes (43_uci_encoder.md R272 to R287): each budget is a clamped ceiling of a rational and
grows with its beta offset, and each code's output is given bit by bit. -/

namespace Sys2Proof.Machine

/-! ## The budgets (R272, R273) -/

/-- The ceiling of the rational quotient, a divisor of 0 included: both sides are 0 then. -/
theorem ceilDiv_eq_natCeil_of_any (a m : Nat) : ceilDiv a m = ⌈(a : ℚ) / m⌉₊ := by
  rcases Nat.eq_zero_or_pos m with rfl | hm
  · simp [ceilDiv]
  · exact ceilDiv_eq_natCeil a hm

theorem ceilDiv_eight_mul_eq_natCeil (a sumK : Nat) : ceilDiv a (8 * sumK) = ⌈(a : ℚ) / (8 * sumK)⌉₊ := by
  rw [ceilDiv_eq_natCeil_of_any, Nat.cast_mul, Nat.cast_ofNat]

theorem qPrimeAckRi_eq_natCeil (o mscInit nsymbInit beta sumK msc : Nat) :
    qPrimeAckRi o mscInit nsymbInit beta sumK msc =
      if o = 0 then 0 else min ⌈((o * mscInit * nsymbInit * beta : ℕ) : ℚ) / (8 * sumK)⌉₊ (4 * msc) := by
  rw [qPrimeAckRi, ceilDiv_eight_mul_eq_natCeil]

theorem qPrimeCqi_eq_natCeil (o mscInit nsymbInit beta sumK msc nsymb qRi : Nat) :
    qPrimeCqi o mscInit nsymbInit beta sumK msc nsymb qRi =
      if o = 0 then 0
      else min ⌈(((o + (if o ≤ 11 then 0 else 8)) * mscInit * nsymbInit * beta : ℕ) : ℚ) / (8 * sumK)⌉₊
        (msc * nsymb - qRi) := by
  rw [qPrimeCqi, ceilDiv_eight_mul_eq_natCeil, cqiCrcLength]

/-! ## The budgets and the data capacity as the beta offsets grow (R275) -/

theorem ceilDiv_mono {a a' : Nat} (h : a ≤ a') (m : Nat) : ceilDiv a m ≤ ceilDiv a' m :=
  Nat.div_le_div_right (by omega)

theorem qPrimeAckRi_mono (o mscInit nsymbInit : Nat) {beta beta' : Nat} (sumK msc : Nat) (h : beta ≤ beta') :
    qPrimeAckRi o mscInit nsymbInit beta sumK msc ≤ qPrimeAckRi o mscInit nsymbInit beta' sumK msc := by
  rw [qPrimeAckRi, qPrimeAckRi]
  split
  · exact le_rfl
  · exact min_le_min_right _ (ceilDiv_mono (Nat.mul_le_mul_left _ h) _)

theorem qPrimeCqi_mono (o mscInit nsymbInit : Nat) {beta beta' : Nat} (sumK msc nsymb qRi : Nat) (h : beta ≤ beta') :
    qPrimeCqi o mscInit nsymbInit beta sumK msc nsymb qRi ≤
      qPrimeCqi o mscInit nsymbInit beta' sumK msc nsymb qRi := by
  rw [qPrimeCqi, qPrimeCqi]
  split
  · exact le_rfl
  · exact min_le_min_right _ (ceilDiv_mono (Nat.mul_le_mul_left _ h) _)

/-- More elements for RI never leave more for data: CQI's budget falls by no more than RI's grows (R273, R274). -/
theorem elements_left_antitone (o mscInit nsymbInit beta sumK msc nsymb : Nat) {qRi qRi' : Nat} (h : qRi ≤ qRi') :
    msc * nsymb - qPrimeCqi o mscInit nsymbInit beta sumK msc nsymb qRi' - qRi' ≤
      msc * nsymb - qPrimeCqi o mscInit nsymbInit beta sumK msc nsymb qRi - qRi := by
  rw [qPrimeCqi, qPrimeCqi]
  split <;> omega

/-- Settles O39: G is the modulation order times the elements that CQI and RI leave, and ACK's budget has no part in
it. -/
theorem budgetsMonotone : Obligations.BudgetsMonotone := by
  refine ⟨fun o mscInit nsymbInit _ _ sumK msc => qPrimeAckRi_mono o mscInit nsymbInit sumK msc,
    fun o mscInit nsymbInit _ _ sumK msc nsymb qRi => qPrimeCqi_mono o mscInit nsymbInit sumK msc nsymb qRi,
    fun src regs cell m w => ⟨fun h => ?_, fun h => ?_, rfl⟩⟩
  · have hcqi := qPrimeCqi_mono (oCqiOf regs.uciLen) src.mscInit src.nsymbInit src.sumK
      (12 * (nPrbOf regs.alloc).toNat) cell.cp.nSymbPusch (txSizes src regs cell m).qpRi h
    exact Nat.mul_le_mul_left _ (Nat.sub_le_sub_right (Nat.sub_le_sub_left hcqi _) _)
  · have hri := qPrimeAckRi_mono (oRiOf regs.uciLen) src.mscInit src.nsymbInit src.sumK
      (12 * (nPrbOf regs.alloc).toNat) h
    exact Nat.mul_le_mul_left _ (elements_left_antitone _ _ _ _ _ _ _ hri)

/-! ## The block code (R282) -/

/-- A basis row holds only 0 and 1, so the bitwise sum is the sum of the products modulo 2. -/
theorem rmBit_eq_sum_mod_two (o : List Bool) {row : List Nat} (hrow : ∀ m ∈ row, m ≤ 1) :
    rmBit o row =
      decide ((∑ n ∈ Finset.range o.length, (o.getD n false).toNat * row.getD n 0) % 2 = 1) := by
  induction o generalizing row with
  | nil => simp [rmBit]
  | cons b o ih =>
    cases row with
    | nil => simp [rmBit]
    | cons m row =>
      obtain ⟨hm, hrow⟩ := List.forall_mem_cons.1 hrow
      rw [rmBit, ih hrow, List.length_cons, Finset.sum_range_succ']
      simp only [List.getD_cons_succ, List.getD_cons_zero]
      generalize ∑ n ∈ Finset.range o.length, (o.getD n false).toNat * row.getD n 0 = sum
      have hterm : b.toNat * m = (b && m == 1).toNat := by
        interval_cases m <;> cases b <;> rfl
      have hparity := Nat.mod_two_eq_zero_or_one sum
      rw [hterm]
      cases b && m == 1 <;> rcases hparity with h | h <;> simp [Nat.add_mod, h]

theorem rm32Table_le_one : ∀ row ∈ rm32Table, ∀ m ∈ row, m ≤ 1 := by decide

theorem getElem?_rm32 (o : List Bool) {i : Nat} (hi : i < 32) :
    (rm32 o)[i]? =
      some (decide
        ((∑ n ∈ Finset.range o.length, (o.getD n false).toNat * (rm32Table.getD i []).getD n 0) % 2 = 1)) := by
  have hrow : rm32Table[i]? = some (rm32Table.getD i []) := by
    rw [List.getD_eq_getElem _ _ hi]
    exact List.getElem?_eq_getElem hi
  rw [rm32, List.getElem?_map, hrow, Option.map_some,
    rmBit_eq_sum_mod_two o (rm32Table_le_one _ (List.mem_of_getElem? hrow))]

/-! ## The tail-biting code (R285) -/

theorem tbcc_eq (c : List Bool) :
    tbcc c =
      [(List.range c.length).map fun k => tapAt c k 0 ^^ tapAt c k 2 ^^ tapAt c k 3 ^^ tapAt c k 5 ^^ tapAt c k 6,
        (List.range c.length).map fun k => tapAt c k 0 ^^ tapAt c k 1 ^^ tapAt c k 2 ^^ tapAt c k 3 ^^ tapAt c k 6,
        (List.range c.length).map fun k => tapAt c k 0 ^^ tapAt c k 1 ^^ tapAt c k 2 ^^ tapAt c k 4 ^^ tapAt c k 6] := by
  simp [tbcc, tbccTaps, tbccStream]

/-! ## Rate matching of the convolutional code (R281) -/

theorem pConv_perm : pConv.Perm (List.range 32) := by decide

/-- Without a shift the interleaver reads the padded stream at P[k div R] + 32·(k mod R). -/
theorem getElem?_subblockInterleave_zero {pattern : List Nat} (hpat : pattern.Perm (List.range 32)) (d : List Trit)
    {k : Nat} (hk : k < 32 * subblockRows d.length) :
    (subblockInterleave pattern 0 d)[k]? = (padFront d)[columnIndex pattern (subblockRows d.length) k]? := by
  have hindex := columnIndex_lt hpat hk
  have hpad := length_padFront d
  simp only [subblockInterleave, List.getElem?_map, List.getElem?_range hk, Option.map_some, Nat.add_zero,
    Nat.mod_eq_of_lt hindex]
  rw [List.getD_eq_getElem _ _ (by omega), List.getElem?_eq_getElem]

/-- The buffer ConvRateMatch reads: the interleaved streams, one after the other. -/
def convBuffer (ds : List (List Bool)) : List Trit :=
  (ds.map fun d => subblockInterleave pConv 0 (d.map some)).flatten

theorem convRateMatch_eq (ds : List (List Bool)) (q : Nat) : convRateMatch ds q = selectBits (convBuffer ds) q 0 := rfl

section
variable {ds : List (List Bool)} {n : Nat} (hlen : ∀ d ∈ ds, d.length = n)
include hlen

theorem length_of_mem_convStreams :
    ∀ v ∈ ds.map (fun d => subblockInterleave pConv 0 (d.map some)), v.length = 32 * subblockRows n := by
  intro v hv
  obtain ⟨d, hd, rfl⟩ := List.mem_map.1 hv
  rw [length_subblockInterleave, List.length_map, hlen d hd]

theorem length_convBuffer : (convBuffer ds).length = ds.length * (32 * subblockRows n) := by
  rw [convBuffer, length_flatten_uniform (length_of_mem_convStreams hlen), List.length_map]

theorem getElem?_convBuffer {i k : Nat} {d : List Bool} (hd : ds[i]? = some d) (hk : k < 32 * subblockRows n) :
    (convBuffer ds)[i * (32 * subblockRows n) + k]? =
      (padFront (d.map some))[columnIndex pConv (subblockRows n) k]? := by
  obtain rfl : d.length = n := hlen d (List.mem_of_getElem? hd)
  have hk' : k < (subblockInterleave pConv 0 (d.map some)).length := by simpa using hk
  have hread := getElem?_subblockInterleave_zero pConv_perm (d.map some) (k := k) (by simpa using hk)
  rw [List.length_map] at hread
  rw [convBuffer, getElem?_flatten_uniform (length_of_mem_convStreams hlen)
    (by rw [List.getElem?_map, hd, Option.map_some]) (List.getElem?_eq_getElem hk'), ← hread,
    List.getElem?_eq_getElem hk']

end

/-! ## Circular repetition (R280, R287) -/

theorem getElem?_cycleTake {α : Type} {whole : List α} (h : whole ≠ []) {n i : Nat} (hi : i < n) :
    (cycleTake whole whole n)[i]? = whole[i % whole.length]? := by
  have hlt : i % whole.length < whole.length := Nat.mod_lt _ (List.length_pos_iff.2 h)
  have hcopy : (List.replicate (n + 1) whole)[i / whole.length]? = some whole :=
    List.getElem?_replicate_of_lt (Nat.lt_succ_of_le ((Nat.div_le_self _ _).trans hi.le))
  have hread := getElem?_flatten_uniform (n := whole.length) (fun _ hxs => congrArg _ (List.eq_of_mem_replicate hxs))
    hcopy (List.getElem?_eq_getElem hlt)
  rw [Nat.div_add_mod'] at hread
  rw [cycleTake_eq_take h whole le_rfl, ← List.flatten_cons, ← List.replicate_succ, List.getElem?_take_of_lt hi, hread,
    List.getElem?_eq_getElem hlt]

theorem encodeCqi_of_length_le {o : List Bool} (hpos : 1 ≤ o.length) (hle : o.length ≤ 11) (q : Nat) :
    encodeCqi o q = cycleTake (rm32 o) (rm32 o) q := by
  rw [encodeCqi, if_neg (by omega), if_pos hle]

theorem encodeCqi_of_lt_length {o : List Bool} (h : 11 < o.length) (q : Nat) :
    encodeCqi o q = convRateMatch (tbcc (o ++ crcParity 0x19B 8 o)) q := by
  rw [encodeCqi, if_neg (by omega), if_neg (by omega), gCrc8]

theorem getElem?_encodeCqi {o : List Bool} (hpos : 1 ≤ o.length) (hle : o.length ≤ 11) {q i : Nat} (hi : i < q) :
    (encodeCqi o q)[i]? = (rm32 o)[i % 32]? := by
  rw [encodeCqi_of_length_le hpos hle, getElem?_cycleTake (List.ne_nil_of_length_pos (by simp)) hi, length_rm32]

theorem encodeAckRi_nil (qm q : Nat) : encodeAckRi [] qm q = [] := by
  cases q <;> rfl

/-- What the buffer of three streams of one length holds, entry by entry (R281). -/
theorem convBuffer_three {d0 d1 d2 : List Bool} (h1 : d1.length = d0.length) (h2 : d2.length = d0.length) :
    (convBuffer [d0, d1, d2]).length = 3 * (32 * subblockRows d0.length) ∧
      ∀ i d, [d0, d1, d2][i]? = some d → ∀ k, k < 32 * subblockRows d0.length →
        (convBuffer [d0, d1, d2])[i * (32 * subblockRows d0.length) + k]? =
          (List.replicate (32 * subblockRows d0.length - d.length) none ++ d.map some)[
            columnIndex pConv (subblockRows d0.length) k]? := by
  have hlen : ∀ d ∈ [d0, d1, d2], d.length = d0.length := by simp [h1, h2]
  refine ⟨length_convBuffer hlen, fun i d hd k hk => ?_⟩
  rw [getElem?_convBuffer hlen hd hk, padFront, List.length_map, hlen d (List.mem_of_getElem? hd)]

theorem getElem?_encodeAckRi {o : List Bool} (ho : o ≠ []) (qm : Nat) {q i : Nat} (hi : i < q) :
    (encodeAckRi o qm q)[i]? = (ackRiBlock o qm)[i % (ackRiBlock o qm).length]? :=
  getElem?_cycleTake (ackRiBlock_ne_nil ho qm) hi

/-- Settles O38: the integer ceilings are the rational ones, the block code and the tail-biting code are their sums,
the convolutional code is rate matched from `convBuffer`, and short codes are repeated circularly. -/
theorem budgetFormulas : Obligations.BudgetFormulas := by
  refine ⟨qPrimeAckRi_eq_natCeil, qPrimeCqi_eq_natCeil, fun o _ => ⟨length_rm32 o, fun i => getElem?_rm32 o⟩,
    fun c _ => tbcc_eq c, fun d0 d1 d2 q h1 h2 => ?_, fun o q => ⟨fun h => ?_, fun hpos hle => ?_, fun h => ?_⟩,
    fun o qm q => ⟨fun h => ?_, fun hpos _ _ => ?_⟩⟩
  · exact ⟨convBuffer [d0, d1, d2], (convBuffer_three h1 h2).1, convRateMatch_eq _ q, (convBuffer_three h1 h2).2⟩
  · rw [encodeCqi, if_pos h]
  · exact ⟨length_encodeCqi (List.ne_nil_of_length_pos hpos) q, fun i => getElem?_encodeCqi hpos hle⟩
  · exact ⟨length_encodeCqi (List.ne_nil_of_length_pos (by omega)) q, encodeCqi_of_lt_length h q⟩
  · rw [List.length_eq_zero_iff.1 h, encodeAckRi_nil]
  · have ho : o ≠ [] := List.ne_nil_of_length_pos hpos
    refine ⟨length_cycleTake (ackRiBlock_ne_nil ho qm) _ q, fun i hi => ?_⟩
    rw [getElem?_encodeAckRi ho qm hi]
    match o with
    | [] => exact absurd rfl ho
    | [_] => rfl
    | [_, _] => rfl
    | _ :: _ :: _ :: _ => rfl

end Sys2Proof.Machine
end

section
/-! PROOFS. The interleaver matrix (44_multiplexer.md R311 to R319): both control fields are written by one loop that
puts vector i into a cell of its own, the data sequence fills the cells that loop left empty, and the read-out takes
the matrix column by column. -/

namespace Sys2Proof.Machine

/-! ## Writing a list of values to cells (R314, R316) -/

/-- The loop of R314 and R316: value i, i+1, … of `vs` goes to `cell i`, `cell (i + 1)`, … -/
def setCells {α : Type} (cell : Nat → Nat) : Nat → List α → List α → List α
  | _, [], y => y
  | i, v :: vs, y => setCells cell (i + 1) vs (y.set (cell i) v)

theorem placeRi_eq_setCells (columns : List Nat) (cmux rmux i : Nat) (vs : List CtlVector)
    (y : List (Option CtlVector)) :
    placeRi columns cmux rmux i vs y = setCells (controlCell columns cmux rmux) i (vs.map some) y := by
  induction vs generalizing i y with
  | nil => rfl
  | cons v vs ih => exact ih (i + 1) _

theorem placeAck_eq_setCells (columns : List Nat) (cmux rmux i : Nat) (vs y : List CtlVector) :
    placeAck columns cmux rmux i vs y = setCells (controlCell columns cmux rmux) i vs y := by
  induction vs generalizing i y with
  | nil => rfl
  | cons v vs ih => exact ih (i + 1) _

theorem getElem?_setCells_of_forall_ne {α : Type} {cell : Nat → Nat} {i n : Nat} {vs : List α} (y : List α)
    (h : ∀ k, k < vs.length → cell (i + k) ≠ n) : (setCells cell i vs y)[n]? = y[n]? := by
  induction vs generalizing i y with
  | nil => rfl
  | cons v vs ih =>
    have hrest : ∀ k, k < vs.length → cell (i + 1 + k) ≠ n := fun k hk => by
      rw [Nat.add_right_comm]
      exact h (k + 1) (Nat.succ_lt_succ hk)
    have hfirst : cell i ≠ n := h 0 (Nat.succ_pos _)
    rw [setCells, ih _ hrest, List.getElem?_set_ne hfirst]

/-- No later value overwrites one that was put down, since no two cells are the same. -/
theorem getElem?_setCells_cell {α : Type} {cell : Nat → Nat} {i k : Nat} {vs y : List α} {v : α}
    (hinj : ∀ j, j < vs.length → cell (i + j) = cell (i + k) → j = k) (hlt : cell (i + k) < y.length)
    (hv : vs[k]? = some v) : (setCells cell i vs y)[cell (i + k)]? = some v := by
  induction vs generalizing i k y with
  | nil => simp at hv
  | cons u vs ih =>
    cases k with
    | zero =>
      have hne : ∀ j, j < vs.length → cell (i + 1 + j) ≠ cell i := fun j hj e => by
        rw [Nat.add_right_comm] at e
        exact Nat.succ_ne_zero j (hinj (j + 1) (Nat.succ_lt_succ hj) e)
      obtain rfl : u = v := by simpa using hv
      rw [Nat.add_zero] at hlt ⊢
      rw [setCells, getElem?_setCells_of_forall_ne _ hne, List.getElem?_set_self hlt]
    | succ k =>
      have hk : i + (k + 1) = i + 1 + k := by omega
      rw [hk] at hinj hlt ⊢
      refine ih (fun j hj e => ?_) (by rwa [List.length_set]) (by simpa using hv)
      rw [Nat.add_right_comm] at e
      exact Nat.succ_injective (hinj (j + 1) (Nat.succ_lt_succ hj) e)

/-! ## The cells of RI and ACK (R313, R314, R316) -/

theorem riColumns_getD_ne_ackColumns_getD (cp : CyclicPrefix) {j j' : Nat} (hj : j < 4) (hj' : j' < 4) :
    (riColumns cp).getD j 0 ≠ (ackColumns cp).getD j' 0 := by
  have h : ∀ cp, ∀ j j' : Fin 4, (riColumns cp).getD j 0 ≠ (ackColumns cp).getD j' 0 := by
    intro cp; cases cp <;> decide
  exact h cp ⟨j, hj⟩ ⟨j', hj'⟩

/-- The column of a field's cell is one of the field's columns. -/
theorem controlCell_mod {cp : CyclicPrefix} {columns : List Nat}
    (h : columns = riColumns cp ∨ columns = ackColumns cp) (rmux i : Nat) :
    controlCell columns cp.nSymbPusch rmux i % cp.nSymbPusch = columns.getD (3 * i % 4) 0 := by
  have hcolumn := (columns_spec cp columns h _ 0 (Nat.mod_lt (3 * i) (by decide)) (by decide)).1
  rw [controlCell, Nat.mul_add_mod_self_right, Nat.mod_eq_of_lt hcolumn]

/-- RI and ACK share no cell, since they share no column (R313, R319). -/
theorem controlCell_ri_ne_ack (cp : CyclicPrefix) (rmux i i' : Nat) :
    controlCell (riColumns cp) cp.nSymbPusch rmux i ≠ controlCell (ackColumns cp) cp.nSymbPusch rmux i' := by
  intro e
  have hmod := congrArg (· % cp.nSymbPusch) e
  simp only [controlCell_mod (Or.inl rfl), controlCell_mod (Or.inr rfl)] at hmod
  exact riColumns_getD_ne_ackColumns_getD cp (Nat.mod_lt _ (by decide)) (Nat.mod_lt _ (by decide)) hmod

/-- Within its clamp, vector i of a field stands in the field's cell i after the loop. -/
theorem getElem?_setCells_controlCell {α : Type} {cp : CyclicPrefix} {columns : List Nat}
    (h : columns = riColumns cp ∨ columns = ackColumns cp) {rmux : Nat} {vs y : List α} (hvs : vs.length ≤ 4 * rmux)
    (hy : y.length = rmux * cp.nSymbPusch) {i : Nat} {v : α} (hv : vs[i]? = some v) :
    (setCells (controlCell columns cp.nSymbPusch rmux) 0 vs y)[controlCell columns cp.nSymbPusch rmux i]? = some v := by
  have hi : i < vs.length := (List.getElem?_eq_some_iff.1 hv).1
  have hplaced := getElem?_setCells_cell (cell := controlCell columns cp.nSymbPusch rmux) (i := 0) (k := i) (y := y)
    (fun j hj e => by
      simp only [Nat.zero_add] at e
      exact controlCell_inj h (by omega) (by omega) e)
    (by rw [Nat.zero_add, hy]; exact controlCell_lt h (by omega)) hv
  rwa [Nat.zero_add] at hplaced

/-! ## The matrix with RI only (R312, R314) -/

/-- The matrix after R314: RI in its cells, every other cell empty. -/
def riMatrix (cp : CyclicPrefix) (msc : Nat) (ri : List CtlVector) : List (Option CtlVector) :=
  placeRi (riColumns cp) cp.nSymbPusch msc 0 ri (List.replicate (msc * cp.nSymbPusch) none)

theorem interleaverMatrix_eq (cp : CyclicPrefix) (msc : Nat) (g ri ack : List CtlVector) :
    interleaverMatrix cp msc g ri ack =
      placeAck (ackColumns cp) cp.nSymbPusch msc 0 ack (fillData (riMatrix cp msc ri) g) := rfl

@[simp] theorem length_riMatrix (cp : CyclicPrefix) (msc : Nat) (ri : List CtlVector) :
    (riMatrix cp msc ri).length = msc * cp.nSymbPusch := by simp [riMatrix]

@[simp] theorem length_interleaverMatrix (cp : CyclicPrefix) (msc : Nat) (g ri ack : List CtlVector) :
    (interleaverMatrix cp msc g ri ack).length = msc * cp.nSymbPusch := by simp [interleaverMatrix_eq]

theorem getElem?_riMatrix_controlCell {cp : CyclicPrefix} {msc : Nat} {ri : List CtlVector}
    (hri : ri.length ≤ 4 * msc) {i : Nat} {v : CtlVector} (hv : ri[i]? = some v) :
    (riMatrix cp msc ri)[controlCell (riColumns cp) cp.nSymbPusch msc i]? = some (some v) := by
  rw [riMatrix, placeRi_eq_setCells]
  exact getElem?_setCells_controlCell (Or.inl rfl) (by simpa using hri) (by simp) (by simp [hv])

/-- A cell of the matrix is empty exactly when it is no RI vector's cell. -/
theorem getElem?_riMatrix_eq_none_iff {cp : CyclicPrefix} {msc : Nat} {ri : List CtlVector}
    (hri : ri.length ≤ 4 * msc) {n : Nat} (hn : n < msc * cp.nSymbPusch) :
    (riMatrix cp msc ri)[n]? = some none ↔
      ∀ i, i < ri.length → controlCell (riColumns cp) cp.nSymbPusch msc i ≠ n := by
  constructor
  · rintro hempty i hi rfl
    rw [getElem?_riMatrix_controlCell hri (List.getElem?_eq_getElem hi)] at hempty
    simp at hempty
  · intro hfree
    rw [riMatrix, placeRi_eq_setCells, getElem?_setCells_of_forall_ne _ (by simpa using hfree),
      List.getElem?_replicate_of_lt hn]

theorem emptyCells_riMatrix {cp : CyclicPrefix} {msc : Nat} {ri : List CtlVector} (hri : ri.length ≤ 4 * msc) :
    emptyCells (riMatrix cp msc ri) + ri.length = msc * cp.nSymbPusch := by
  rw [riMatrix, emptyCells_placeRi ri 0 _ (by simp) (by simpa using hri)
    fun j _ hj => List.getElem?_replicate_of_lt (controlCell_lt (Or.inl rfl) hj), emptyCells_replicate]

/-! ## Filling the empty cells (R315) -/

theorem getElem?_fillData_of_some {cells : List (Option CtlVector)} {n : Nat} {v : CtlVector} (g : List CtlVector)
    (h : cells[n]? = some (some v)) : (fillData cells g)[n]? = some v := by
  induction cells generalizing n g with
  | nil => simp at h
  | cons c cells ih =>
    cases n with
    | zero =>
      obtain rfl : c = some v := by simpa using h
      rfl
    | succ n =>
      have h' : cells[n]? = some (some v) := by simpa using h
      match c, g with
      | some _, g => exact ih g h'
      | none, _ :: g => exact ih g h'
      | none, [] => exact ih [] h'

/-- The linear indices of the cells still empty, in order. -/
def emptyIndices (cells : List (Option CtlVector)) : List Nat :=
  (List.range cells.length).filter fun n => cells[n]? = some none

theorem emptyIndices_cons (c : Option CtlVector) (cells : List (Option CtlVector)) :
    emptyIndices (c :: cells) = (if c = none then [0] else []) ++ (emptyIndices cells).map Nat.succ := by
  rw [emptyIndices, List.length_cons, List.range_succ_eq_map, List.filter_cons, List.filter_map]
  cases c <;> simp [emptyIndices, Function.comp_def]

/-- Exactly as many vectors as there are empty cells stand in those cells, in order. -/
theorem map_getD_fillData {cells : List (Option CtlVector)} {g : List CtlVector} (h : emptyCells cells = g.length) :
    (emptyIndices cells).map (fun n => (fillData cells g).getD n []) = g := by
  induction cells generalizing g with
  | nil => rw [List.length_eq_zero_iff.1 h.symm]; rfl
  | cons c cells ih =>
    rw [emptyIndices_cons]
    match c, g with
    | some _, g => simpa [fillData, Function.comp_def] using ih (g := g) (by simpa [emptyCells] using h)
    | none, v :: g => simpa [fillData, Function.comp_def] using ih (g := g) (by simpa [emptyCells] using h)
    | none, [] => simp [emptyCells] at h

/-! ## The finished matrix (R316, R319) -/

theorem getElem?_interleaverMatrix_ack {cp : CyclicPrefix} {msc : Nat} (g ri : List CtlVector) {ack : List CtlVector}
    (hack : ack.length ≤ 4 * msc) {i : Nat} {v : CtlVector} (hv : ack[i]? = some v) :
    (interleaverMatrix cp msc g ri ack)[controlCell (ackColumns cp) cp.nSymbPusch msc i]? = some v := by
  rw [interleaverMatrix_eq, placeAck_eq_setCells]
  exact getElem?_setCells_controlCell (Or.inr rfl) hack (by simp) hv

theorem getElem?_interleaverMatrix_ri {cp : CyclicPrefix} {msc : Nat} (g ack : List CtlVector) {ri : List CtlVector}
    (hri : ri.length ≤ 4 * msc) {i : Nat} {v : CtlVector} (hv : ri[i]? = some v) :
    (interleaverMatrix cp msc g ri ack)[controlCell (riColumns cp) cp.nSymbPusch msc i]? = some v := by
  rw [interleaverMatrix_eq, placeAck_eq_setCells,
    getElem?_setCells_of_forall_ne _ fun k _ => (controlCell_ri_ne_ack cp msc i _).symm]
  exact getElem?_fillData_of_some g (getElem?_riMatrix_controlCell hri hv)

/-- Settles O42: ACK is written last, each vector to a cell of its own, and none of those cells is an RI vector's. -/
theorem controlPlacement : Obligations.ControlPlacement := by
  intro cp msc g ri ack hri hack
  refine ⟨length_interleaverMatrix .., fun i v hv => ?_, fun i v hv => ?_⟩
  · have hcell := getElem?_interleaverMatrix_ack (cp := cp) g ri hack hv
    cases cp <;> exact hcell
  · have hcell := getElem?_interleaverMatrix_ri (cp := cp) g ack hri hv
    cases cp <;> exact hcell

/-- Settles O43: the cells no RI vector takes are the empty ones, which the vectors of g fill in order. -/
theorem dataPlacement : Obligations.DataPlacement := by
  intro cp msc g ri hri hg
  have hempty : emptyCells (riMatrix cp msc ri) = g.length := by
    have := emptyCells_riMatrix (cp := cp) hri
    omega
  have hcells : ((List.range (msc * cp.nSymbPusch)).filter fun n =>
      (List.range ri.length).all fun i => controlCell (riColumns cp) cp.nSymbPusch msc i != n) =
        emptyIndices (riMatrix cp msc ri) := by
    rw [emptyIndices, length_riMatrix]
    refine List.filter_congr fun n hn => ?_
    rw [Bool.eq_iff_iff, decide_eq_true_iff, getElem?_riMatrix_eq_none_iff hri (List.mem_range.1 hn)]
    simp
  exact (congrArg _ hcells).trans (map_getD_fillData hempty)

/-! ## Vectors (R288, R311) -/

theorem getElem?_vectors {α : Type} {n count k : Nat} (l : List α) (hk : k < count) :
    (vectors n count l)[k]? = some ((l.drop (n * k)).take n) := by
  induction count generalizing k l with
  | zero => omega
  | succ count ih =>
    cases k with
    | zero => rfl
    | succ k =>
      rw [vectors, List.getElem?_cons_succ, ih _ (Nat.lt_of_succ_lt_succ hk), List.drop_drop, Nat.mul_succ,
        Nat.add_comm]

/-- Element b of vector k is element n·k + b of the sequence that was cut. -/
theorem getElem?_getD_vectors {α : Type} {n count k b : Nat} (l : List α) (hk : k < count) (hb : b < n) :
    ((vectors n count l).getD k [])[b]? = l[n * k + b]? := by
  rw [List.getD_eq_getElem?_getD, getElem?_vectors l hk, Option.getD_some, List.getElem?_take_of_lt hb,
    List.getElem?_drop]

theorem mem_of_mem_vectors {α : Type} {n count : Nat} {l v : List α} (hv : v ∈ vectors n count l) {e : α}
    (he : e ∈ v) : e ∈ l := by
  obtain ⟨k, hk, rfl⟩ := List.mem_iff_getElem.1 hv
  have hvector := getElem?_vectors (n := n) l (length_vectors n count l ▸ hk)
  rw [List.getElem?_eq_getElem hk, Option.some_inj] at hvector
  exact List.mem_of_mem_drop (List.mem_of_mem_take (hvector ▸ he))

theorem length_dataVectors {qm qpCqi : Nat} (qCqi f : List Bool) :
    (dataVectors qm qpCqi qCqi f).length = qpCqi + f.length / qm := by
  rw [dataVectors, List.length_append, length_vectors, length_vectors]

/-- The data sequence holds bits only (R311). -/
theorem exists_bit_of_mem_dataVectors {qm qpCqi : Nat} {qCqi f : List Bool} {v : CtlVector}
    (hv : v ∈ dataVectors qm qpCqi qCqi f) {e : CtlBit} (he : e ∈ v) : ∃ b, e = .bit b := by
  have hmem : e ∈ qCqi.map CtlBit.bit ∨ e ∈ f.map CtlBit.bit :=
    (List.mem_append.1 hv).imp (mem_of_mem_vectors · he) (mem_of_mem_vectors · he)
  rw [← List.mem_append, ← List.map_append] at hmem
  obtain ⟨b, _, rfl⟩ := List.mem_map.1 hmem
  exact ⟨b, rfl⟩

theorem getElem?_getD_dataVectors_cqi {qm qpCqi k b : Nat} (qCqi f : List Bool) (hk : k < qpCqi) (hb : b < qm) :
    ((dataVectors qm qpCqi qCqi f).getD k [])[b]? = (qCqi[qm * k + b]?).map .bit := by
  rw [dataVectors, List.getD_append _ _ _ _ (by rwa [length_vectors]), getElem?_getD_vectors _ hk hb,
    List.getElem?_map]

theorem getElem?_getD_dataVectors_data {qm k b : Nat} (qpCqi : Nat) (qCqi : List Bool) {f : List Bool}
    (hk : k < f.length / qm) (hb : b < qm) :
    ((dataVectors qm qpCqi qCqi f).getD (qpCqi + k) [])[b]? = (f[qm * k + b]?).map .bit := by
  rw [dataVectors, List.getD_append_right _ _ _ _ (by rw [length_vectors]; omega), length_vectors,
    Nat.add_sub_cancel_left, getElem?_getD_vectors _ hk hb, List.getElem?_map]

/-! ## The read-out (R317) -/

/-- Column c of the matrix, from its first row to its last. -/
def matrixColumn (cmux rmux : Nat) (y : List CtlVector) (c : Nat) : List CtlVector :=
  (vectors cmux rmux y).map fun row => row.getD c []

theorem readColumns_eq (cmux rmux : Nat) (y : List CtlVector) :
    readColumns cmux rmux y = ((List.range cmux).map fun c => (matrixColumn cmux rmux y c).flatten).flatten := rfl

@[simp] theorem length_matrixColumn (cmux rmux : Nat) (y : List CtlVector) (c : Nat) :
    (matrixColumn cmux rmux y c).length = rmux := by simp [matrixColumn]

theorem getElem?_matrixColumn {cmux rmux r c : Nat} (y : List CtlVector) (hr : r < rmux) (hc : c < cmux) :
    (matrixColumn cmux rmux y c)[r]? = some (y.getD (r * cmux + c) []) := by
  rw [matrixColumn, List.getElem?_map, getElem?_vectors y hr, Option.map_some, List.getD_eq_getElem?_getD,
    List.getElem?_take_of_lt hc, List.getElem?_drop, Nat.mul_comm cmux, List.getD_eq_getElem?_getD]

theorem index_lt_of_row_of_column {cmux rmux r c : Nat} (hr : r < rmux) (hc : c < cmux) :
    r * cmux + c < rmux * cmux :=
  calc r * cmux + c < (r + 1) * cmux := by rw [Nat.succ_mul]; omega
    _ ≤ rmux * cmux := Nat.mul_le_mul_right _ hr

theorem mem_of_mem_matrixColumn {cmux rmux c : Nat} {y : List CtlVector} (hlen : y.length = rmux * cmux)
    (hc : c < cmux) {v : CtlVector} (hv : v ∈ matrixColumn cmux rmux y c) : v ∈ y := by
  obtain ⟨r, hr, rfl⟩ := List.mem_iff_getElem.1 hv
  have hcell := getElem?_matrixColumn y (length_matrixColumn cmux rmux y c ▸ hr) hc
  have hlt : r * cmux + c < y.length :=
    hlen ▸ index_lt_of_row_of_column (length_matrixColumn cmux rmux y c ▸ hr) hc
  rw [List.getElem?_eq_getElem hr, Option.some_inj, List.getD_eq_getElem _ _ hlt] at hcell
  exact hcell ▸ List.getElem_mem hlt

/-- Every element read out stands in a cell of the matrix. -/
theorem exists_mem_of_mem_readColumns {cmux rmux : Nat} {y : List CtlVector} (hlen : y.length = rmux * cmux)
    {e : CtlBit} (he : e ∈ readColumns cmux rmux y) : ∃ v ∈ y, e ∈ v := by
  rw [readColumns_eq] at he
  obtain ⟨column, hcolumn, he⟩ := List.mem_flatten.1 he
  obtain ⟨c, hc, rfl⟩ := List.mem_map.1 hcolumn
  obtain ⟨v, hv, he⟩ := List.mem_flatten.1 he
  exact ⟨v, mem_of_mem_matrixColumn hlen (List.mem_range.1 hc) hv, he⟩

/-- Element b of the cell in row r and column c is read after c columns and r cells. -/
theorem getElem?_readColumns {cmux rmux qm : Nat} {y : List CtlVector} (hlen : y.length = rmux * cmux)
    (hy : ∀ v ∈ y, v.length = qm) {c r b : Nat} (hc : c < cmux) (hr : r < rmux) (hb : b < qm) :
    (readColumns cmux rmux y)[(c * rmux + r) * qm + b]? = (y.getD (r * cmux + c) [])[b]? := by
  have hcells : ∀ c, c < cmux → ∀ v ∈ matrixColumn cmux rmux y c, v.length = qm := fun c hc v hv =>
    hy v (mem_of_mem_matrixColumn hlen hc hv)
  have hcolumns : ∀ xs ∈ (List.range cmux).map (fun c => (matrixColumn cmux rmux y c).flatten),
      xs.length = rmux * qm := fun xs hxs => by
    obtain ⟨c, hc, rfl⟩ := List.mem_map.1 hxs
    rw [length_flatten_uniform (hcells c (List.mem_range.1 hc)), length_matrixColumn]
  have hcell := getElem?_matrixColumn y hr hc
  have hb' : b < (y.getD (r * cmux + c) []).length := by
    rwa [hcells c hc _ (List.mem_of_getElem? hcell)]
  have hcolumn : ((List.range cmux).map fun c => (matrixColumn cmux rmux y c).flatten)[c]? =
      some (matrixColumn cmux rmux y c).flatten := by
    rw [List.getElem?_map, List.getElem?_range hc, Option.map_some]
  have hread := getElem?_flatten_uniform hcolumns hcolumn
    (getElem?_flatten_uniform (hcells c hc) hcell (List.getElem?_eq_getElem hb'))
  rw [readColumns_eq, List.getElem?_eq_getElem hb', ← hread]
  congr 1
  ring

/-! ## Where the interleaver's elements come from (R318) -/

/-- Every cell of a full matrix holds a vector of one of the three sequences. -/
theorem mem_interleaverMatrix {cp : CyclicPrefix} {msc : Nat} {g ri ack : List CtlVector}
    (hri : ri.length ≤ 4 * msc) (hg : msc * cp.nSymbPusch ≤ g.length + ri.length) {v : CtlVector}
    (hv : v ∈ interleaverMatrix cp msc g ri ack) : v ∈ ack ∨ v ∈ ri ∨ v ∈ g := by
  have hempty := emptyCells_riMatrix (cp := cp) hri
  rw [interleaverMatrix_eq] at hv
  rcases mem_placeAck hv with hv | hv
  · exact .inl hv
  rcases mem_fillData (by omega) hv with hv | hv
  · rcases mem_placeRi hv with hv | hv
    · exact .inr (.inl hv)
    · simp at hv
  · exact .inr (.inr hv)

/-- Settles O44: the matrix is full of Q_m-bit vectors, so element b of each cell has a fixed place in the read-out, and
what is no bit was not taken from the data sequence. -/
theorem interleaverOutput : Obligations.InterleaverOutput := by
  intro f qCqi qRi qAck qm qpCqi qpRi qpAck msc cp hqm _ hri _ hf hcqi hqRi hqAck h y
  have hlenH : h.length = qm * (msc * cp.nSymbPusch) := length_channelInterleave hqm hf hcqi hqRi hqAck hri
  have hriVectors : (vectors qm qpRi qRi).length ≤ 4 * msc := by rwa [length_vectors]
  have henough : msc * cp.nSymbPusch ≤ (dataVectors qm qpCqi qCqi f).length + (vectors qm qpRi qRi).length := by
    rw [length_dataVectors, length_vectors, hf, Nat.mul_div_cancel_left _ hqm]
    omega
  obtain ⟨hlenY, hvectors⟩ := interleaverMatrix_spec (ack := vectors qm qpAck qAck) hriVectors henough
    (length_of_mem_dataVectors hcqi) (length_of_mem_vectors hqRi.ge) (length_of_mem_vectors hqAck.ge)
  refine ⟨hlenH, by rw [hlenH, Nat.mul_mod_right], fun e he hxy => ?_,
    fun c r b hc hr hb => getElem?_readColumns hlenY hvectors hc hr hb, length_dataVectors qCqi f,
    fun k b hb => ⟨fun hk => getElem?_getD_dataVectors_cqi qCqi f hk hb,
      fun hk => getElem?_getD_dataVectors_data qpCqi qCqi hk hb, fun hk => getElem?_getD_vectors qRi hk hb,
      fun hk => getElem?_getD_vectors qAck hk hb⟩⟩
  obtain ⟨v, hv, hev⟩ := exists_mem_of_mem_readColumns hlenY he
  rcases mem_interleaverMatrix hriVectors henough hv with hv | hv | hv
  · exact .inl (mem_of_mem_vectors hv hev)
  · exact .inr (mem_of_mem_vectors hv hev)
  · obtain ⟨b, rfl⟩ := exists_bit_of_mem_dataVectors hv hev
    simp at hxy

end Sys2Proof.Machine
end

section
/-! PROOFS. The scrambler (44_multiplexer.md R325 to R328): what one element of the scrambled sequence is, and the Gold
sequence as the sum of the bits that leave two 31-bit shift registers. -/

namespace Sys2Proof.Machine

/-! ## Scrambling (R325) -/

/-- The scrambled bit of one element, from the scrambled bit before it and the bit of the Gold sequence (R325). -/
def scrambledBit (prev c : Bool) : CtlBit → Bool
  | .x => true
  | .y => prev
  | .bit b => b ^^ c

theorem scrambleFrom_cons (prev c : Bool) (e : CtlBit) (h : List CtlBit) (cs : List Bool) :
    scrambleFrom prev (e :: h) (c :: cs) = scrambledBit prev c e :: scrambleFrom (scrambledBit prev c e) h cs := by
  cases e <;> rfl

/-- Element i is scrambled with element i of `cs` after element i − 1 of the output, or after `prev` at the start. -/
theorem getElem?_scrambleFrom {h : List CtlBit} {cs : List Bool} {prev p c : Bool} {e : CtlBit} {i : Nat}
    (he : h[i]? = some e) (hc : cs[i]? = some c) (hp : (prev :: scrambleFrom prev h cs)[i]? = some p) :
    (scrambleFrom prev h cs)[i]? = some (scrambledBit p c e) := by
  induction h generalizing cs prev i with
  | nil => simp at he
  | cons e' h ih =>
    cases cs with
    | nil => simp at hc
    | cons c' cs =>
      rw [scrambleFrom_cons] at hp ⊢
      cases i with
      | zero =>
        simp only [List.getElem?_cons_zero, Option.some_inj] at he hc hp ⊢
        rw [he, hc, hp]
      | succ i => exact ih he hc hp

@[simp] theorem length_goldSequence (cInit n : Nat) : (goldSequence cInit n).length = n :=
  length_goldOutput ..

theorem scramblerInit_eq (rnti sf cellId : Nat) :
    scramblerInit rnti sf cellId = rnti * 2 ^ 14 + sf * 2 ^ 9 + cellId := rfl

/-- The output of Scramble, element by element (R325). -/
theorem getElem?_scramble {h : List CtlBit} {rnti sf cellId i : Nat} {e : CtlBit} {p : Bool} (he : h[i]? = some e)
    (hp : (false :: scramble h rnti sf cellId)[i]? = some p) :
    (scramble h rnti sf cellId)[i]? =
      some (scrambledBit p ((goldSequence (scramblerInit rnti sf cellId) h.length).getD i false) e) := by
  have hi : i < (goldSequence (scramblerInit rnti sf cellId) h.length).length := by
    rw [length_goldSequence]
    exact (List.getElem?_eq_some_iff.1 he).1
  refine getElem?_scrambleFrom he ?_ hp
  rw [List.getD_eq_getElem _ _ hi, List.getElem?_eq_getElem hi]

/-- Settles O40: an element's scrambled bit is `scrambledBit` of the bit before it, and a first y is excluded. -/
theorem scrambleResolvesPlaceholders : Obligations.ScrambleResolvesPlaceholders := by
  intro h rnti sf cellId hy c out
  have hlen : out.length = h.length := length_scramble ..
  refine ⟨hlen, fun i hi => ?_⟩
  have hi' : i < (false :: out).length := by rw [List.length_cons, hlen]; omega
  have hout : ∀ e, h[i]? = some e → out[i]? = some (scrambledBit (false :: out)[i] (c.getD i false) e) :=
    fun e he => getElem?_scramble he (List.getElem?_eq_getElem hi')
  refine ⟨fun he => hout _ he, fun he => ?_, fun b he => hout _ he⟩
  cases i with
  | zero => exact absurd he hy
  | succ i => exact ⟨Nat.succ_pos i, (hout _ he).trans (List.getElem?_eq_getElem (by simpa using hi')).symm⟩

/-! ## A 31-bit shift register (R328) -/

/-- The register shifted down by one element, the new element at its end. -/
def shiftIn (b : Bool) (x : Nat) : Nat := x / 2 + b.toNat * 2 ^ 30

theorem shiftIn_lt {x : Nat} (hx : x < 2 ^ 31) (b : Bool) : shiftIn b x < 2 ^ 31 := by
  rw [shiftIn]
  have := b.toNat_le
  omega

theorem testBit_shiftIn {x : Nat} (hx : x < 2 ^ 31) (b : Bool) (j : Nat) :
    (shiftIn b x).testBit j = if j < 30 then x.testBit (j + 1) else b.toNat.testBit (j - 30) := by
  have hhalf : x / 2 < 2 ^ 30 := by omega
  rw [shiftIn, Nat.add_comm, Nat.mul_comm, Nat.testBit_two_pow_mul_add _ hhalf, Nat.testBit_add_one]

theorem testBit_shiftIn_last {x : Nat} (hx : x < 2 ^ 31) (b : Bool) : (shiftIn b x).testBit 30 = b := by
  rw [testBit_shiftIn hx]
  cases b <;> rfl

/-- A run of the register: `feed` gives the new element from the register's contents. -/
def shiftRun (feed : Nat → Bool) (x k : Nat) : Nat := (fun x => shiftIn (feed x) x)^[k] x

theorem shiftRun_succ (feed : Nat → Bool) (x k : Nat) :
    shiftRun feed x (k + 1) = shiftIn (feed (shiftRun feed x k)) (shiftRun feed x k) :=
  Function.iterate_succ_apply' ..

theorem shiftRun_lt (feed : Nat → Bool) {x : Nat} (hx : x < 2 ^ 31) (k : Nat) : shiftRun feed x k < 2 ^ 31 := by
  induction k with
  | zero => exact hx
  | succ k ih => rw [shiftRun_succ]; exact shiftIn_lt ih _

/-- Element k of the sequence the register gives. -/
def shiftOutput (feed : Nat → Bool) (x k : Nat) : Bool := (shiftRun feed x k).testBit 0

/-- The register holds the next 31 elements of its sequence. -/
theorem testBit_shiftRun (feed : Nat → Bool) {x : Nat} (hx : x < 2 ^ 31) {j : Nat} (hj : j ≤ 30) (k : Nat) :
    (shiftRun feed x k).testBit j = shiftOutput feed x (k + j) := by
  induction j generalizing k with
  | zero => rfl
  | succ j ih =>
    have hnext := ih (by omega) (k + 1)
    rw [shiftRun_succ, testBit_shiftIn (shiftRun_lt feed hx k), if_pos (by omega)] at hnext
    rw [hnext, Nat.add_right_comm, Nat.add_assoc]

/-- The element that enters now leaves 31 steps later. -/
theorem shiftOutput_add (feed : Nat → Bool) {x : Nat} (hx : x < 2 ^ 31) (k : Nat) :
    shiftOutput feed x (k + 31) = feed (shiftRun feed x k) := by
  have hlast := testBit_shiftRun feed hx (le_refl 30) (k + 1)
  rw [shiftRun_succ, testBit_shiftIn_last (shiftRun_lt feed hx k)] at hlast
  exact hlast.symm

/-! ## The Gold sequence (R328) -/

/-- The sum that enters x1. -/
def goldFeed1 (x : Nat) : Bool := x.testBit 3 ^^ x.testBit 0

/-- The sum that enters x2. -/
def goldFeed2 (x : Nat) : Bool := x.testBit 3 ^^ x.testBit 2 ^^ x.testBit 1 ^^ x.testBit 0

theorem iterate_goldStep1 (k x : Nat) : goldStep1^[k] x = shiftRun goldFeed1 x k := rfl

theorem iterate_goldStep2 (k x : Nat) : goldStep2^[k] x = shiftRun goldFeed2 x k := rfl

theorem goldAdvance_eq_iterate (step : Nat → Nat) (n x : Nat) : goldAdvance step n x = step^[n] x := by
  induction n generalizing x with
  | zero => rfl
  | succ n ih => exact ih (step x)

theorem getElem?_goldOutput {n i : Nat} (hi : i < n) (x1 x2 : Nat) :
    (goldOutput n x1 x2)[i]? = some ((goldStep1^[i] x1).testBit 0 ^^ (goldStep2^[i] x2).testBit 0) := by
  induction n generalizing i x1 x2 with
  | zero => omega
  | succ n ih =>
    cases i with
    | zero => rfl
    | succ i =>
      rw [goldOutput, List.getElem?_cons_succ, ih (Nat.lt_of_succ_lt_succ hi), Function.iterate_succ_apply,
        Function.iterate_succ_apply]

/-- The output after `m` steps of the registers is the sum of their sequences from element m on. -/
theorem getElem?_goldOutput_goldAdvance {n i : Nat} (hi : i < n) (m x1 x2 : Nat) :
    (goldOutput n (goldAdvance goldStep1 m x1) (goldAdvance goldStep2 m x2))[i]? =
      some (shiftOutput goldFeed1 x1 (i + m) ^^ shiftOutput goldFeed2 x2 (i + m)) := by
  rw [getElem?_goldOutput hi, goldAdvance_eq_iterate, goldAdvance_eq_iterate, ← Function.iterate_add_apply,
    ← Function.iterate_add_apply, iterate_goldStep1, iterate_goldStep2, shiftOutput, shiftOutput]

theorem getElem?_goldSequence (cInit : Nat) {n i : Nat} (hi : i < n) :
    (goldSequence cInit n)[i]? =
      some (shiftOutput goldFeed1 1 (i + 1600) ^^ shiftOutput goldFeed2 (cInit % 2 ^ 31) (i + 1600)) :=
  getElem?_goldOutput_goldAdvance hi 1600 1 (cInit % 2 ^ 31)

/-- The first 31 elements are the register's first contents. -/
theorem shiftOutput_eq_testBit (feed : Nat → Bool) {x : Nat} (hx : x < 2 ^ 31) {i : Nat} (hi : i ≤ 30) :
    shiftOutput feed x i = x.testBit i := by
  have hfirst := testBit_shiftRun feed hx hi 0
  rw [Nat.zero_add] at hfirst
  exact hfirst.symm

/-- Settles O41: the two sequences are those of shift registers that begin with 1 and with the low bits of c_init. (The
model's function has the name `goldSequence` already.) -/
theorem goldSequence_spec : Obligations.GoldSequence := by
  intro cInit n
  have hx1 : 1 < 2 ^ 31 := by decide
  have hx2 : cInit % 2 ^ 31 < 2 ^ 31 := Nat.mod_lt _ (by decide)
  refine ⟨shiftOutput goldFeed1 1, shiftOutput goldFeed2 (cInit % 2 ^ 31), rfl, fun i hpos hi => ?_, fun i hi => ?_,
    fun i => ?_, fun i => ?_, length_goldSequence cInit n, fun i hi => getElem?_goldSequence cInit hi⟩
  · rw [shiftOutput_eq_testBit _ hx1 hi, ← Bool.not_eq_true, Nat.testBit_one_eq_true_iff_self_eq_zero]
    omega
  · rw [shiftOutput_eq_testBit _ hx2 hi, Nat.testBit_mod_two_pow, decide_eq_true (by omega), Bool.true_and]
  · rw [shiftOutput_add _ hx1, goldFeed1, testBit_shiftRun _ hx1 (by decide), testBit_shiftRun _ hx1 (by decide)]
    rfl
  · rw [shiftOutput_add _ hx2, goldFeed2, testBit_shiftRun _ hx2 (by decide), testBit_shiftRun _ hx2 (by decide),
      testBit_shiftRun _ hx2 (by decide), testBit_shiftRun _ hx2 (by decide)]
    rfl

end Sys2Proof.Machine
end

section
/-! PROOFS. The noiseless round trip (45_modulation.md R346): each axis of a point gives its bits back, so each point
gives its Q_m bits, and the points in order give the sequence that was cut into them. -/

namespace Sys2Proof.Machine

/-! ## Hard decisions on an axis (R346)

An axis has 2, 4 or 8 levels: the round trip of each is read off the table. -/

theorem demapAxis_qpsk (b0 : Bool) : demapAxis .qpsk (signOf b0) = [b0] := by
  revert b0; decide

theorem demapAxis_level16 (b0 b2 : Bool) : demapAxis .qam16 (level16 b0 b2) = [b0, b2] := by
  revert b0 b2; decide

theorem demapAxis_level64 (b0 b2 b4 : Bool) : demapAxis .qam64 (level64 b0 b2 b4) = [b0, b2, b4] := by
  revert b0 b2 b4; decide

/-! ## From a point to the sequence -/

/-- The round trip of one point, for every index of its scheme's table (R346). -/
theorem demapPoint_mapPoint {m : Modulation} {b : List Bool} (h : b.length = m.order) :
    demapPoint m (mapPoint m b) = b := by
  cases m with
  | qpsk =>
    match b, h with
    | [b0, b1], _ => exact congrArg₂ interleaveAxes (demapAxis_qpsk b0) (demapAxis_qpsk b1)
  | qam16 =>
    match b, h with
    | [b0, b1, b2, b3], _ => exact congrArg₂ interleaveAxes (demapAxis_level16 b0 b2) (demapAxis_level16 b1 b3)
  | qam64 =>
    match b, h with
    | [b0, b1, b2, b3, b4, b5], _ =>
      exact congrArg₂ interleaveAxes (demapAxis_level64 b0 b2 b4) (demapAxis_level64 b1 b3 b5)

theorem flatten_demapPoint_mapSymbols {m : Modulation} {n : Nat} {bits : List Bool} (h : bits.length = m.order * n) :
    ((mapSymbols m n bits).map (demapPoint m)).flatten = bits := by
  induction n generalizing bits with
  | zero => exact (List.length_eq_zero_iff.1 h).symm
  | succ n ih =>
    rw [Nat.mul_succ] at h
    have hhead : (bits.take m.order).length = m.order := by rw [List.length_take]; omega
    have hrest : (bits.drop m.order).length = m.order * n := by rw [List.length_drop]; omega
    rw [mapSymbols, List.map_cons, List.flatten_cons, demapPoint_mapPoint hhead, ih hrest, List.take_append_drop]

/-- Modulate rejects every length that is no multiple of Q_m (R345). -/
theorem modulate_of_length_mod_ne_zero {m : Modulation} {bits : List Bool} (h : bits.length % m.order ≠ 0) :
    modulate m bits = .error .invalidBitLength :=
  if_neg h

/-- Settles O45: a sequence of Q_m·n bits gives n points, and each point's hard decision gives its Q_m bits back. -/
theorem modulationRoundTrip : Obligations.ModulationRoundTrip := by
  intro m bits
  refine ⟨fun h => ?_, modulate_of_length_mod_ne_zero⟩
  have hlen : bits.length = m.order * (bits.length / m.order) := (Nat.mul_div_cancel' (Nat.dvd_of_mod_eq_zero h)).symm
  exact ⟨_, modulate_of_length hlen, length_mapSymbols .., flatten_demapPoint_mapSymbols hlen⟩

end Sys2Proof.Machine
end

section
/-! PROOFS. Transform precoding (46_grid_mapper.md R361): the powers of a primitive M-th root of unity are orthogonal, so
the DFT of M points multiplies their energy by M, which the factor 1/√M takes back. -/

namespace Sys2Proof.Machine

/-! ## The energy of a DFT over the powers of a root of unity -/

/-- The columns of the DFT matrix are orthogonal, and each has squared norm M. -/
theorem sum_pow_mul_conj_pow {M : ℕ} {ζ : ℂ} (hζ : IsPrimitiveRoot ζ M) {i j : ℕ} (hi : i < M) (hj : j < M) :
    ∑ k ∈ Finset.range M, (ζ ^ i) ^ k * (starRingEnd ℂ) ((ζ ^ j) ^ k) = if i = j then (M : ℂ) else 0 := by
  have hM : M ≠ 0 := by omega
  have hζ0 : ζ ≠ 0 := hζ.ne_zero hM
  have hquot (k : ℕ) : (ζ ^ i) ^ k * (starRingEnd ℂ) ((ζ ^ j) ^ k) = (ζ ^ i / ζ ^ j) ^ k := by
    rw [map_pow, map_pow, ← Complex.inv_eq_conj (hζ.norm'_eq_one hM), inv_pow, inv_pow, div_pow, div_eq_mul_inv]
  simp only [hquot]
  split_ifs with hij
  · subst hij
    simp [div_self (pow_ne_zero i hζ0)]
  · have hne : ζ ^ i / ζ ^ j ≠ 1 := fun h => hij (hζ.pow_inj hi hj (eq_of_div_eq_one h))
    have hroot : (ζ ^ i / ζ ^ j) ^ M = 1 := by
      rw [div_pow, pow_right_comm, hζ.pow_eq_one, pow_right_comm, hζ.pow_eq_one, one_pow, one_pow, div_one]
    rw [geom_sum_eq hne, hroot, sub_self, zero_div]

/-- Parseval's identity of the M-point DFT: expand each squared magnitude into a double sum and sum over k first. -/
theorem sum_norm_sq_dft {M : ℕ} {ζ : ℂ} (hζ : IsPrimitiveRoot ζ M) (x : ℕ → ℂ) :
    ∑ k ∈ Finset.range M, ‖∑ i ∈ Finset.range M, x i * (ζ ^ i) ^ k‖ ^ 2 = M * ∑ i ∈ Finset.range M, ‖x i‖ ^ 2 := by
  have hexpand (k : ℕ) : ((‖∑ i ∈ Finset.range M, x i * (ζ ^ i) ^ k‖ ^ 2 : ℝ) : ℂ) =
      ∑ i ∈ Finset.range M, ∑ j ∈ Finset.range M,
        x i * (starRingEnd ℂ) (x j) * ((ζ ^ i) ^ k * (starRingEnd ℂ) ((ζ ^ j) ^ k)) := by
    rw [Complex.ofReal_pow, ← Complex.mul_conj', map_sum, Finset.sum_mul_sum]
    refine Finset.sum_congr rfl fun i _ => Finset.sum_congr rfl fun j _ => ?_
    rw [map_mul]
    ring
  apply Complex.ofReal_injective
  calc ((∑ k ∈ Finset.range M, ‖∑ i ∈ Finset.range M, x i * (ζ ^ i) ^ k‖ ^ 2 : ℝ) : ℂ)
      = ∑ k ∈ Finset.range M, ∑ i ∈ Finset.range M, ∑ j ∈ Finset.range M,
          x i * (starRingEnd ℂ) (x j) * ((ζ ^ i) ^ k * (starRingEnd ℂ) ((ζ ^ j) ^ k)) := by
        rw [Complex.ofReal_sum]
        exact Finset.sum_congr rfl fun k _ => hexpand k
    _ = ∑ i ∈ Finset.range M, ∑ j ∈ Finset.range M, x i * (starRingEnd ℂ) (x j) *
          ∑ k ∈ Finset.range M, (ζ ^ i) ^ k * (starRingEnd ℂ) ((ζ ^ j) ^ k) := by
        rw [Finset.sum_comm]
        refine Finset.sum_congr rfl fun i _ => ?_
        rw [Finset.sum_comm]
        exact Finset.sum_congr rfl fun j _ => (Finset.mul_sum _ _ _).symm
    _ = ∑ i ∈ Finset.range M, x i * (starRingEnd ℂ) (x i) * M := by
        refine Finset.sum_congr rfl fun i hi => ?_
        rw [Finset.sum_congr rfl fun j hj => by
          rw [sum_pow_mul_conj_pow hζ (Finset.mem_range.1 hi) (Finset.mem_range.1 hj)]]
        simp only [mul_ite, mul_zero, Finset.sum_ite_eq, if_pos hi]
    _ = ((M * ∑ i ∈ Finset.range M, ‖x i‖ ^ 2 : ℝ) : ℂ) := by
        push_cast
        rw [← Finset.sum_mul, mul_comm]
        simp only [Complex.mul_conj']

/-! ## The precoder of R361 -/

/-- exp(−j2π/M). -/
noncomputable def dftRoot (M : ℕ) : ℂ := (Complex.exp (2 * Real.pi * Complex.I / M))⁻¹

theorem isPrimitiveRoot_dftRoot {M : ℕ} (hM : M ≠ 0) : IsPrimitiveRoot (dftRoot M) M :=
  (Complex.isPrimitiveRoot_exp M hM).inv

/-- The exponential of R361 is a power of exp(−j2π/M). -/
theorem exp_eq_dftRoot_pow (M i k : ℕ) :
    Complex.exp (((-2 * Real.pi * i * k / M : ℝ) : ℂ) * Complex.I) = (dftRoot M ^ i) ^ k := by
  rw [dftRoot, ← Complex.exp_neg, ← pow_mul, ← Complex.exp_nat_mul]
  congr 1
  push_cast
  ring

theorem GridValue.norm_sq_value_dft (norm : Nat) (block : List Point) (k : Nat) :
    ‖(GridValue.dft norm block k).value‖ ^ 2 = (1 / block.length) * ‖∑ i ∈ Finset.range block.length,
      pointValue (block.getD i (0, 0)) / (Real.sqrt norm : ℂ) * (dftRoot block.length ^ i) ^ k‖ ^ 2 := by
  simp only [GridValue.value, exp_eq_dftRoot_pow]
  rw [norm_mul, mul_pow, norm_div, norm_one, Complex.norm_real, Real.norm_of_nonneg (Real.sqrt_nonneg _), div_pow,
    one_pow, Real.sq_sqrt (Nat.cast_nonneg _)]

/-- Settles O46: Parseval's identity for the points divided by the square root of `norm`. -/
theorem precodingIsUnitary : Obligations.PrecodingIsUnitary := by
  intro norm block
  rcases eq_or_ne block.length 0 with hempty | hne
  · simp [hempty]
  · simp only [GridValue.norm_sq_value_dft]
    rw [← Finset.mul_sum, sum_norm_sq_dft (isPrimitiveRoot_dftRoot hne), ← mul_assoc,
      one_div_mul_cancel (Nat.cast_ne_zero.2 hne), one_mul]

end Sys2Proof.Machine
end

section
/-! PROOFS. Resource-element mapping (46_grid_mapper.md R363 to R367): what each column of the grid is, then where a
column holds its block. -/

namespace Sys2Proof.Machine

/-! ## Data and reference symbols (R363, R367) -/

/-- The SC-FDMA symbols of the demodulation reference signal (R367). -/
def referenceSymbols : CyclicPrefix → List Nat
  | .normal => [3, 10]
  | .extended => [2, 8]

/-- The reference symbols are those symbols of the subframe that carry no data. -/
theorem referenceSymbols_eq_filter (cp : CyclicPrefix) :
    referenceSymbols cp = (List.range (2 * cp.nSymb)).filter (· ∉ dataSymbols cp) := by
  cases cp <;> decide

theorem mem_referenceSymbols_iff {cp : CyclicPrefix} {l : Nat} :
    l ∈ referenceSymbols cp ↔ l < 2 * cp.nSymb ∧ l ∉ dataSymbols cp := by
  simp [referenceSymbols_eq_filter]

@[simp] theorem length_dataSymbols (cp : CyclicPrefix) : (dataSymbols cp).length = cp.nSymbPusch := by
  cases cp <;> rfl

theorem nodup_dataSymbols (cp : CyclicPrefix) : (dataSymbols cp).Nodup := by
  cases cp <;> decide

theorem lt_of_mem_dataSymbols {cp : CyclicPrefix} {l : Nat} (h : l ∈ dataSymbols cp) : l < 2 * cp.nSymb := by
  have hall : ∀ l ∈ dataSymbols cp, l < 2 * cp.nSymb := by cases cp <;> decide
  exact hall l h

theorem idxOf?_dataSymbols {cp : CyclicPrefix} {c l : Nat} (h : (dataSymbols cp)[c]? = some l) :
    (dataSymbols cp).idxOf? l = some c := by
  obtain ⟨hc, rfl⟩ := List.getElem?_eq_some_iff.1 h
  refine List.idxOf?_eq_some_iff.2 ⟨hc, rfl, fun j hj heq => ?_⟩
  exact hj.ne ((nodup_dataSymbols cp).getElem_inj_iff.1 heq)

/-! ## The columns of the grid -/

theorem getElem?_pointBlocks (m : Nat) {count c : Nat} (points : List Point) (h : c < count) :
    (pointBlocks m count points)[c]? = some ((points.drop (m * c)).take m) := by
  induction count generalizing c points with
  | zero => omega
  | succ count ih =>
    cases c with
    | zero => rfl
    | succ c => rw [pointBlocks, List.getElem?_cons_succ, ih _ (by omega), List.drop_drop, Nat.mul_succ, Nat.add_comm]

@[simp] theorem length_precodeBlock (norm : Nat) (block : List Point) :
    (precodeBlock norm block).length = block.length := by
  simp [precodeBlock]

theorem getElem?_precodeBlock (norm : Nat) {block : List Point} {k : Nat} (h : k < block.length) :
    (precodeBlock norm block)[k]? = some (.dft norm block k) := by
  rw [precodeBlock, List.getElem?_map, List.getElem?_range h, Option.map_some]

/-- The column of the c-th data symbol holds the c-th block of 12·n_prb points. -/
theorem getD_mapToGrid_of_data (norm : Nat) (points : List Point) (rbStart nPrb : Nat) {cell : CellConfig} {c l : Nat}
    (h : (dataSymbols cell.cp)[c]? = some l) : (mapToGrid norm points rbStart nPrb cell).getD l [] =
      dataColumn cell.nRb.nSc rbStart (precodeBlock norm ((points.drop (12 * nPrb * c)).take (12 * nPrb))) := by
  have hc : c < cell.cp.nSymbPusch := by simpa using (List.getElem?_eq_some_iff.1 h).1
  have hl : l < 2 * cell.cp.nSymb := lt_of_mem_dataSymbols (List.mem_of_getElem? h)
  simp [mapToGrid, hl, idxOf?_dataSymbols h, getElem?_pointBlocks (12 * nPrb) points hc]

/-- The column of every other symbol is empty. -/
theorem getD_mapToGrid_of_not_data (norm : Nat) (points : List Point) (rbStart nPrb : Nat) {cell : CellConfig} {l : Nat}
    (hl : l < 2 * cell.cp.nSymb) (h : l ∉ dataSymbols cell.cp) :
    (mapToGrid norm points rbStart nPrb cell).getD l [] = emptyColumn cell.nRb.nSc := by
  simp [mapToGrid, hl, List.idxOf?_eq_none_iff.2 h]

/-! ## The elements of a column -/

theorem getElem?_emptyColumn {nSc k : Nat} (h : k < nSc) : (emptyColumn nSc)[k]? = some .empty :=
  List.getElem?_replicate_of_lt h

theorem getElem?_dataColumn_allocated (nSc rbStart : Nat) {z : List GridValue} {k : Nat} (h : k < z.length) :
    (dataColumn nSc rbStart z)[12 * rbStart + k]? = z[k]? := by
  rw [dataColumn, List.append_assoc, List.getElem?_append_right (by simp), List.length_replicate,
    Nat.add_sub_cancel_left, List.getElem?_append_left h]

theorem getElem?_dataColumn_outside {nSc rbStart k : Nat} {z : List GridValue} (hk : k < nSc)
    (h : k < 12 * rbStart ∨ 12 * rbStart + z.length ≤ k) : (dataColumn nSc rbStart z)[k]? = some .empty := by
  rw [dataColumn, List.append_assoc]
  rcases h with hbelow | habove
  · rw [List.getElem?_append_left (by simpa using hbelow), List.getElem?_replicate_of_lt hbelow]
  · rw [List.getElem?_append_right (by rw [List.length_replicate]; omega), List.length_replicate,
      List.getElem?_append_right (by omega), List.getElem?_replicate_of_lt (by omega)]

/-! ## The grid -/

theorem getElem?_mapToGrid_allocated (norm : Nat) {points : List Point} (rbStart : Nat) {nPrb : Nat} {cell : CellConfig}
    (hlen : points.length = 12 * nPrb * cell.cp.nSymbPusch) {c l k : Nat} (hl : (dataSymbols cell.cp)[c]? = some l)
    (hk : k < 12 * nPrb) : ((mapToGrid norm points rbStart nPrb cell).getD l [])[12 * rbStart + k]? =
      some (.dft norm ((points.drop (12 * nPrb * c)).take (12 * nPrb)) k) := by
  have hc : c < cell.cp.nSymbPusch := by simpa using (List.getElem?_eq_some_iff.1 hl).1
  have hblock : ((points.drop (12 * nPrb * c)).take (12 * nPrb)).length = 12 * nPrb := by
    have hroom : 12 * nPrb * (c + 1) ≤ points.length := hlen ▸ Nat.mul_le_mul_left _ hc
    rw [Nat.mul_succ] at hroom
    rw [List.length_take, List.length_drop]
    omega
  rw [getD_mapToGrid_of_data norm points rbStart nPrb hl,
    getElem?_dataColumn_allocated _ _ (by rw [length_precodeBlock, hblock]; exact hk),
    getElem?_precodeBlock norm (by rw [hblock]; exact hk)]

theorem getElem?_mapToGrid_reference (norm : Nat) (points : List Point) (rbStart nPrb : Nat) {cell : CellConfig}
    {l k : Nat} (hl : l ∈ referenceSymbols cell.cp) (hk : k < cell.nRb.nSc) :
    ((mapToGrid norm points rbStart nPrb cell).getD l [])[k]? = some .empty := by
  obtain ⟨hlt, hdata⟩ := mem_referenceSymbols_iff.1 hl
  rw [getD_mapToGrid_of_not_data norm points rbStart nPrb hlt hdata, getElem?_emptyColumn hk]

theorem getElem?_mapToGrid_outside (norm : Nat) (points : List Point) {rbStart nPrb : Nat} {cell : CellConfig}
    {l k : Nat} (hl : l < 2 * cell.cp.nSymb) (hk : k < cell.nRb.nSc)
    (hout : k < 12 * rbStart ∨ 12 * (rbStart + nPrb) ≤ k) :
    ((mapToGrid norm points rbStart nPrb cell).getD l [])[k]? = some .empty := by
  by_cases hdata : l ∈ dataSymbols cell.cp
  · obtain ⟨c, hc⟩ := List.mem_iff_getElem?.1 hdata
    rw [getD_mapToGrid_of_data norm points rbStart nPrb hc]
    refine getElem?_dataColumn_outside hk (hout.imp_right fun habove => ?_)
    have hblock := List.length_take_le (12 * nPrb) (points.drop (12 * nPrb * c))
    rw [length_precodeBlock]
    omega
  · exact getElem?_mapToGrid_reference norm points rbStart nPrb (mem_referenceSymbols_iff.2 ⟨hl, hdata⟩) hk

/-- Settles O47: the sizes, then the elements at data symbols, at reference symbols and outside the allocation. -/
theorem gridPlacement : Obligations.GridPlacement := by
  intro norm points rbStart nPrb cell hfit hlen
  refine ⟨length_mapToGrid .., fun column hcolumn => length_of_mem_mapToGrid hfit hcolumn,
    fun c l k hc hk => ?data, fun l k hl hk => ?reference,
    fun l k hl hk hout => getElem?_mapToGrid_outside norm points hl hk hout⟩
  case data => exact getElem?_mapToGrid_allocated norm rbStart hlen hc hk
  case reference => exact getElem?_mapToGrid_reference norm points rbStart nPrb hl hk

end Sys2Proof.Machine
end

section
/-! PROOFS. The waveform (47_waveform.md R381 to R386): every subcarrier is an odd multiple of half the subcarrier spacing
away from 0, so a shift by one transform size turns each term of R381 into its negative; and the length of a subframe is
the sum of its symbols' lengths. -/

namespace Sys2Proof.Machine

/-! ## Samples one transform size apart (R381, R383) -/

/-- With an even number of subcarriers, `nfft` samples later each phase of R381 is an odd multiple of π further on. -/
theorem exp_subcarrier_add_nfft {numSc nfft : ℕ} (heven : Even numSc) (hnfft : nfft ≠ 0) (k : ℕ) (time : ℤ) :
    Complex.exp (((2 * Real.pi * (k - numSc / 2 + 1 / 2) * (time + nfft : ℤ) / nfft : ℝ) : ℂ) * Complex.I) =
      -Complex.exp (((2 * Real.pi * (k - numSc / 2 + 1 / 2) * time / nfft : ℝ) : ℂ) * Complex.I) := by
  obtain ⟨half, rfl⟩ := heven
  have hne : (nfft : ℂ) ≠ 0 := Nat.cast_ne_zero.2 hnfft
  rw [← Complex.exp_antiperiodic.odd_zsmul_antiperiodic (k - half)]
  congr 1
  push_cast [zsmul_eq_mul]
  field_simp
  ring

theorem WaveValue.value_add_nfft (scale : Nat → ℝ) {column : List GridValue} {nfft : Nat} (heven : Even column.length)
    (hnfft : nfft ≠ 0) (time : Int) :
    (WaveValue.mk column nfft (time + nfft)).value scale = -(WaveValue.mk column nfft time).value scale := by
  simp only [WaveValue.value, exp_subcarrier_add_nfft heven hnfft, mul_neg, Finset.sum_neg_distrib]

/-- Sample n of a symbol is its exact value at the time n − N_CP,l. -/
theorem getElem?_symbolSamples {cp : CyclicPrefix} {nfft l n : Nat} (column : List GridValue)
    (h : n < cpLength cp nfft l + nfft) : (symbolSamples cp nfft l column)[n]? =
      some { column := column, nfft := nfft, time := (n : Int) - (cpLength cp nfft l : Int) } := by
  rw [symbolSamples, bind_pure_comp, List.map_eq_map, List.getElem?_map, List.getElem?_map, List.getElem?_range h]
  rfl

theorem Bandwidth.nfft_ne_zero (b : Bandwidth) : b.nfft ≠ 0 := by
  cases b <;> decide

/-- Settles O48: samples n and n + NFFT of a symbol have the same column and lie one transform size apart. -/
theorem prefixIsNegated : Obligations.PrefixIsNegated := by
  intro scale cp b l n column hlen hn
  have heven : Even column.length := hlen ▸ (by decide : Even 12).mul_right b.nRb
  have htime : ((n + b.nfft : Nat) : Int) - cpLength cp b.nfft l = (n : Int) - cpLength cp b.nfft l + b.nfft := by
    omega
  refine ⟨_, _, getElem?_symbolSamples column (by omega), getElem?_symbolSamples column (by omega), ?_⟩
  rw [htime, WaveValue.value_add_nfft scale heven b.nfft_ne_zero, neg_neg]

/-! ## The length of a subframe (R385, R386) -/

/-- The waveform is as long as its symbols together. -/
theorem length_synthesize_eq_sum (grid : List (List GridValue)) (cell : CellConfig) : (synthesize grid cell).length =
    ((List.range grid.length).map fun l => cpLength cell.cp cell.nRb.nfft l + cell.nRb.nfft).sum := by
  rw [synthesize, length_synthesizeFrom, List.range_eq_range']

/-- Settles O49: the length of the waveform, and by it the sum of the symbols' lengths. -/
theorem waveformLength : Obligations.WaveformLength := by
  refine ⟨fun cell grid hgrid => ?_, by decide⟩
  have hlength : (synthesize grid cell).length = 15 * cell.nRb.nfft := length_synthesize hgrid
  refine ⟨hlength, ?_⟩
  rw [← hgrid, ← length_synthesize_eq_sum, hlength]

end Sys2Proof.Machine
end

section
/-! PROOFS. Result codes, resets and reads of unwritten bytes: what a failing command leaves unchanged, the order in
which PUSCH_TX reports its violated conditions, the two resets, and the host read of a byte never written
(60_exceptions.md R402 to R405; 70_reset_and_hazards.md R440 to R444). -/

namespace Sys2Proof.Machine

/-! ## The first violated condition of a PUSCH_TX (60_exceptions.md R402) -/

/-- A retransmission finds its slot initialised, with the width of the allocation (40_commands.md R163, R164). -/
def State.SlotAdmits (s : State) (p : Fin 8) (ndi : Bool) : Prop :=
  ndi = false → (s.slot p).init = true ∧ nPrbOf s.inputs.regs.alloc = (s.slot p).nprbDecl

/-- The code of a PUSCH_TX with legal operands: that of the first condition of R402, after validation, which its slot,
its modulation and the sizes violate. With none violated it is OK, or the code of stage 5, which R168 excludes where
slots are legal. -/
inductive FirstViolation (s : State) (p : Fin 8) (ndi : Bool) (m : Modulation) : ErrCode → Prop
  | processNotInitialized (hn : ndi = false) (hinit : (s.slot p).init = false) :
      FirstViolation s p ndi m .processNotInitialized
  | allocationMismatch (hn : ndi = false) (hinit : (s.slot p).init = true)
      (hwidth : nPrbOf s.inputs.regs.alloc ≠ (s.slot p).nprbDecl) : FirstViolation s p ndi m .allocationMismatch
  | controlOverflow (hslot : s.SlotAdmits p ndi) (hcontrol : ¬ s.ControlFits p ndi m) :
      FirstViolation s p ndi m .controlOverflow
  | allocationTooSmall (hslot : s.SlotAdmits p ndi) (hcontrol : s.ControlFits p ndi m) (hdata : ¬ s.DataFits p ndi m) :
      FirstViolation s p ndi m .allocationTooSmall
  | ok (hslot : s.SlotAdmits p ndi) (hcontrol : s.ControlFits p ndi m) (hdata : s.DataFits p ndi m) :
      FirstViolation s p ndi m .ok
  | invalidBitLength (hslot : s.SlotAdmits p ndi) (hcontrol : s.ControlFits p ndi m) (hdata : s.DataFits p ndi m) :
      FirstViolation s p ndi m .invalidBitLength

theorem State.slotAdmits_or (s : State) (p : Fin 8) (ndi : Bool) :
    (ndi = false ∧ (s.slot p).init = false) ∨
      (ndi = false ∧ (s.slot p).init = true ∧ nPrbOf s.inputs.regs.alloc ≠ (s.slot p).nprbDecl) ∨
      s.SlotAdmits p ndi := by
  cases ndi with
  | true => exact .inr (.inr fun hn => nomatch hn)
  | false =>
    cases hinit : (s.slot p).init with
    | false => exact .inl ⟨rfl, rfl⟩
    | true =>
      by_cases hwidth : nPrbOf s.inputs.regs.alloc = (s.slot p).nprbDecl
      · exact .inr (.inr fun _ => ⟨hinit, hwidth⟩)
      · exact .inr (.inl ⟨rfl, rfl, hwidth⟩)

/-- Past every check a PUSCH_TX that completes has the code of stage 5 or OK. -/
theorem runPuschTx_code_of_plan {cmd : TxCommand} {s t : State} {plan : TxPlan} (hplan : puschPlan cmd s = .ok plan)
    (hrun : runPuschTx cmd s = .next t) : t.status.err = .ok ∨ t.status.err = .invalidBitLength := by
  by_cases hok : t.status.err = .ok
  · exact .inl hok
  rcases runPuschTx_error hrun hok with ha | ⟨target, tb, ha, -, hs⟩ | ⟨plan', bits, -, -, ho⟩
  · simp [puschPlan, ha] at hplan
  · simp [puschPlan, ha, hs] at hplan
  · exact .inr (txPipeline_error ho)

/-- An admitted command that completes had its payload, and an error of the sizing step is its code. -/
theorem runPuschTx_code_of_sizing {cmd : TxCommand} {s t : State} {target : TxTarget} {code : ErrCode}
    (ha : puschAdmit cmd s = .ok target) (hs : puschSizing cmd s target = .error code)
    (hrun : runPuschTx cmd s = .next t) : t.status.err = code := by
  cases hb : readPayload cmd.ndi s.inputs with
  | none =>
    rw [runPuschTx_of_payload_none ha hb] at hrun
    cases hrun
  | some tb =>
    rw [runPuschTx_of_sizing_error ha hb hs] at hrun
    cases hrun
    rfl

theorem runPuschTx_code_of_admit {cmd : TxCommand} {s t : State} {code : ErrCode} (ha : puschAdmit cmd s = .error code)
    (hrun : runPuschTx cmd s = .next t) : t.status.err = code := by
  rw [runPuschTx_of_admit_error ha] at hrun
  cases hrun
  rfl

/-- A PUSCH_TX with legal operands that completes has the code of its first violated condition. -/
theorem State.TxLegal.firstViolation {s t : State} {cmd : TxCommand} (h : s.TxLegal cmd.proc cmd.ndi cmd.mod cmd.sf)
    {p : Fin 8} {m : Modulation} (hp : p.val = cmd.proc.toNat) (hm : modulationOf cmd.mod = some m)
    (hrun : runPuschTx cmd s = .next t) : FirstViolation s p cmd.ndi m t.status.err := by
  rcases s.slotAdmits_or p cmd.ndi with ⟨hn, hinit⟩ | ⟨hn, hinit, hwidth⟩ | hslot
  · obtain ⟨hempty, -⟩ := h.puschAdmit_retransmission hn hp
    rw [runPuschTx_code_of_admit (hempty hinit) hrun]
    exact .processNotInitialized hn hinit
  · obtain ⟨-, hmismatch⟩ := h.puschAdmit_retransmission hn hp
    rw [runPuschTx_code_of_admit (hmismatch hinit hwidth) hrun]
    exact .allocationMismatch hn hinit hwidth
  have hadmit : puschAdmit cmd s = .ok ⟨p, m⟩ := h.puschAdmit_eq_ok hp hm hslot
  by_cases hcontrol : s.ControlFits p cmd.ndi m
  · by_cases hdata : s.DataFits p cmd.ndi m
    · rcases runPuschTx_code_of_plan (h.puschPlan_eq_ok hp hm hslot hcontrol hdata) hrun with e | e
      · exact e ▸ .ok hslot hcontrol hdata
      · exact e ▸ .invalidBitLength hslot hcontrol hdata
    · rw [runPuschTx_code_of_sizing hadmit (puschSizing_of_tooSmall hcontrol hdata) hrun]
      exact .allocationTooSmall hslot hcontrol hdata
  · rw [runPuschTx_code_of_sizing hadmit (puschSizing_of_controlOverflow hcontrol) hrun]
    exact .controlOverflow hslot hcontrol

section
variable {s : State} {p : Fin 8} {ndi : Bool} {m : Modulation} {code : ErrCode}

theorem FirstViolation.ne_invalidConfiguration (h : FirstViolation s p ndi m code) : code ≠ .invalidConfiguration := by
  rintro rfl
  cases h

theorem FirstViolation.processNotInitialized_iff (h : FirstViolation s p ndi m code) :
    code = .processNotInitialized ↔ ndi = false ∧ (s.slot p).init = false := by
  constructor
  · rintro rfl
    cases h with
    | processNotInitialized hn hinit => exact ⟨hn, hinit⟩
  · rintro ⟨hn, hinit⟩
    cases h with
    | processNotInitialized => rfl
    | allocationMismatch _ hinit' => cases hinit.symm.trans hinit'
    | controlOverflow hslot | allocationTooSmall hslot | ok hslot | invalidBitLength hslot =>
      cases hinit.symm.trans (hslot hn).1

theorem FirstViolation.allocationMismatch_iff (h : FirstViolation s p ndi m code)
    (hinit : ndi = false → (s.slot p).init = true) :
    code = .allocationMismatch ↔ ndi = false ∧ nPrbOf s.inputs.regs.alloc ≠ (s.slot p).nprbDecl := by
  constructor
  · rintro rfl
    cases h with
    | allocationMismatch hn _ hwidth => exact ⟨hn, hwidth⟩
  · rintro ⟨hn, hwidth⟩
    cases h with
    | allocationMismatch => rfl
    | processNotInitialized _ hinit' => cases hinit'.symm.trans (hinit hn)
    | controlOverflow hslot | allocationTooSmall hslot | ok hslot | invalidBitLength hslot =>
      exact absurd (hslot hn).2 hwidth

/-- The process checks stop no command whose slot admits it. -/
theorem FirstViolation.code_of_slotAdmits (h : FirstViolation s p ndi m code) (hslot : s.SlotAdmits p ndi) :
    (code = .controlOverflow ∧ ¬ s.ControlFits p ndi m) ∨
      (code = .allocationTooSmall ∧ s.ControlFits p ndi m ∧ ¬ s.DataFits p ndi m) ∨
      ((code = .ok ∨ code = .invalidBitLength) ∧ s.ControlFits p ndi m ∧ s.DataFits p ndi m) := by
  cases h with
  | processNotInitialized hn hinit => cases hinit.symm.trans (hslot hn).1
  | allocationMismatch hn _ hwidth => exact absurd (hslot hn).2 hwidth
  | controlOverflow _ hcontrol => exact .inl ⟨rfl, hcontrol⟩
  | allocationTooSmall _ hcontrol hdata => exact .inr (.inl ⟨rfl, hcontrol, hdata⟩)
  | ok _ hcontrol hdata => exact .inr (.inr ⟨.inl rfl, hcontrol, hdata⟩)
  | invalidBitLength _ hcontrol hdata => exact .inr (.inr ⟨.inr rfl, hcontrol, hdata⟩)

theorem FirstViolation.controlOverflow_iff (h : FirstViolation s p ndi m code) (hslot : s.SlotAdmits p ndi) :
    code = .controlOverflow ↔ ¬ s.ControlFits p ndi m := by
  rcases h.code_of_slotAdmits hslot with ⟨rfl, hcontrol⟩ | ⟨rfl, hcontrol, -⟩ | ⟨rfl | rfl, hcontrol, -⟩ <;>
    simp [hcontrol]

theorem FirstViolation.allocationTooSmall_iff (h : FirstViolation s p ndi m code) (hslot : s.SlotAdmits p ndi)
    (hcontrol : s.ControlFits p ndi m) : code = .allocationTooSmall ↔ ¬ s.DataFits p ndi m := by
  rcases h.code_of_slotAdmits hslot with ⟨-, hover⟩ | ⟨rfl, -, hdata⟩ | ⟨rfl | rfl, -, hdata⟩
  · exact absurd hcontrol hover
  all_goals simp [hdata]

theorem FirstViolation.ok_or_invalidBitLength (h : FirstViolation s p ndi m code) (hslot : s.SlotAdmits p ndi)
    (hcontrol : s.ControlFits p ndi m) (hdata : s.DataFits p ndi m) : code = .ok ∨ code = .invalidBitLength := by
  rcases h.code_of_slotAdmits hslot with ⟨-, hover⟩ | ⟨-, -, hsmall⟩ | ⟨hcode, -⟩
  · exact absurd hcontrol hover
  · exact absurd hdata hsmall
  · exact hcode

end

/-- Settles O18: validation comes first, the code of a command with legal operands is that of its first violated
condition, and O19 excludes InvalidBitLength. -/
theorem errorPriority : Obligations.ErrorPriority := by
  intro s t proc rv ndi mod sf dg db dh hexec
  have hrun : runPuschTx ⟨proc, rv, ndi, mod, sf, dg, db, dh⟩ s = .next t := hexec
  refine ⟨⟨fun herr hlegal => ?_, fun hillegal => ?_⟩, fun p m hp hm hlegal => ?_⟩
  · obtain ⟨m, hm⟩ := hlegal.exists_modulation
    have hfirst := State.TxLegal.firstViolation (p := ⟨proc.toNat, hlegal.proc⟩) hlegal rfl hm hrun
    exact hfirst.ne_invalidConfiguration herr
  · exact runPuschTx_code_of_admit (puschAdmit_of_not_legal hillegal) hrun
  · have hfirst : FirstViolation s p ndi m t.status.err := hlegal.firstViolation hp hm hrun
    refine ⟨hfirst.processNotInitialized_iff, hfirst.allocationMismatch_iff, fun hslot =>
      ⟨hfirst.controlOverflow_iff hslot, hfirst.allocationTooSmall_iff hslot, fun hcontrol hdata hslots hbuffers => ?_⟩⟩
    obtain ⟨hnever, -⟩ := invalidBitLengthNever s ⟨proc, rv, ndi, mod, sf, dg, db, dh⟩ hslots hbuffers
    exact (hfirst.ok_or_invalidBitLength hslot hcontrol hdata).resolve_right (hnever t hrun)

/-! ## A failing command (60_exceptions.md R404, R405) -/

/-- Settles O8: a command with a code other than OK is the epilogue alone, by the two ways a command can end. -/
theorem failureIsPrecise : Obligations.FailureIsPrecise := by
  intro i s t hexec hfail
  rcases exec_cases hexec with ⟨code, -, rfl⟩ | ⟨u, -, rfl⟩
  · exact ⟨rfl, rfl, rfl, fun _ => rfl, rfl, fun _ => ⟨rfl, rfl⟩, rfl, rfl, rfl, rfl⟩
  · exact absurd rfl hfail

/-! ## The resets (10_state.md R62; 70_reset_and_hazards.md R440, R442) -/

theorem ArgRegs.get_reset (r : ArgReg) : ArgRegs.reset.get r = 0 := by cases r <;> rfl

/-- The register file as a reset leaves it: what the hardware reset and the soft reset have in common. -/
structure State.RegistersReset (t : State) : Prop where
  regs : t.regs = .reset
  status : t.status = .reset
  lens : t.lens = .reset
  cell : t.cell.configured = false
  pending : t.pending = none

/-- STATUS is 0 with BUSY and CELL_CONFIGURED, the views of PENDING and CELL (10_state.md R35). -/
theorem State.RegistersReset.reads {t : State} (h : t.RegistersReset) :
    (∀ r : ArgReg, t.regs.get r = 0) ∧ t.statusWord = 0 := by
  refine ⟨fun r => by rw [h.regs, ArgRegs.get_reset], ?_⟩
  rw [State.statusWord, State.busy, h.status, h.cell, h.pending]
  rfl

theorem State.registersReset_softReset (s : State) : s.softReset.RegistersReset := ⟨rfl, rfl, rfl, rfl, rfl⟩

theorem State.registersReset_hardwareReset (s : State) : s.hardwareReset.RegistersReset := ⟨rfl, rfl, rfl, rfl, rfl⟩

/-- Settles O30: the state after reset is itself a hardware reset, and so is the next state of a reset turn. -/
theorem hardwareReset : Obligations.HardwareReset := by
  intro t ht
  obtain ⟨s, rfl⟩ : ∃ s : State, t = s.hardwareReset := by
    rcases ht with rfl | ⟨s, rest, hturns, hstep⟩
    · exact ⟨State.reset, rfl⟩
    · rw [step_of_turn hturns] at hstep
      cases hstep
      exact ⟨_, rfl⟩
  obtain ⟨hregs, hstatus⟩ := s.registersReset_hardwareReset.reads
  refine ⟨hregs, hstatus, rfl, rfl, rfl, rfl, rfl, rfl, fun p => ?_, rfl, rfl, fun _ => rfl⟩
  rw [State.slot_hardwareReset, init_slot_reset]

theorem hostAccess_writeCtrl (s : State) (data : Word) :
    hostAccess (.write .w32 0x004 data) s = .next (if data.getLsbD 0 then s.softReset else s) :=
  hostAccess_writeReg (by decide) (by decide) data s

/-- Settles O52: CTRL.SRESET chooses between the soft reset and no change. -/
theorem softReset : Obligations.SoftReset := by
  intro s data
  rw [hostAccess_writeCtrl]
  refine ⟨fun hset => ?_, fun hclear => by rw [hclear]; rfl⟩
  obtain ⟨hregs, hstatus⟩ := s.registersReset_softReset.reads
  refine ⟨s.softReset, by rw [hset]; rfl, rfl, rfl, hregs, hstatus, rfl, rfl, rfl, rfl, rfl, rfl, fun p => ?_, rfl⟩
  rw [State.slot_softReset]

/-! ## Host reads of memory with nothing pending (70_reset_and_hazards.md R444) -/

/-- With nothing pending a byte of a memory is found as it stands, with its marks. -/
theorem State.hostByte_mapped {s : State} (h : s.pending = none) {a : Nat} (hmapped : inputByte a ∨ outputByte a)
    (i : Nat) : s.hostByte a i = (s.mem.byteAt a, s.mem.markAt a) := by
  rcases hmapped with hin | hout
  · exact s.hostByte_input hin i
  · have hbusy : s.busy = false := by rw [State.busy, h]; rfl
    simp [State.hostByte, regionOf_eq_output_iff.2 hout, hbusy]

theorem any_unwritten_hostBytes_iff (s : State) (a n : Nat) :
    ((s.hostBytes a n).any fun b => b.2 == 0) = true ↔ ∃ i, i < n ∧ (s.hostByte (a + i) i).2 = 0 := by
  simp [State.hostBytes]

/-- One byte without a written bit stops the whole read (log 19). -/
theorem State.readMem_eq_fault {s : State} {width : Width} {a : Nat}
    (h : ∃ i, i < width.bytes ∧ (s.hostByte (a + i) i).2 = 0) : s.readMem width a = .fault .neverWrittenRead :=
  if_pos ((any_unwritten_hostBytes_iff s a width.bytes).2 h)

/-- With nothing pending a read that finds a written bit in every byte answers these bytes and draws no free value. -/
theorem State.readMem_idle {s : State} (hpending : s.pending = none) {width : Width} {a : Nat}
    (h : ∀ i, i < width.bytes → (s.hostByte (a + i) i).2 ≠ 0) :
    s.readMem width a = .next (s.withRead width (wordOfBytes ((s.hostBytes a width.bytes).map Prod.fst))
      (wordOfBytes ((s.hostBytes a width.bytes).map Prod.snd))) := by
  have hany : ((s.hostBytes a width.bytes).any fun b => b.2 == 0) = false := by
    rw [Bool.eq_false_iff, ne_eq, any_unwritten_hostBytes_iff]
    rintro ⟨i, hi, hzero⟩
    exact h i hi hzero
  have hbusy : s.busy = false := by rw [State.busy, hpending]; rfl
  simp only [State.readMem, hany, hbusy, Bool.false_and, Bool.false_eq_true, if_false]

theorem extractLsb'_wordOfBytes (bs : List Byte) {i : Nat} (h : i < 4) :
    (wordOfBytes bs).extractLsb' (8 * i) 8 = bs.getD i 0 := by
  apply BitVec.eq_of_getLsbD_eq
  intro j hj
  rw [BitVec.getLsbD_extractLsb', getLsbD_wordOfBytes _ (by omega), show (8 * i + j) / 8 = i by omega,
    show (8 * i + j) % 8 = j by omega, decide_eq_true hj, Bool.true_and]

/-- Byte i of the value and of the marks that a read of `n` bytes answers. -/
theorem State.extractLsb'_hostBytes (s : State) (a : Nat) {n i : Nat} (hn : n ≤ 4) (hi : i < n) :
    (wordOfBytes ((s.hostBytes a n).map Prod.fst)).extractLsb' (8 * i) 8 = (s.hostByte (a + i) i).1 ∧
      (wordOfBytes ((s.hostBytes a n).map Prod.snd)).extractLsb' (8 * i) 8 = (s.hostByte (a + i) i).2 := by
  rw [extractLsb'_wordOfBytes _ (by omega), extractLsb'_wordOfBytes _ (by omega), List.getD_eq_getElem _ _ (by simpa),
    List.getD_eq_getElem _ _ (by simpa), List.getElem_map, List.getElem_map, getElem_hostBytes]
  exact ⟨rfl, rfl⟩

theorem Width.bytes_le (width : Width) : width.bytes ≤ 4 := by cases width <;> decide

/-- Settles O60: each byte is found with its marks, one never written stops the read, and otherwise the bytes stand in
the answer. -/
theorem unwrittenReadFaults : Obligations.UnwrittenReadFaults := by
  intro s width offset hpending hmem bytes halign
  have hbytes : bytes = width.bytes := by cases width <;> rfl
  rw [hbytes] at halign ⊢
  rw [hostAccess_readMem (Nat.not_lt.2 hmem) halign]
  refine ⟨fun ⟨i, hi, hmapped, hmark⟩ => ?_, fun hwritten => ?_⟩
  · refine State.readMem_eq_fault ⟨i, hi, ?_⟩
    rw [State.hostByte_mapped hpending hmapped, hmark]
  · have hfound : ∀ i, i < width.bytes → (s.hostByte (offset.toNat + i) i).2 ≠ 0 := fun i hi hzero => by
      obtain ⟨hmapped, hmark⟩ := State.unwritten_of_hostByte hzero
      exact hwritten i hi hmapped hmark
    refine ⟨_, State.readMem_idle hpending hfound, rfl, fun i hi => ?_⟩
    obtain ⟨hvalue, hmarks⟩ := s.extractLsb'_hostBytes offset.toNat width.bytes_le hi
    rw [hvalue, hmarks]
    refine ⟨fun hmapped => ?_, fun ⟨hin, hout⟩ => ?_⟩
    · rw [State.hostByte_mapped hpending hmapped]
      exact ⟨rfl, rfl⟩
    · rw [s.hostByte_unmapped hin hout]
      exact ⟨rfl, rfl⟩

end Sys2Proof.Machine
end
